-- ==== Sys2Proof/Word.lean ====
section
/-! DEFINITION. The machine's words: bytes of BUF, 32-bit registers, binary64 patterns (R7, R9). -/

namespace Sys2Proof

/-- One byte of BUF (R49). -/
abbrev Byte := BitVec 8

/-- A 32-bit register or command word (R20, R64). -/
abbrev Word := BitVec 32

/-- `F64` of R9: a 64-bit pattern that is read as an IEEE 754 binary64 value. -/
abbrev F64 := BitVec 64

end Sys2Proof
end

