-- ==== Sys2Proof/Config.lean ====
section
/-! DEFINITION. What an implementation or a platform fixes, and the values the spec leaves free. The constants
without a body have no value Lean can see: a claim that mentions one holds whatever it is. -/

namespace Sys2Proof

/-- How many values `memUnits` has: MEM_BYTES = 4096 + 8 * memUnits runs over every multiple of 8 from 4096
to 2^31 (R6). -/
abbrev Config.memUnitCount : Nat := 268434945

/-- The bus address of the register aperture: OPEN, the platform's (R6, R50). Log 12. -/
opaque Config.regBase : Nat

/-- The bus address of BUF: OPEN, the platform's (R6, R50). Log 12. -/
opaque Config.bufBase : Nat

/-- The platform interrupt line that IRQ drives: OPEN, the platform's (R6, R107). Log 12. -/
opaque Config.irqLine : Nat

/-- PENDING after reset number n: unspecified (R118, U3). Log 4. -/
opaque Config.resetPending : Nat → Word

/-- Entry k of parameter table t (0 TAXIS, 1 REF1, 2 REF0, 3 CREF1, 4 CREF0) after reset number n: unspecified
(R118, U3). Log 4. -/
opaque Config.resetEntry : Nat → Nat → Nat → F64

/-- The byte of BUF at an address that reset number n leaves unspecified (R119, R120, U1, U2). Log 5. -/
opaque Config.unspecifiedByte : Nat → Nat → Byte

end Sys2Proof
end

