-- ==== Sys2Proof/Machine/Constants.lean ====
section
/-! DEFINITION. The named constants of the spec: binary64 patterns (R10, R15), identity values (R25, R26). -/

namespace Sys2Proof.Machine

/-- DEF_AMP, 0.0001 (R15). -/
def defAmp : F64 := 0x3F1A36E2EB1C432D#64
/-- DEF_BP, 1.0 / 44100.0 (R15). -/
def defBp : F64 := 0x3EF7C6F8C751F177#64
/-- DEF_RED (R15). -/
def defRed : Nat := 2
/-- BP_MIN, 5e-07 (R15). -/
def bpMin : F64 := 0x3EA0C6F7A0B5ED8D#64
/-- BP_MAX, 0.1 (R15). -/
def bpMax : F64 := 0x3FB999999999999A#64
/-- AMP_MAX, 1.0 (R15). -/
def ampMax : F64 := 0x3FF0000000000000#64
/-- MIX_DEF, 0.25 (R15). -/
def mixDef : F64 := 0x3FD0000000000000#64
/-- TWO_PI = 2.0 * PI64, exact (R15). -/
def twoPi : F64 := 0x401921FB54442D18#64
/-- CNAN, the canonical quiet NaN (R10). -/
def cnan : F64 := 0x7FF8000000000000#64
/-- +0.0 -/
def posZero : F64 := 0x0000000000000000#64
/-- -0.0 -/
def negZero : F64 := 0x8000000000000000#64
/-- 1.0 -/
def one : F64 := 0x3FF0000000000000#64
/-- 2.0 -/
def two : F64 := 0x4000000000000000#64

/-- ID (R25). -/
def idValue : Word := 0x46534B44#32
/-- VERSION (R26). -/
def versionValue : Word := 0x00010000#32
/-- FIRST_AMB when there was no ambiguous window (R44). -/
def noWindow : Word := 0xFFFFFFFF#32
/-- SS_MAX, the depth of every parameter table (R6, R39). -/
def ssMax : Nat := 200

end Sys2Proof.Machine
end

