-- ==== Sys2Proof/Syntax.lean ====
section
/-! DEFINITION. The syntax: the six commands (R66), the named registers (R20), the steps an agent outside the
Engine can ask for (R18, R23, R53, R118), the block's answers on the bus, the assembler's statements (R73, R74). -/

namespace Sys2Proof

/-- The commands, one constructor per row of the opcode table (R2, R66). A command word carries no operand (R64). -/
inductive Instr where
  | nop
  | derive
  | mod
  | demod
  | embed
  | extract
  deriving DecidableEq, Repr

/-- Why a word decodes to ILLEGAL (R67, R68). Both reasons complete with the same error code. -/
inductive DecodeError where
  /-- bits 31:8 are not all zero -/
  | reservedBits
  /-- OP is one of 0x06 to 0xFF -/
  | reservedOpcode
  deriving DecidableEq, Repr

/-- The two 32-bit halves of a 64-bit register: `NAME_LO` at offset o, `NAME_HI` at o + 4 (R20). -/
inductive Half where
  | lo
  | hi
  deriving DecidableEq, Repr

/-- The 64-bit registers of R20, each a pair of 32-bit registers. -/
inductive Reg64 where
  | ampIn | bpIn
  | amp | bp | br | fOne | fZero | rp | wOne | wZero
  | tblData | mix | loc
  deriving DecidableEq, Repr

/-- The 32-bit registers of R20's table, by name. Every other offset of the aperture is reserved. -/
inductive Reg where
  | id | version | ctrl | status | errcode | warn | intStatus | intEnable | cmd | cmdcnt | memsize
  | redIn | red | ss | tblSel
  | srcA | lenA | rateA | srcB | lenB | rateB | dst | width
  | outLen | descWidth | offset | nwin | ambCount | firstAmb
  | half (r : Reg64) (h : Half)
  deriving DecidableEq, Repr

/-- One turn of an agent, in the order in which the turns take place (R18, R59, R132). The offset of a register
access is a byte offset of the 4096-byte aperture, so it has 12 bits (R20). -/
inductive Turn where
  /-- the Engine is given its step (R47) -/
  | engine
  /-- `RegWrite(off, v)` by an access of `width` bytes (R23) -/
  | regWrite (width : Nat) (off : BitVec 12) (v : Word)
  /-- `RegRead(off)` by an access of `width` bytes (R23) -/
  | regRead (width : Nat) (off : BitVec 12)
  /-- the Host's loop of STATUS reads, repeated until the value read has bit 0 = 0 (R74's `wait`); at most
  `busyReads` of its reads come before the Engine's step, which R132 leaves free -/
  | pollStatus (busyReads : Nat)
  /-- Host BUF write of the low `width` bytes of `v` (R53) -/
  | bufWrite (width addr : Nat) (v : BitVec 64)
  /-- Host BUF read of `width` bytes (R53) -/
  | bufRead (width addr : Nat)
  /-- the platform asserts the reset input; not a power-on reset (R118, R119) -/
  | reset
  /-- a power-on reset (R118, R119) -/
  | powerOn
  deriving DecidableEq, Repr

/-- The block's answer to one Host access. -/
inductive Reply where
  /-- a write was taken from the bus (performed, ignored or dropped: R20, R24) -/
  | written
  /-- the value of a register read (R23) -/
  | regData (v : Word)
  /-- the value of a BUF read, zero-extended (R53) -/
  | bufData (v : BitVec 64)
  /-- a bus error (R106) -/
  | busError
  deriving DecidableEq, Repr

/-- The statements of the assembler: the base statements of R73 and the pseudo-instructions of R74. A float
operand is its binary64 pattern. `wait busyReads` is a Host loop that ends when it reads BUSY = 0; `busyReads` bounds
its reads before the Engine's step. -/
inductive Stmt where
  | wr (r : Reg) (v : Word)
  | rd (r : Reg)
  | bw (n addr : Nat) (v : BitVec 64)
  | br (n addr : Nat)
  | run (i : Instr)
  | cmd (v : Word)
  | wrf (r : Reg64) (x : F64)
  | bwf (addr : Nat) (x : F64)
  | deriveWith (a bp : F64) (r : Word)
  | modWith (src nbits dst : Word)
  | demodWith (src nsamp dst : Word)
  | embedWith (h hlen hrate p plen prate : Word) (loc : F64) (dst : Word)
  | extractWith (m mlen mrate h hlen hrate : Word) (loc : F64) (width dst : Word)
  | policy (amb : BitVec 2) (val : BitVec 1)
  | wait (busyReads : Nat)
  | ack
  | clrwarn
  | srst
  deriving DecidableEq, Repr

end Sys2Proof
end

