-- ==== Sys2Proof/Machine/State.lean ====
section
/-! DEFINITION. The state of the block (R19) as plain data, the reasons a step can stop, the state after reset. -/

namespace Sys2Proof.Machine

/-- PHASE (R19, R46). -/
inductive Phase where
  | idle
  | busy
  deriving DecidableEq, Repr

/-- The derived parameter registers (R38). -/
structure Params where
  amp : F64
  bp : F64
  br : F64
  fOne : F64
  fZero : F64
  rp : F64
  wOne : F64
  wZero : F64
  red : Word
  ss : Word
  deriving DecidableEq, Repr

/-- The parameter tables, entry k at position k (R39). -/
structure Tables where
  taxis : List F64
  ref1 : List F64
  ref0 : List F64
  cref1 : List F64
  cref0 : List F64
  deriving DecidableEq, Repr

/-- The operand registers (R43). -/
structure Operands where
  srcA : Word
  lenA : Word
  rateA : Word
  srcB : Word
  lenB : Word
  rateB : Word
  dst : Word
  width : Word
  loc : F64
  deriving DecidableEq, Repr

/-- The result registers (R44). -/
structure Results where
  outLen : Word
  descWidth : Word
  offset : Word
  nwin : Word
  ambCount : Word
  firstAmb : Word
  deriving DecidableEq, Repr

/-- BUF as (address, byte) pairs in one canonical form: addresses strictly rising, no entry equal to what an
unlisted address reads as (Machine/Memory.lean, `Memory.wf`). -/
abbrev Memory := List Host.Cell

/-- The architectural state of R19, with the model's own fields last. -/
structure State where
  /-- MEM_BYTES = 4096 + 8 * memUnits: the parameter of R6, not architectural state (R19); no step changes it -/
  memUnits : Fin Config.memUnitCount
  phase : Phase
  /-- PENDING (R46) -/
  pending : Word
  /-- STATUS.LASTOP (R28) -/
  lastop : BitVec 8
  /-- PVALID (R39) -/
  pvalid : Bool
  /-- STATUS.ERR (R28) -/
  err : Bool
  /-- ERRCODE[7:0] (R29) -/
  errcode : BitVec 8
  /-- CTRL.AMBPOL (R27) -/
  ambpol : BitVec 2
  /-- CTRL.VALPOL (R27): false SUBSTITUTE, true REJECT -/
  valpol : Bool
  /-- WARN[4:0] (R30) -/
  warn : BitVec 5
  /-- INT_STATUS[1:0] (R31) -/
  intStatus : BitVec 2
  /-- INT_ENABLE[1:0] (R32) -/
  intEnable : BitVec 2
  /-- CMDCNT (R35) -/
  cmdcnt : Word
  ampIn : F64
  bpIn : F64
  redIn : Word
  params : Params
  tables : Tables
  /-- TBL_SEL.TSEL (R40) -/
  tsel : BitVec 3
  /-- TBL_SEL.TIDX (R40) -/
  tidx : BitVec 8
  mix : F64
  operands : Operands
  results : Results
  buf : Memory
  /-- the model's own: how many resets have been taken (log 4, log 5) -/
  resets : Nat
  /-- the model's own: the coming turns of the agents, in order (log 7) -/
  turns : List Turn
  /-- the model's own: the answers given on the Host's bus, newest first (log 8) -/
  replies : List Reply
  deriving DecidableEq, Repr

/-- The block has no condition that stops it: a command error completes the command (R104), a bus error is an
answer on the bus (R106), a floating-point condition never traps (R9). So no fault exists, and nothing raises one. -/
inductive Fault where
  deriving DecidableEq, Repr

/-- The reasons for which a step has no meaning. -/
inductive Refusal where
  /-- Raised by an arm of `exec` for a command that has no meaning yet; no arm does so now. Safe. -/
  | notModelled (mnemonic : String)
  deriving DecidableEq, Repr

/-- What a step of the block answers. -/
abbrev Result := Host.Outcome State Fault Refusal

/-- A table of 200 zero entries, for a table whose contents the spec leaves unspecified (R118). DESIGN CHOICE,
log 3. -/
def zeroTables : Tables where
  taxis := List.replicate ssMax posZero
  ref1 := List.replicate ssMax posZero
  ref0 := List.replicate ssMax posZero
  cref1 := List.replicate ssMax posZero
  cref0 := List.replicate ssMax posZero

/-- The block after a power-on reset, for any MEM_BYTES (R6) and any BUF_INIT (R119): R118 and the reset column
of R20. -/
def State.afterPowerOn (memUnits : Fin Config.memUnitCount) (bufInit : Memory) : State where
  memUnits := memUnits
  phase := .idle
  pending := 0
  lastop := 0
  pvalid := false
  err := false
  errcode := 0
  ambpol := 0
  valpol := false
  warn := 0
  intStatus := 0
  intEnable := 0
  cmdcnt := 0
  ampIn := defAmp
  bpIn := defBp
  redIn := 2
  params :=
    { amp := 0, bp := 0, br := 0, fOne := 0, fZero := 0, rp := 0, wOne := 0, wZero := 0, red := 0, ss := 0 }
  tables := zeroTables
  tsel := 0
  tidx := 0
  mix := mixDef
  operands :=
    { srcA := 0, lenA := 0, rateA := 0, srcB := 0, lenB := 0, rateB := 0, dst := 0, width := 0, loc := posZero }
  results := { outLen := 0, descWidth := 0, offset := 0, nwin := 0, ambCount := 0, firstAmb := noWindow }
  buf := bufInit
  resets := 0
  turns := []
  replies := []

/-- The machine right after reset (R118): MEM_BYTES = 0x40000 (log 1), BUF lists nothing (log 2). -/
def State.reset : State := State.afterPowerOn 32256 []

end Sys2Proof.Machine
end

