-- ==== Sys2Proof/Machine/Flags.lean ====
section
/-! DEFINITION. The status bits (R45): the block has no arithmetic flags. The words a register read shows, the sticky
warnings, the interrupt bits and the interrupt output. -/

namespace Sys2Proof.Machine

/-- MEM_BYTES (R6). -/
def State.memBytes (s : State) : Nat := 4096 + 8 * s.memUnits.val

/-- STATUS as read (R28): LASTOP in 15:8, ERR in 2, PVALID in 1, BUSY in 0. -/
def State.statusWord (s : State) : Word :=
  0#16 ++ s.lastop ++ 0#5 ++ BitVec.ofBool s.err ++ BitVec.ofBool s.pvalid ++ BitVec.ofBool (s.phase == .busy)

/-- CTRL as read (R27): VALPOL in 3, AMBPOL in 2:1, SRST reads 0. -/
def State.ctrlWord (s : State) : Word := 0#28 ++ BitVec.ofBool s.valpol ++ s.ambpol ++ 0#1

/-- TBL_SEL as read (R40): TIDX in 15:8, TSEL in 2:0. -/
def State.tblSelWord (s : State) : Word := 0#16 ++ s.tidx ++ 0#5 ++ s.tsel

/-- WARN.AMP_SUB (R30). -/
def warnAmpSub : BitVec 5 := 0b00001#5
/-- WARN.BP_SUB (R30). -/
def warnBpSub : BitVec 5 := 0b00010#5
/-- WARN.RED_SUB (R30). -/
def warnRedSub : BitVec 5 := 0b00100#5
/-- WARN.AMBIG (R30). -/
def warnAmbig : BitVec 5 := 0b01000#5
/-- WARN.OVR (R30). -/
def warnOvr : BitVec 5 := 0b10000#5

/-- The warnings of a DERIVE that substitutes each input that is not valid (R75). -/
def substitutionWarnings (va vb vr : Bool) : BitVec 5 :=
  (if va then 0#5 else warnAmpSub) ||| (if vb then 0#5 else warnBpSub) ||| (if vr then 0#5 else warnRedSub)

/-- INT_STATUS.DONE (R31). -/
def intDone : BitVec 2 := 0b01#2
/-- INT_STATUS.ERR (R31). -/
def intErr : BitVec 2 := 0b10#2

/-- What completion makes of INT_STATUS (R31, R103): DONE is set, and ERR when the command failed. -/
def completedInt (old : BitVec 2) (failed : Bool) : BitVec 2 :=
  old ||| intDone ||| (if failed then intErr else 0#2)

/-- IRQ (R33). -/
def State.irq (s : State) : Bool :=
  (s.intStatus.getLsbD 0 && s.intEnable.getLsbD 0) || (s.intStatus.getLsbD 1 && s.intEnable.getLsbD 1)

end Sys2Proof.Machine
end

