-- ==== Sys2Proof/Machine/Memory.lean ====
section
/-! DEFINITION. BUF: the canonical form, reading, writing, byte order (R49, R52, R54, R55). -/

namespace Sys2Proof.Machine

/-- What an address with no entry reads as. The spec leaves BUF_INIT open (R119). DESIGN CHOICE, log 2. -/
def Memory.unlisted : Byte := 0

/-- The canonical form: addresses strictly rising, no entry equal to what an unlisted address reads as. -/
abbrev Memory.wf (m : Memory) : Prop :=
  List.Pairwise (fun c d => c.1 < d.1) m ∧ ∀ c ∈ m, c.2 ≠ Memory.unlisted

/-- BUF[a]. -/
def Memory.read (m : Memory) (a : Nat) : Byte :=
  match m with
  | [] => Memory.unlisted
  | (b, v) :: rest => if b = a then v else Memory.read rest a

/-- The entries of the bytes `bs` at `a`, `a + 1`, …; a byte that an unlisted address reads as has no entry. -/
def Memory.cellsFrom (a : Nat) : List Byte → Memory
  | [] => []
  | b :: bs =>
    if b = Memory.unlisted then Memory.cellsFrom (a + 1) bs else (a, b) :: Memory.cellsFrom (a + 1) bs

/-- BUF with the bytes `bs` stored at `a`, `a + 1`, …: every write of the block goes through here. -/
def Memory.write (m : Memory) (a : Nat) (bs : List Byte) : Memory :=
  m.filter (fun c => c.1 < a) ++ Memory.cellsFrom a bs ++ m.filter (fun c => a + bs.length ≤ c.1)

/-- `MemRead(a, n)`: the n bytes at a as a little-endian number (R52). -/
def Memory.readLE (m : Memory) (a : Nat) : Nat → Nat
  | 0 => 0
  | n + 1 => (Memory.read m a).toNat + 256 * Memory.readLE m (a + 1) n

/-- The n low bytes of v, least significant first (R52). -/
def bytesLE : Nat → Nat → List Byte
  | 0, _ => []
  | n + 1, v => BitVec.ofNat 8 v :: bytesLE n (v / 256)

/-- `MemWrite(a, n, v)` (R52). -/
def Memory.writeLE (m : Memory) (a n v : Nat) : Memory := Memory.write m a (bytesLE n v)

/-- `Sample(a)`: the binary64 pattern in the 8 bytes at a (R16, R54). -/
def Memory.sample (m : Memory) (a : Nat) : F64 := BitVec.ofNat 64 (Memory.readLE m a 8)

/-- The bytes of consecutive samples (R54). -/
def sampleBytes (xs : List F64) : List Byte := xs.flatMap (fun x => bytesLE 8 x.toNat)

/-- `PutSample` of consecutive samples from a on (R16, R54). -/
def Memory.putSamples (m : Memory) (a : Nat) (xs : List F64) : Memory := Memory.write m a (sampleBytes xs)

/-- Bit i of the bit buffer at `base`: the most significant bit of each byte comes first (R55). -/
def Memory.bit (m : Memory) (base i : Nat) : Bool := (Memory.read m (base + i / 8)).getLsbD (7 - i % 8)

/-- `ceil8(n)` (R8): the bytes that n bits take. -/
def ceil8 (n : Nat) : Nat := (n + 7) / 8

/-- Byte j of a packed bit string; bits past its end are 0 (R55, R87). -/
def packByte (bits : List Bool) (j : Nat) : Byte :=
  (List.range 8).foldl
    (fun byte q => if bits.getD (8 * j + q) false then byte ||| (1#8 <<< (7 - q)) else byte) 0#8

/-- The bytes of a bit string, most significant bit first (R55). -/
def packBits (bits : List Bool) : List Byte := (List.range (ceil8 bits.length)).map (packByte bits)

end Sys2Proof.Machine
end

