-- ==== Sys2Proof/Machine/Ops.lean ====
section
/-! DEFINITION. The shared operations: error codes (R101), completion (R103), raising an error (R102), acceptance of
a command (R47), the acknowledgement of a completion (R109), the answer on the bus, the register part of a reset. The block
takes no trap (R108): raising an error is its nearest thing to one. -/

namespace Sys2Proof.Machine

/-- The errors of R101. -/
inductive ErrorCode where
  | configRange
  | channelMismatch
  | capacityExceeded
  /-- reserved, never raised (R101) -/
  | missingInput
  | alignmentLoss
  | illegalCmd
  | noParams
  | addrRange
  | addrAlign
  | overlap
  | locationInvalid
  | lengthMismatch
  deriving DecidableEq, Repr

/-- The code column of R101. -/
def errorByte (e : ErrorCode) : BitVec 8 :=
  match e with
  | .configRange => 0x01
  | .channelMismatch => 0x02
  | .capacityExceeded => 0x03
  | .missingInput => 0x04
  | .alignmentLoss => 0x05
  | .illegalCmd => 0x10
  | .noParams => 0x11
  | .addrRange => 0x12
  | .addrAlign => 0x13
  | .overlap => 0x14
  | .locationInvalid => 0x15
  | .lengthMismatch => 0x16

/-- `Complete(code)` (R103). -/
def complete (code : BitVec 8) (s : State) : State :=
  { s with
    errcode := code
    err := code != 0#8
    intStatus := completedInt s.intStatus (code != 0#8)
    cmdcnt := s.cmdcnt + 1
    phase := .idle }

/-- `raise E` (R102), from a state in which the command has made only the writes that are kept. -/
def raise (e : ErrorCode) (s : State) : Result := .next (complete (errorByte e) s)

/-- The last statement of a command that succeeds: `Complete(0)`. -/
def succeed (s : State) : Result := .next (complete 0#8 s)

/-- Acceptance of a command word (R47). -/
def accept (v : Word) (s : State) : State :=
  { s with pending := v, lastop := v.extractLsb' 0 8, phase := .busy }

/-- The block's answer on the Host's bus. -/
def answer (r : Reply) (s : State) : State := { s with replies := r :: s.replies }

/-- The Host's acknowledgement: writing 1s to INT_STATUS clears those bits (R31, R109). -/
def acknowledge (v : Word) (s : State) : State :=
  { s with intStatus := s.intStatus &&& ~~~(v.setWidth 2) }

/-- The register part of a reset (R118, R121): every register at its reset value, PVALID and PHASE with them. BUF,
the tables and PENDING are no registers; the parameter and the model's own fields are no state of the block. -/
def resetRegisters (s : State) : State :=
  { State.reset with
    memUnits := s.memUnits
    pending := s.pending
    tables := s.tables
    buf := s.buf
    resets := s.resets
    turns := s.turns
    replies := s.replies }

end Sys2Proof.Machine
end

