-- ==== Sys2Proof/Machine/Registers.lean ====
section
/-! DEFINITION. The register file (R20): offsets, what a read returns, what a write does. -/

namespace Sys2Proof.Machine

/-- The offset of the LO half of a 64-bit register (R20). -/
def reg64Offset (r : Reg64) : BitVec 12 :=
  match r with
  | .ampIn => 0x040
  | .bpIn => 0x048
  | .amp => 0x080
  | .bp => 0x088
  | .br => 0x090
  | .fOne => 0x098
  | .fZero => 0x0A0
  | .rp => 0x0A8
  | .wOne => 0x0B0
  | .wZero => 0x0B8
  | .tblData => 0x0D8
  | .mix => 0x0E0
  | .loc => 0x120

/-- The offset column of R20. -/
def regOffset (r : Reg) : BitVec 12 :=
  match r with
  | .id => 0x000
  | .version => 0x004
  | .ctrl => 0x008
  | .status => 0x00C
  | .errcode => 0x010
  | .warn => 0x014
  | .intStatus => 0x018
  | .intEnable => 0x01C
  | .cmd => 0x020
  | .cmdcnt => 0x024
  | .memsize => 0x028
  | .redIn => 0x050
  | .red => 0x0C0
  | .ss => 0x0C4
  | .tblSel => 0x0D0
  | .srcA => 0x100
  | .lenA => 0x104
  | .rateA => 0x108
  | .srcB => 0x10C
  | .lenB => 0x110
  | .rateB => 0x114
  | .dst => 0x118
  | .width => 0x11C
  | .outLen => 0x140
  | .descWidth => 0x144
  | .offset => 0x148
  | .nwin => 0x14C
  | .ambCount => 0x150
  | .firstAmb => 0x154
  | .half r .lo => reg64Offset r
  | .half r .hi => reg64Offset r + 4

/-- The 64-bit registers (R20). -/
def allReg64 : List Reg64 :=
  [.ampIn, .bpIn, .amp, .bp, .br, .fOne, .fZero, .rp, .wOne, .wZero, .tblData, .mix, .loc]

/-- Every register of R20's table. -/
def allRegs : List Reg :=
  [.id, .version, .ctrl, .status, .errcode, .warn, .intStatus, .intEnable, .cmd, .cmdcnt, .memsize,
    .redIn, .red, .ss, .tblSel, .srcA, .lenA, .rateA, .srcB, .lenB, .rateB, .dst, .width,
    .outLen, .descWidth, .offset, .nwin, .ambCount, .firstAmb]
  ++ allReg64.map (fun r => .half r .lo) ++ allReg64.map (fun r => .half r .hi)

/-- The register at an offset; none where the offset is reserved (R20). -/
def regAt (off : BitVec 12) : Option Reg := allRegs.find? (fun r => regOffset r == off)

/-- The half of a 64-bit value (R20). -/
def halfOf (h : Half) (x : F64) : Word :=
  match h with
  | .lo => x.extractLsb' 0 32
  | .hi => x.extractLsb' 32 32

/-- A 64-bit value with one half replaced (R16, R124). -/
def withHalf (h : Half) (v : Word) (x : F64) : F64 :=
  match h with
  | .lo => x.extractLsb' 32 32 ++ v
  | .hi => v ++ x.extractLsb' 0 32

/-- The table that TSEL selects (R40). -/
def selectedTable (s : State) : Option (List F64) :=
  match s.tsel.toNat with
  | 0 => some s.tables.taxis
  | 1 => some s.tables.ref1
  | 2 => some s.tables.ref0
  | 3 => some s.tables.cref1
  | 4 => some s.tables.cref0
  | _ => none

/-- TBL_DATA, computed on every read (R41). -/
def tableData (s : State) : F64 :=
  match selectedTable s with
  | some t => if s.pvalid && decide (s.tidx.toNat < s.params.ss.toNat) then t.getD s.tidx.toNat posZero else posZero
  | none => posZero

/-- The value of a 64-bit register. -/
def readReg64 (r : Reg64) (s : State) : F64 :=
  match r with
  | .ampIn => s.ampIn
  | .bpIn => s.bpIn
  | .amp => s.params.amp
  | .bp => s.params.bp
  | .br => s.params.br
  | .fOne => s.params.fOne
  | .fZero => s.params.fZero
  | .rp => s.params.rp
  | .wOne => s.params.wOne
  | .wZero => s.params.wZero
  | .tblData => tableData s
  | .mix => s.mix
  | .loc => s.operands.loc

/-- What a read of a register returns (R20, R25 to R44). -/
def readReg (r : Reg) (s : State) : Word :=
  match r with
  | .id => idValue
  | .version => versionValue
  | .ctrl => s.ctrlWord
  | .status => s.statusWord
  | .errcode => s.errcode.setWidth 32
  | .warn => s.warn.setWidth 32
  | .intStatus => s.intStatus.setWidth 32
  | .intEnable => s.intEnable.setWidth 32
  | .cmd => 0
  | .cmdcnt => s.cmdcnt
  | .memsize => BitVec.ofNat 32 s.memBytes
  | .redIn => s.redIn
  | .red => s.params.red
  | .ss => s.params.ss
  | .tblSel => s.tblSelWord
  | .srcA => s.operands.srcA
  | .lenA => s.operands.lenA
  | .rateA => s.operands.rateA
  | .srcB => s.operands.srcB
  | .lenB => s.operands.lenB
  | .rateB => s.operands.rateB
  | .dst => s.operands.dst
  | .width => s.operands.width
  | .outLen => s.results.outLen
  | .descWidth => s.results.descWidth
  | .offset => s.results.offset
  | .nwin => s.results.nwin
  | .ambCount => s.results.ambCount
  | .firstAmb => s.results.firstAmb
  | .half r h => halfOf h (readReg64 r s)

/-- What `RegRead(off)` returns: 0 at a reserved offset (R20). -/
def readOffset (off : BitVec 12) (s : State) : Word :=
  match regAt off with
  | some r => readReg r s
  | none => 0

/-- A write to half of a 64-bit register: the read-write ones take it, the others ignore it (R20, R23). -/
def writeReg64 (r : Reg64) (h : Half) (v : Word) (s : State) : State :=
  match r with
  | .ampIn => { s with ampIn := withHalf h v s.ampIn }
  | .bpIn => { s with bpIn := withHalf h v s.bpIn }
  | .mix => { s with mix := withHalf h v s.mix }
  | .loc => { s with operands := { s.operands with loc := withHalf h v s.operands.loc } }
  | .amp => s
  | .bp => s
  | .br => s
  | .fOne => s
  | .fZero => s
  | .rp => s
  | .wOne => s
  | .wZero => s
  | .tblData => s

/-- A write to CTRL while IDLE: SRST = 1 is a soft reset and discards the other bits, otherwise the policies are
written (R27, R121). -/
def writeCtrl (v : Word) (s : State) : State :=
  if v.getLsbD 0 then resetRegisters s else { s with ambpol := v.extractLsb' 1 2, valpol := v.getLsbD 3 }

/-- What a write to a register does when it takes effect (R20, R27 to R44). -/
def writeReg (r : Reg) (v : Word) (s : State) : State :=
  match r with
  | .ctrl => writeCtrl v s
  | .warn => { s with warn := s.warn &&& ~~~(v.setWidth 5) }
  | .intStatus => acknowledge v s
  | .intEnable => { s with intEnable := v.setWidth 2 }
  | .cmd => accept v s
  | .redIn => { s with redIn := v }
  | .tblSel => { s with tsel := v.setWidth 3, tidx := v.extractLsb' 8 8 }
  | .srcA => { s with operands := { s.operands with srcA := v } }
  | .lenA => { s with operands := { s.operands with lenA := v } }
  | .rateA => { s with operands := { s.operands with rateA := v } }
  | .srcB => { s with operands := { s.operands with srcB := v } }
  | .lenB => { s with operands := { s.operands with lenB := v } }
  | .rateB => { s with operands := { s.operands with rateB := v } }
  | .dst => { s with operands := { s.operands with dst := v } }
  | .width => { s with operands := { s.operands with width := v } }
  | .half r h => writeReg64 r h v s
  | .id => s
  | .version => s
  | .status => s
  | .errcode => s
  | .cmdcnt => s
  | .memsize => s
  | .red => s
  | .ss => s
  | .outLen => s
  | .descWidth => s
  | .offset => s
  | .nwin => s
  | .ambCount => s
  | .firstAmb => s

/-- Whether a write to this place takes effect while BUSY: only INT_STATUS and INT_ENABLE do (R24). -/
def writableWhileBusy (r : Option Reg) : Bool := r == some .intStatus || r == some .intEnable

/-- `RegWrite(off, v)` (R20, R23, R24): dropped with WARN.OVR while BUSY, ignored at a reserved offset. -/
def writeOffset (off : BitVec 12) (v : Word) (s : State) : State :=
  if s.phase = .busy ∧ writableWhileBusy (regAt off) = false then { s with warn := s.warn ||| warnOvr }
  else
    match regAt off with
    | some r => writeReg r v s
    | none => s

end Sys2Proof.Machine
end

