-- ==== Sys2Proof/Machine/Bus.lean ====
section
/-! DEFINITION. The Host's accesses (R23, R53, R57, R106). -/

namespace Sys2Proof.Machine

/-- A register access that the block performs: 32 bits wide at a multiple of 4 (R23). -/
def regAccessOk (width : Nat) (off : BitVec 12) : Bool := width == 4 && off.toNat % 4 == 0

/-- A BUF access that the block performs: 1, 2, 4 or 8 bytes, naturally aligned, in range (R53). -/
def bufAccessOk (memBytes width addr : Nat) : Bool :=
  (width == 1 || width == 2 || width == 4 || width == 8) && addr % width == 0 && decide (addr + width ≤ memBytes)

/-- A Host register write (R23, R24, R106). -/
def hostRegWrite (width : Nat) (off : BitVec 12) (v : Word) (s : State) : State :=
  if regAccessOk width off then answer .written (writeOffset off v s) else answer .busError s

/-- A Host register read (R23, R106). -/
def hostRegRead (width : Nat) (off : BitVec 12) (s : State) : State :=
  if regAccessOk width off then answer (.regData (readOffset off s)) s else answer .busError s

/-- A Host BUF write, once it is performed (R53, R106). -/
def hostBufWrite (width addr : Nat) (v : BitVec 64) (s : State) : State :=
  if bufAccessOk s.memBytes width addr then
    answer .written { s with buf := Memory.writeLE s.buf addr width v.toNat }
  else answer .busError s

/-- A Host BUF read, once it is performed (R53, R106). -/
def hostBufRead (width addr : Nat) (s : State) : State :=
  if bufAccessOk s.memBytes width addr then
    answer (.bufData (BitVec.ofNat 64 (Memory.readLE s.buf addr width))) s
  else answer .busError s

end Sys2Proof.Machine
end

