-- ==== Sys2Proof/Machine/Float64.lean ====
section
/-! DEFINITION. IEEE 754 binary64 on 64-bit patterns (R9 to R12, R14), by exact integer arithmetic. A finite
pattern denotes plus or minus `units` times 2^-1074, so every exact result is a quotient of two naturals in that
unit, and one function rounds it (`roundUnits`). What IEEE 754 itself says is PRESUMED (R9, R11 and R12 mark it as
general knowledge): log 10. -/

namespace Sys2Proof.F64

open Sys2Proof.Machine

/-- How many units of 2^-1074 make 1.0. -/
def unitsPerOne : Nat := 2 ^ 1074

/-- The sign bit, bit 63. -/
def negative (x : F64) : Bool := x.getLsbD 63

/-- The biased exponent, bits 62:52. -/
def expField (x : F64) : Nat := x.toNat / 2 ^ 52 % 2 ^ 11

/-- The fraction, bits 51:0. -/
def fracField (x : F64) : Nat := x.toNat % 2 ^ 52

def isNaN (x : F64) : Bool := expField x == 2047 && fracField x != 0

def isInf (x : F64) : Bool := expField x == 2047 && fracField x == 0

/-- `finite(x)` of R11. -/
def finite (x : F64) : Bool := expField x != 2047

/-- The magnitude of a finite pattern in units of 2^-1074. For an infinity it is 2^2098, above every finite
magnitude, so that comparisons need no case of their own. -/
def units (x : F64) : Nat :=
  if expField x = 0 then fracField x else (2 ^ 52 + fracField x) * 2 ^ (expField x - 1)

/-- The signed magnitude in units of 2^-1074. -/
def intUnits (x : F64) : Int := if negative x then -(units x : Int) else (units x : Int)

/-- The natural number nearest to n / d, ties to even. -/
def rneDiv (n d : Nat) : Nat :=
  if 2 * (n % d) < d ∨ (2 * (n % d) = d ∧ n / d % 2 = 0) then n / d else n / d + 1

/-- The binary64 value nearest to n / d units of 2^-1074 with the given sign, ties to even; overflow gives the
infinity of that sign (R9). With `k` the place of the last bit kept, the pattern is `k * 2^52` plus the rounded
significand: a carry out of the significand raises the exponent by itself, and subnormals have `k = 0`. -/
def roundUnits (neg : Bool) (n d : Nat) : F64 :=
  let k := (n / d).log2 - 52
  let magnitude := k * 2 ^ 52 + rneDiv n (d * 2 ^ k)
  BitVec.ofNat 64 ((if neg then 2 ^ 63 else 0) + min magnitude 0x7FF0000000000000)

/-- Infinity of a sign. -/
def infinity (neg : Bool) : F64 := if neg then 0xFFF0000000000000#64 else 0x7FF0000000000000#64

/-- Zero of a sign. -/
def zero (neg : Bool) : F64 := if neg then negZero else posZero

/-- `x + y` (R9, R10). -/
def add (x y : F64) : F64 :=
  if isNaN x || isNaN y then cnan
  else if isInf x then (if isInf y && (negative x != negative y) then cnan else x)
  else if isInf y then y
  else
    let z := intUnits x + intUnits y
    if z = 0 then zero (negative x && negative y) else roundUnits (decide (z < 0)) z.natAbs 1

/-- The pattern with the sign bit flipped. -/
def neg (x : F64) : F64 := x ^^^ 0x8000000000000000#64

/-- `x - y` (R9, R10). -/
def sub (x y : F64) : F64 := add x (neg y)

/-- `x * y` (R9, R10). -/
def mul (x y : F64) : F64 :=
  let s := negative x != negative y
  if isNaN x || isNaN y then cnan
  else if isInf x || isInf y then (if units x = 0 ∨ units y = 0 then cnan else infinity s)
  else roundUnits s (units x * units y) unitsPerOne

/-- `x / y` (R9, R10). -/
def div (x y : F64) : F64 :=
  let s := negative x != negative y
  if isNaN x || isNaN y then cnan
  else if isInf x then (if isInf y then cnan else infinity s)
  else if isInf y then zero s
  else if units y = 0 then (if units x = 0 then cnan else infinity s)
  else roundUnits s (units x * unitsPerOne) (units y)

/-- `x < y` (R11). -/
def lt (x y : F64) : Bool := !isNaN x && !isNaN y && decide (intUnits x < intUnits y)

/-- `x <= y` (R11). -/
def le (x y : F64) : Bool := !isNaN x && !isNaN y && decide (intUnits x ≤ intUnits y)

/-- `x > y` (R11). -/
def gt (x y : F64) : Bool := lt y x

/-- `x >= y` (R11). -/
def ge (x y : F64) : Bool := le y x

/-- `x == y` (R11). -/
def eq (x y : F64) : Bool := !isNaN x && !isNaN y && decide (intUnits x = intUnits y)

/-- `fceil(x)` (R12): a zero result keeps the sign of `x`. -/
def ceil (x : F64) : F64 :=
  if isNaN x then cnan
  else if isInf x then x
  else if negative x then roundUnits true (units x / unitsPerOne * unitsPerOne) 1
  else roundUnits false ((units x + unitsPerOne - 1) / unitsPerOne * unitsPerOne) 1

/-- `fabs(x)` (R12). -/
def abs (x : F64) : F64 := x &&& 0x7FFFFFFFFFFFFFFF#64

/-- `i2f(n)` (R12), for the naturals the spec converts. -/
def ofNat (n : Nat) : F64 := roundUnits false (n * unitsPerOne) 1

/-- `rne(x)` (R14), for a finite `x`. -/
def rne (x : F64) : Int :=
  let q := rneDiv (units x) unitsPerOne
  if negative x then -(q : Int) else (q : Int)

end Sys2Proof.F64
end

