-- ==== Sys2Proof/Machine/Operands.lean ====
section
/-! DEFINITION. Operands: how a command reads its registers (R70, R71), regions and their checks (R56), the sample
offset of a location (R94). -/

namespace Sys2Proof.Machine

/-- A region of BUF: base, length in bytes, alignment (R56). -/
structure Region where
  base : Nat
  nbytes : Nat
  align : Nat
  deriving DecidableEq, Repr

/-- The region of a sample buffer of `count` samples (R54). -/
def sampleRegion (base : Word) (count : Nat) : Region := ⟨base.toNat, 8 * count, 8⟩

/-- The region of a bit buffer of `nbits` bits (R55). -/
def bitRegion (base : Word) (nbits : Nat) : Region := ⟨base.toNat, ceil8 nbits, 1⟩

/-- The range check, then the alignment check, of one region; a region of 0 bytes passes both (R56). -/
def checkRegion (memBytes : Nat) (r : Region) : Option ErrorCode :=
  if r.nbytes = 0 then none
  else if memBytes < r.base + r.nbytes then some .addrRange
  else if r.base % r.align ≠ 0 then some .addrAlign
  else none

/-- Whether two regions share a byte (R56). -/
def regionsOverlap (r t : Region) : Bool :=
  decide (0 < t.nbytes) && decide (0 < r.nbytes) && decide (t.base < r.base + r.nbytes) &&
    decide (r.base < t.base + t.nbytes)

/-- The first error of a list of regions, each checked in turn (R56). -/
def checkEach (memBytes : Nat) : List Region → Option ErrorCode
  | [] => none
  | r :: rest =>
    match checkRegion memBytes r with
    | some e => some e
    | none => checkEach memBytes rest

/-- `CheckRegions(srcs, dst)` (R56): the first failing check, if there is one. -/
def checkRegions (memBytes : Nat) (srcs : List Region) (dst : Region) : Option ErrorCode :=
  match checkEach memBytes (srcs ++ [dst]) with
  | some e => some e
  | none => if srcs.any (fun r => regionsOverlap r dst) then some .overlap else none

/-- `Location(loc, rate)` (R94). -/
def location (loc : F64) (rate : Nat) : Except ErrorCode Nat :=
  let x := F64.mul loc (F64.ofNat rate)
  if !F64.finite x then .error .locationInvalid
  else if F64.rne x < 0 then .error .locationInvalid
  else .ok (F64.rne x).toNat

end Sys2Proof.Machine
end

