-- ==== Sys2Proof/Machine/Demodulate.lean ====
section
/-! DEFINITION. DEMOD, the FSK demodulator (R87 to R92). -/

namespace Sys2Proof.Machine

/-- The number of whole windows, `M div SS` (R88). -/
def demodWindows (s : State) : Nat := s.operands.lenA.toNat / s.params.ss.toNat

/-- DEMOD's destination: `ceil8(nwin)` bytes at DST (R87). -/
def demodDestination (s : State) : Region := bitRegion s.operands.dst (demodWindows s)

/-- DEMOD's checks that come before any window is examined, in the order of R87 and R105; the destination when
all pass. -/
def demodChecks (s : State) : Except ErrorCode Region :=
  if !s.pvalid then .error .noParams
  else
    match checkRegions s.memBytes [sampleRegion s.operands.srcA s.operands.lenA.toNat] (demodDestination s) with
    | some e => .error e
    | none => .ok (demodDestination s)

/-- Window w: samples `w*SS .. w*SS + SS - 1` (R88). -/
def demodWindow (s : State) (w : Nat) : List F64 :=
  (List.range s.params.ss.toNat).map
    (fun k => Memory.sample s.buf (s.operands.srcA.toNat + 8 * (w * s.params.ss.toNat + k)))

/-- Entry k of a table (R39). -/
def entry (t : List F64) (k : Nat) : F64 := t.getD k posZero

/-- Term k of the trapezoid sum: `((TAXIS[k+1] - TAXIS[k]) * (p[k+1] + p[k])) / 2.0` (R89). -/
def trapezoid (taxis p : List F64) (k : Nat) : F64 :=
  F64.div
    (F64.mul (F64.sub (entry taxis (k + 1)) (entry taxis k)) (F64.add (entry p (k + 1)) (entry p k))) two

/-- `Trapz(y, c)` over a window of `n` samples: the products, then the terms summed from k = 0 up (R89). -/
def trapz (taxis : List F64) (n : Nat) (y c : List F64) : F64 :=
  let p := (List.range n).map (fun k => F64.mul (entry y k) (entry c k))
  (List.range (n - 2)).foldl (fun acc i => F64.add acc (trapezoid taxis p (i + 1))) (trapezoid taxis p 0)

/-- `fabs(fceil((2.0 * Z) / BP))` (R90). -/
def normalised (z bp : F64) : F64 := F64.abs (F64.ceil (F64.div (F64.mul two z) bp))

/-- The decision on one window (R91): bit 1, bit 0, or none when the window is ambiguous. -/
def decideWindow (s : State) (y : List F64) : Option Bool :=
  let n := s.params.ss.toNat
  let h := F64.div s.params.amp two
  if F64.gt (normalised (trapz s.tables.taxis n y s.tables.cref1) s.params.bp) h then some true
  else if F64.gt (normalised (trapz s.tables.taxis n y s.tables.cref0) s.params.bp) h then some false
  else none

/-- The decisions on all windows, in order; each window is decided alone (R88). -/
def demodDecisions (s : State) : List (Option Bool) :=
  (List.range (demodWindows s)).map (fun w => decideWindow s (demodWindow s w))

/-- What a window puts into the output: its bit, or for an ambiguous window what AMBPOL says (R92). -/
def windowBits (ambpol : BitVec 2) (d : Option Bool) : List Bool :=
  match d with
  | some b => [b]
  | none => if ambpol = 1#2 then [false] else if ambpol = 2#2 then [true] else []

/-- The output bits (R87, R92). -/
def demodBits (ambpol : BitVec 2) (ds : List (Option Bool)) : List Bool := ds.flatMap (windowBits ambpol)

/-- The number of ambiguous windows (R92). -/
def ambiguousCount (ds : List (Option Bool)) : Nat := ds.countP (fun d => d == none)

/-- The index of the first ambiguous window, if there is one (R92). -/
def firstAmbiguous (ds : List (Option Bool)) : Option Nat := ds.findIdx? (fun d => d == none)

/-- What FIRST_AMB holds for the first ambiguous window (R44). -/
def firstAmbWord (first : Option Nat) : Word :=
  match first with
  | some w => BitVec.ofNat 32 w
  | none => noWindow

/-- WARN.AMBIG when some window is ambiguous (R30, R87). -/
def ambiguityWarning (first : Option Nat) : BitVec 5 := if first.isSome then warnAmbig else 0#5

/-- DEMOD once the checks have passed and the windows are decided (R87, R92, R102). -/
def finishDemod (dst : Region) (ds : List (Option Bool)) (s : State) : Result :=
  let first := firstAmbiguous ds
  let warned := { s with warn := s.warn ||| ambiguityWarning first }
  if s.ambpol = 3#2 ∧ first.isSome then
    raise .alignmentLoss { warned with results := { s.results with firstAmb := firstAmbWord first } }
  else
    let bits := demodBits s.ambpol ds
    succeed
      { warned with
        buf := Memory.write s.buf dst.base (packBits bits)
        results :=
          { s.results with
            outLen := BitVec.ofNat 32 bits.length
            nwin := BitVec.ofNat 32 ds.length
            ambCount := BitVec.ofNat 32 (ambiguousCount ds)
            firstAmb := firstAmbWord first } }

/-- `DEMOD` (R87). -/
def execDemod (s : State) : Result :=
  match demodChecks s with
  | .error e => raise e s
  | .ok dst => finishDemod dst (demodDecisions s) s

end Sys2Proof.Machine
end

