-- ==== Sys2Proof/Machine/CosineEnclosure.lean ====
section
/-! DEFINITION. Integer enclosures of the cosine, for the correctly rounded cosine of R13. The argument is halved until
it is below 2^-8, the alternating series gives integers that enclose the cosine of the halved argument scaled by
2^p, and `cos 2t = 2 (cos t)^2 - 1` carries the enclosure back. Both ends of the last enclosure round to the same
pattern exactly when the precision settles the result. Log 9. -/

namespace Sys2Proof.F64

open Sys2Proof.Machine

/-- Integers on both sides of a real number scaled by 2^p. -/
structure Enclosure where
  lo : Int
  hi : Int
  deriving DecidableEq, Repr

/-- An enclosure, scaled by 2^p, of the tail of the cosine's series from term j on, taken with term j positive:
`t^(2j)/(2j)! - t^(2j+2)/(2j+2)! + …`. `lo` and `hi` enclose term j, `ylo` and `yhi` enclose `t^2`, and `n` terms
are summed before the rest is bounded by its first term. -/
def cosTail (p ylo yhi : Nat) : Nat → Nat → Nat → Nat → Enclosure
  | 0, _, _, hi => ⟨0, hi⟩
  | n + 1, j, lo, hi =>
    let c := (2 * j + 1) * (2 * j + 2) * 2 ^ p
    match cosTail p ylo yhi n (j + 1) (lo * ylo / c) (hi * yhi / c + 1) with
    | ⟨a, b⟩ => ⟨lo - b, hi - a⟩

/-- From an enclosure of `cos t` to one of `cos 2t`, both scaled by 2^p. -/
def cosDouble (p : Nat) (e : Enclosure) : Enclosure :=
  let low := if 0 ≤ e.lo then e.lo.natAbs else if e.hi ≤ 0 then e.hi.natAbs else 0
  let high := max e.lo.natAbs e.hi.natAbs
  ⟨(2 * (low * low) / 2 ^ p : Nat) - (2 ^ p : Nat), (2 * (high * high) / 2 ^ p + 1 : Nat) - (2 ^ p : Nat)⟩

/-- `cosDouble` n times. -/
def cosDoubles (p : Nat) : Nat → Enclosure → Enclosure
  | 0, e => e
  | n + 1, e => cosDoubles p n (cosDouble p e)

/-- How often an argument of `u` units of 2^-1074 is halved: the least number that brings it below 2^-8. -/
def cosHalvings (u : Nat) : Nat := u.log2 + 9 - 1074

/-- The scale of the enclosure for working precision `prec`: each doubling may lose two bits. -/
def cosScale (prec u : Nat) : Nat := prec + 2 * cosHalvings u

/-- An enclosure of the cosine of `u` units of 2^-1074, scaled by `2 ^ cosScale prec u`. -/
def cosEnclosure (prec u : Nat) : Enclosure :=
  let h := cosHalvings u
  let p := cosScale prec u
  let y := u * u * 2 ^ p / 2 ^ (2 * (1074 + h))
  cosDoubles p h (cosTail p y (y + 1) (p / 16 + 2) 0 (2 ^ p) (2 ^ p))

/-- The binary64 value nearest to `z / 2^p`. -/
def ofScaled (p : Nat) (z : Int) : F64 := roundUnits (decide (z < 0)) (z.natAbs * unitsPerOne) (2 ^ p)

/-- The rounded cosine, where working precision `prec` settles it: the enclosure lies on one side of zero and both
its ends round to one pattern. -/
def cosSettled (prec u : Nat) : Option F64 :=
  match cosEnclosure prec u with
  | ⟨lo, hi⟩ =>
    let p := cosScale prec u
    if (0 < lo ∨ hi < 0) ∧ ofScaled p lo = ofScaled p hi then some (ofScaled p lo) else none

/-- The first working precision, in bits. -/
def cosFirstPrecision : Nat := 192

end Sys2Proof.F64
end

