-- ==== Sys2Proof/Machine/CosineSettles.lean ====
section
/-! DEFINITION. Why the search of `F64.cos` for a working precision ends: every argument other than 0 has a precision that
settles it (`cosSettles`). Log 9. -/

namespace Sys2Proof.F64

open Sys2Proof.Machine

open Polynomial in
/-- `t cos n` is no nonzero integer, for whole numbers n and t other than 0: Hermite's approximations to the
exponentials of `n i` and `-n i` would give a nonzero integer below 1. -/
theorem cos_int_ne_rat (n : ℕ) (hn : n ≠ 0) (s : ℤ) (t : ℕ) (ht : t ≠ 0) (hs : s ≠ 0) :
    (t : ℝ) * Real.cos n ≠ s := by
  intro hcos
  let f : ℤ[X] := X ^ 2 + C ((n : ℤ) ^ 2)
  have f0 : f.eval 0 = (n : ℤ) ^ 2 := by simp [f]
  obtain ⟨c, hc⟩ := LindemannWeierstrass.exp_polynomial_approx f (by rw [f0]; positivity)
  have hne : f ≠ 0 := fun h => by rw [h] at f0; simp at f0; exact hn (by simpa using f0.symm)
  have root : ∀ z : ℂ, z ^ 2 = -(n : ℂ) ^ 2 → z ∈ f.aroots ℂ := by
    intro z hz
    rw [mem_aroots]
    refine ⟨hne, ?_⟩
    simp [f, hz]
  have conj : ∀ g : ℤ[X], ∃ m : ℤ, aeval (n * Complex.I : ℂ) g + aeval (-(n * Complex.I) : ℂ) g = m := by
    intro g
    induction g using Polynomial.induction_on' with
    | add p q hp hq =>
      obtain ⟨a, ha⟩ := hp
      obtain ⟨b, hb⟩ := hq
      exact ⟨a + b, by push_cast; rw [← ha, ← hb]; simp only [map_add]; ring⟩
    | monomial k a =>
      simp only [aeval_monomial]
      have hI : ((n : ℂ) * Complex.I) ^ 2 = -(n : ℂ) ^ 2 := by rw [mul_pow, Complex.I_sq]; ring
      rcases Nat.even_or_odd' k with ⟨j, rfl | rfl⟩
      · refine ⟨2 * a * (-(n : ℤ) ^ 2) ^ j, ?_⟩
        rw [neg_pow, pow_mul, pow_mul, hI]
        push_cast
        simp
        ring
      · refine ⟨0, ?_⟩
        rw [neg_pow, pow_succ (-1 : ℂ), pow_mul (-1 : ℂ)]
        simp
  -- the limit
  have lim : Filter.Tendsto (fun p : ℕ => 2 * t * |c| * (|c| ^ p / p.factorial)) Filter.atTop (nhds 0) := by
    simpa using (FloorSemiring.tendsto_pow_div_factorial_atTop |c|).const_mul (2 * t * |c|)
  obtain ⟨P, hP⟩ := Filter.eventually_atTop.mp (lim.eventually (gt_mem_nhds one_pos))
  obtain ⟨p, hpP, hp⟩ := Nat.exists_infinite_primes (P + 1 + (f.eval 0).natAbs + 1 + 2 * s.natAbs + 1)
  obtain ⟨m, hm, g, -, hg⟩ := hc p (by omega) hp
  obtain ⟨q, hq⟩ := conj g
  have h1 := hg (root (n * Complex.I) (by rw [mul_pow, Complex.I_sq]; ring))
  have h2 := hg (root (-(n * Complex.I)) (by rw [neg_sq, mul_pow, Complex.I_sq]; ring))
  have key : ‖((2 * m * s - p * (t * q) : ℤ) : ℂ)‖ ≤ t * (2 * (c ^ p / (p - 1).factorial)) := by
    have e : ((2 * m * s - p * (t * q) : ℤ) : ℂ) =
        t * ((m • Complex.exp (n * Complex.I) - p • aeval (n * Complex.I : ℂ) g) +
          (m • Complex.exp (-(n * Complex.I)) - p • aeval (-(n * Complex.I) : ℂ) g)) := by
      have hs' : (s : ℂ) = t * Complex.cos n := by
        rw [← Complex.ofReal_natCast n, ← Complex.ofReal_cos]
        exact_mod_cast hcos.symm
      rw [Complex.cos] at hs'
      push_cast
      rw [← hq, hs']
      simp only [zsmul_eq_mul, nsmul_eq_mul]
      rw [neg_mul]
      ring
    rw [e, norm_mul]
    have := (norm_add_le _ _).trans (add_le_add h1 h2)
    simp only [Complex.norm_natCast]
    gcongr
    linarith
  have small : (t : ℝ) * (2 * (c ^ p / (p - 1).factorial)) < 1 := by
    have h := hP (p - 1) (by omega)
    obtain ⟨k, rfl⟩ : ∃ k, p = k + 1 := ⟨p - 1, by omega⟩
    simp only [Nat.add_sub_cancel] at h ⊢
    refine lt_of_le_of_lt ?_ h
    have : c ^ (k + 1) ≤ |c| ^ (k + 1) := by rw [← abs_pow]; exact le_abs_self _
    calc (t : ℝ) * (2 * (c ^ (k + 1) / k.factorial)) ≤ t * (2 * (|c| ^ (k + 1) / k.factorial)) := by gcongr
      _ = 2 * t * |c| * (|c| ^ k / k.factorial) := by ring
  have zero : 2 * m * s - p * (t * q) = 0 := by
    have : ‖((2 * m * s - p * (t * q) : ℤ) : ℂ)‖ < 1 := key.trans_lt small
    rw [Complex.norm_intCast] at this
    have : |2 * m * s - p * (t * q)| < 1 := by exact_mod_cast this
    exact Int.abs_lt_one_iff.mp this
  have dvd : (p : ℤ) ∣ 2 * m * s := ⟨t * q, by linarith⟩
  have hp' := Nat.prime_iff_prime_int.mp hp
  rcases hp'.dvd_or_dvd dvd with h | h
  · rcases hp'.dvd_or_dvd h with h | h
    · have := Int.le_of_dvd (by norm_num) h; omega
    · exact hm h
  · have := Int.natAbs_dvd_natAbs.mpr h
    have := Nat.le_of_dvd (by omega) this
    simp at this; omega

/-- The cosine of a nonzero whole number is irrational. -/
theorem cos_nat_ne_rat (n : ℕ) (hn : n ≠ 0) (q : ℚ) : Real.cos n ≠ q := by
  intro h
  have step : ∀ (k : ℕ) (r : ℚ), k ≠ 0 → r ≠ 0 → Real.cos k ≠ r := by
    intro k r hk hr e
    refine cos_int_ne_rat k hk r.num r.den r.den_ne_zero (by simpa using hr) ?_
    rw [e]
    exact_mod_cast r.den_mul_eq_num
  by_cases hq : q = 0
  · subst hq
    refine step (2 * n) (-1) (by omega) (by norm_num) ?_
    push_cast
    rw [Real.cos_two_mul, h]
    norm_num
  · exact step n q hn hq h

/-- The cosine of a nonzero dyadic number is irrational: its doublings reach a whole number. -/
theorem cos_dyadic_ne_rat (u k : ℕ) (hu : u ≠ 0) (q : ℚ) : Real.cos ((u : ℝ) / 2 ^ k) ≠ q := by
  induction k generalizing q with
  | zero => simpa using cos_nat_ne_rat u hu q
  | succ k ih =>
    intro h
    refine ih (2 * q ^ 2 - 1) ?_
    have e : (u : ℝ) / 2 ^ k = 2 * (u / 2 ^ (k + 1)) := by rw [pow_succ]; field_simp
    rw [e, Real.cos_two_mul, h]
    push_cast
    ring

/-- Both ends of an enclosure are within `e` of `x`. -/
def Near (e : ℝ) (n : Enclosure) (x : ℝ) : Prop := |(n.lo : ℝ) - x| ≤ e ∧ |(n.hi : ℝ) - x| ≤ e

/-- A quotient of natural numbers is the real quotient, up to 1. -/
theorem natDiv_near (a c : ℕ) : (a : ℝ) / c - 1 ≤ ((a / c : ℕ) : ℝ) ∧ ((a / c : ℕ) : ℝ) ≤ (a : ℝ) / c := by
  refine ⟨?_, Nat.cast_div_le⟩
  have := Nat.lt_floor_add_one ((a : ℝ) / c)
  rw [Nat.floor_div_eq_div] at this
  linarith

/-- The squares of two near numbers are near. -/
theorem abs_mul_self_sub {x y m e : ℝ} (hy : |y| ≤ m) (h : |x - y| ≤ e) : |x * x - y * y| ≤ e * (2 * m + e) := by
  have e1 : x * x - y * y = (x - y) * (2 * y + (x - y)) := by ring
  rw [e1, abs_mul]
  have h2 : |2 * y + (x - y)| ≤ 2 * m + e := by
    refine (abs_add_le _ _).trans ?_
    rw [abs_mul, abs_two]
    linarith
  exact mul_le_mul h h2 (abs_nonneg _) ((abs_nonneg _).trans h)

/-- One doubling makes the distance at most six times as large, and 2 more. -/
theorem cosDouble_near {p : ℕ} {n : Enclosure} {t e : ℝ} (h : Near e n (2 ^ p * Real.cos t)) (he : e ≤ 2 ^ p) :
    Near (6 * e + 2) (cosDouble p n) (2 ^ p * Real.cos (2 * t)) := by
  obtain ⟨hlo, hhi⟩ := h
  set x : ℝ := 2 ^ p * Real.cos t with hx
  have hP : (0 : ℝ) < 2 ^ p := by positivity
  have hxm : |x| ≤ 2 ^ p := by
    rw [hx, abs_mul, abs_of_pos hP]
    exact mul_le_of_le_one_right hP.le (Real.abs_cos_le_one t)
  have he0 : 0 ≤ e := (abs_nonneg _).trans hlo
  have hcos : (2 : ℝ) ^ p * Real.cos (2 * t) = 2 * (x * x) / 2 ^ p - 2 ^ p := by
    rw [Real.cos_two_mul, hx]; field_simp
  -- squares of close numbers
  have sq : ∀ k : ℕ, |(k : ℝ) - (|x|)| ≤ e → |2 * ((k : ℝ) * k) / 2 ^ p - 2 * (x * x) / 2 ^ p| ≤ 6 * e := by
    intro k hk
    have h1 := abs_mul_self_sub (y := |x|) (m := 2 ^ p) (by rwa [abs_abs]) hk
    rw [abs_mul_abs_self] at h1
    have e2 : 2 * ((k : ℝ) * k) / 2 ^ p - 2 * (x * x) / 2 ^ p = 2 / 2 ^ p * ((k : ℝ) * k - x * x) := by ring
    rw [e2, abs_mul, abs_of_pos (by positivity)]
    calc 2 / 2 ^ p * |(k : ℝ) * k - x * x| ≤ 2 / 2 ^ p * (e * (2 * 2 ^ p + 2 ^ p)) := by
          gcongr; exact h1.trans (by gcongr)
      _ = 6 * e := by field_simp; ring
  have end_near : ∀ z : ℤ, |(z : ℝ) - x| ≤ e → |((z.natAbs : ℕ) : ℝ) - (|x|)| ≤ e := by
    intro z hz
    rw [Nat.cast_natAbs, Int.cast_abs]
    exact (abs_abs_sub_abs_le_abs_sub _ _).trans hz
  have low_near : |(((if 0 ≤ n.lo then n.lo.natAbs else if n.hi ≤ 0 then n.hi.natAbs else 0 : ℕ)) : ℝ) - (|x|)| ≤ e := by
    split
    · exact end_near _ hlo
    · split
      · exact end_near _ hhi
      · next h1 h2 =>
        have h1 : (n.lo : ℝ) ≤ 0 := by exact_mod_cast (not_le.mp h1).le
        have h2 : (0 : ℝ) ≤ n.hi := by exact_mod_cast (not_le.mp h2).le
        rw [abs_le] at hlo hhi
        rw [Nat.cast_zero, zero_sub, abs_neg, abs_abs, abs_le]
        constructor <;> linarith
  have high_near : |((max n.lo.natAbs n.hi.natAbs : ℕ) : ℝ) - (|x|)| ≤ e := by
    rcases max_choice n.lo.natAbs n.hi.natAbs with h | h <;> rw [h]
    · exact end_near _ hlo
    · exact end_near _ hhi
  have fin : ∀ k : ℕ, |(k : ℝ) - (|x|)| ≤ e → ∀ d : ℕ, d ≤ 1 →
      |((2 * (k * k) / 2 ^ p + d : ℕ) : ℝ) - ((2 ^ p : ℕ) : ℝ) - 2 ^ p * Real.cos (2 * t)| ≤ 6 * e + 2 := by
    intro k hk d hd
    have h1 := sq k hk
    have h2 := natDiv_near (2 * (k * k)) (2 ^ p)
    have hd' : (d : ℝ) ≤ 1 := by exact_mod_cast hd
    have hd0 : (0 : ℝ) ≤ d := Nat.cast_nonneg d
    rw [hcos, Nat.cast_add]
    generalize ((2 * (k * k) / 2 ^ p : ℕ) : ℝ) = q at h2 ⊢
    push_cast at h2 ⊢
    rw [abs_le] at h1 ⊢
    constructor <;> linarith
  constructor
  · have h := fin _ low_near 0 (Nat.zero_le 1)
    rw [Nat.add_zero] at h
    rw [cosDouble, Int.cast_sub, Int.cast_natCast, Int.cast_natCast]
    exact h
  · have h := fin _ high_near 1 le_rfl
    rw [cosDouble, Int.cast_sub, Int.cast_natCast, Int.cast_natCast]
    exact h

/-- `n` doublings. -/
theorem cosDoubles_near {p : ℕ} (n : ℕ) : ∀ {m : Enclosure} {t e : ℝ}, Near e m (2 ^ p * Real.cos t) →
    8 ^ n * (e + 1) ≤ 2 ^ p → Near (8 ^ n * (e + 1)) (cosDoubles p n m) (2 ^ p * Real.cos (2 ^ n * t)) := by
  induction n with
  | zero =>
    intro m t e h _
    simp only [pow_zero, one_mul, cosDoubles]
    exact ⟨h.1.trans (by linarith), h.2.trans (by linarith)⟩
  | succ n ih =>
    intro m t e h hb
    have he0 : 0 ≤ e := (abs_nonneg _).trans h.1
    have h8 : (1 : ℝ) ≤ 8 ^ n := one_le_pow₀ (by norm_num)
    have hstep : 8 ^ n * ((6 * e + 2) + 1) ≤ (8 : ℝ) ^ (n + 1) * (e + 1) := by
      rw [pow_succ]; nlinarith
    have := ih (cosDouble_near h (by rw [pow_succ] at hb; nlinarith)) (hstep.trans hb)
    rw [cosDoubles, pow_succ 2 n, mul_assoc _ 2 t]
    exact ⟨this.1.trans hstep, this.2.trans hstep⟩

/-- Term `j` of the cosine's series, without its sign. -/
noncomputable def cosTerm (y : ℝ) (j : ℕ) : ℝ := y ^ j / (2 * j).factorial

/-- The tail of the series from term `j` on, term `j` taken positive. -/
noncomputable def cosRest (y : ℝ) (j : ℕ) : ℝ := ∑' i, (-1) ^ i * cosTerm y (j + i)

theorem cosTerm_succ (y : ℝ) (j : ℕ) : cosTerm y (j + 1) = cosTerm y j * y / ((2 * j + 1) * (2 * j + 2)) := by
  unfold cosTerm
  rw [show 2 * (j + 1) = 2 * j + 1 + 1 by ring, Nat.factorial_succ, Nat.factorial_succ, pow_succ]
  push_cast
  field_simp
  ring

theorem cosTerm_nonneg {y : ℝ} (hy : 0 ≤ y) (j : ℕ) : 0 ≤ cosTerm y j := by unfold cosTerm; positivity

theorem cosTerm_le {y : ℝ} (h0 : 0 ≤ y) (hy : y ≤ 1 / 65536) (j : ℕ) : cosTerm y j ≤ (1 / 65536) ^ j := by
  unfold cosTerm
  calc y ^ j / (2 * j).factorial ≤ y ^ j / 1 := by
        gcongr; exact_mod_cast Nat.one_le_iff_ne_zero.mpr (Nat.factorial_ne_zero _)
    _ ≤ (1 / 65536) ^ j := by rw [div_one]; gcongr

theorem cosRest_summable {y : ℝ} (h0 : 0 ≤ y) (hy : y ≤ 1 / 65536) (j : ℕ) :
    Summable fun i : ℕ => (-1 : ℝ) ^ i * cosTerm y (j + i) := by
  refine Summable.of_norm_bounded (g := fun i : ℕ => (1 / 65536 : ℝ) ^ i) (summable_geometric_of_lt_one (by norm_num) (by norm_num)) ?_
  intro i
  rw [norm_mul, norm_pow, norm_neg, norm_one, one_pow, one_mul, Real.norm_of_nonneg (cosTerm_nonneg h0 _)]
  refine (cosTerm_le h0 hy _).trans ?_
  rw [pow_add]
  exact mul_le_of_le_one_left (by positivity) (pow_le_one₀ (by norm_num) (by norm_num))

/-- A tail is its first term minus the next tail. -/
theorem cosRest_eq {y : ℝ} (h0 : 0 ≤ y) (hy : y ≤ 1 / 65536) (j : ℕ) :
    cosRest y j = cosTerm y j - cosRest y (j + 1) := by
  unfold cosRest
  rw [(cosRest_summable h0 hy j).tsum_eq_zero_add, pow_zero, one_mul, Nat.add_zero, sub_eq_add_neg, ← tsum_neg]
  congr 2
  funext i
  rw [pow_succ, show j + (i + 1) = j + 1 + i by ring]
  ring

theorem cosRest_abs_le {y : ℝ} (h0 : 0 ≤ y) (hy : y ≤ 1 / 65536) (j : ℕ) : |cosRest y j| ≤ 2 * (1 / 65536) ^ j := by
  have hg : HasSum (fun i : ℕ => (1 / 65536 : ℝ) ^ j * (1 / 2) ^ i) ((1 / 65536) ^ j * 2) :=
    (hasSum_geometric_two).mul_left _
  have := tsum_of_norm_bounded (f := fun i : ℕ => (-1 : ℝ) ^ i * cosTerm y (j + i)) hg (by
    intro i
    rw [norm_mul, norm_pow, norm_neg, norm_one, one_pow, one_mul, Real.norm_of_nonneg (cosTerm_nonneg h0 _)]
    refine (cosTerm_le h0 hy _).trans ?_
    rw [pow_add]
    gcongr
    norm_num)
  rw [Real.norm_eq_abs] at this
  unfold cosRest
  linarith

/-- The whole series is the cosine. -/
theorem cosRest_zero (t : ℝ) : cosRest (t ^ 2) 0 = Real.cos t := by
  unfold cosRest cosTerm
  rw [Real.cos_eq_tsum]
  congr 1
  funext i
  rw [Nat.zero_add, ← pow_mul]
  ring

/-- Both ends of a tail's enclosure are near the tail. -/
theorem cosTail_near {p ylo yhi : ℕ} {y : ℝ} (h0 : 0 ≤ y) (hy : y ≤ 1 / 65536)
    (hlo : |(ylo : ℝ) - 2 ^ p * y| ≤ 1) (hhi : |(yhi : ℝ) - 2 ^ p * y| ≤ 1) (hp : 8 ≤ p) (n : ℕ) :
    ∀ j lo hi : ℕ, |(lo : ℝ) - 2 ^ p * cosTerm y j| ≤ 4 → |(hi : ℝ) - 2 ^ p * cosTerm y j| ≤ 4 →
      Near (4 * (n + 1) + 2 ^ p * (4 * (1 / 65536) ^ (j + n))) (cosTail p ylo yhi n j lo hi) (2 ^ p * cosRest y j) := by
  have hP : (256 : ℝ) ≤ 2 ^ p := by
    calc (256 : ℝ) = 2 ^ 8 := by norm_num
      _ ≤ 2 ^ p := pow_le_pow_right₀ (by norm_num) hp
  -- one more term
  have next : ∀ (j a w : ℕ), |(a : ℝ) - 2 ^ p * cosTerm y j| ≤ 4 → |(w : ℝ) - 2 ^ p * y| ≤ 1 →
      |((a : ℝ) * w) / ((2 * j + 1) * (2 * j + 2) * 2 ^ p) - 2 ^ p * cosTerm y (j + 1)| ≤ 3 := by
    intro j a w ha hw
    have hT := cosTerm_nonneg h0 j
    have hT1 : cosTerm y j ≤ 1 := (cosTerm_le h0 hy j).trans (pow_le_one₀ (by norm_num) (by norm_num))
    have hj : (2 : ℝ) ≤ (2 * j + 1) * (2 * j + 2) := by
      have : (0 : ℝ) ≤ j := Nat.cast_nonneg j
      nlinarith
    have e : ((a : ℝ) * w) / ((2 * j + 1) * (2 * j + 2) * 2 ^ p) - 2 ^ p * cosTerm y (j + 1) =
        ((a - 2 ^ p * cosTerm y j) * w + 2 ^ p * cosTerm y j * (w - 2 ^ p * y)) /
          ((2 * j + 1) * (2 * j + 2) * 2 ^ p) := by
      rw [cosTerm_succ]; field_simp; ring
    have hw' : (w : ℝ) ≤ 2 ^ p := by
      rw [abs_le] at hw
      nlinarith
    rw [e, abs_div, abs_of_pos (a := (2 * (j : ℝ) + 1) * (2 * j + 2) * 2 ^ p) (by positivity), div_le_iff₀ (by positivity)]
    refine (abs_add_le _ _).trans ?_
    rw [abs_mul, abs_mul, Nat.abs_cast, abs_of_nonneg (a := 2 ^ p * cosTerm y j) (by positivity)]
    have h1 : |(a : ℝ) - 2 ^ p * cosTerm y j| * w ≤ 4 * 2 ^ p := by gcongr
    have h2 : 2 ^ p * cosTerm y j * |(w : ℝ) - 2 ^ p * y| ≤ 2 ^ p * 1 * 1 := by gcongr
    nlinarith
  induction n with
  | zero =>
    intro j lo hi _ h2
    have hr := cosRest_abs_le h0 hy j
    have ht := cosTerm_le h0 hy j
    have ht0 := cosTerm_nonneg h0 j
    have hb : (0 : ℝ) ≤ (1 / 65536) ^ j := by positivity
    have hr' : |2 ^ p * cosRest y j| ≤ 2 ^ p * (2 * (1 / 65536) ^ j) := by
      rw [abs_mul, abs_of_pos (by positivity)]; gcongr
    have ht' : 2 ^ p * cosTerm y j ≤ 2 ^ p * (1 / 65536) ^ j := by gcongr
    rw [abs_le] at h2 hr'
    have hb' : (0 : ℝ) ≤ 2 ^ p * (1 / 65536) ^ j := by positivity
    have ht'' : (0 : ℝ) ≤ 2 ^ p * cosTerm y j := by positivity
    constructor
    · simp only [cosTail, Nat.add_zero, Int.cast_zero, zero_sub, abs_neg, Nat.cast_zero]
      rw [abs_le]; constructor <;> linarith
    · simp only [cosTail, Nat.add_zero, Int.cast_natCast, Nat.cast_zero]
      rw [abs_le]; constructor <;> linarith
  | succ n ih =>
    intro j lo hi h1 h2
    set c := (2 * j + 1) * (2 * j + 2) * 2 ^ p with hc
    have k1 := next j lo ylo h1 hlo
    have k2 := next j hi yhi h2 hhi
    have d1 := natDiv_near (lo * ylo) c
    have d2 := natDiv_near (hi * yhi) c
    have cast : (c : ℝ) = (2 * j + 1) * (2 * j + 2) * 2 ^ p := by rw [hc]; push_cast; ring
    rw [Nat.cast_mul, cast] at d1 d2
    rw [abs_le] at k1 k2
    have r := ih (j + 1) (lo * ylo / c) (hi * yhi / c + 1)
      (by rw [abs_le]; constructor <;> linarith) (by push_cast; rw [abs_le]; constructor <;> linarith)
    obtain ⟨r1, r2⟩ := r
    rw [show j + 1 + n = j + (n + 1) by ring] at r1 r2
    rw [cosRest_eq h0 hy j, mul_sub]
    rw [abs_le] at h1 h2 r1 r2
    simp only [cosTail, ← hc]
    constructor
    · push_cast
      rw [abs_le]; constructor <;> linarith
    · push_cast
      rw [abs_le]; constructor <;> linarith

/-- The enclosure before the doublings is near the cosine of the halved argument. -/
theorem cosTail_start_near {p u w : ℕ} (hw : u.log2 + 9 ≤ w) (hp : 8 ≤ p) :
    Near ((p : ℝ) + 16)
      (cosTail p (u * u * 2 ^ p / 2 ^ (2 * w)) (u * u * 2 ^ p / 2 ^ (2 * w) + 1) (p / 16 + 2) 0 (2 ^ p) (2 ^ p))
      (2 ^ p * Real.cos ((u : ℝ) / 2 ^ w)) := by
  set t : ℝ := (u : ℝ) / 2 ^ w with ht
  have ht0 : 0 ≤ t := by positivity
  have ht1 : t ≤ 1 / 256 := by
    have hu : (u : ℝ) ≤ 2 ^ (u.log2 + 1) := by exact_mod_cast (Nat.lt_log2_self (n := u)).le
    have hu' : (u : ℝ) * 256 ≤ 2 ^ w := by
      calc (u : ℝ) * 256 ≤ 2 ^ (u.log2 + 1) * 2 ^ 8 := by norm_num at hu ⊢; linarith
        _ = 2 ^ (u.log2 + 9) := by rw [← pow_add]
        _ ≤ 2 ^ w := pow_le_pow_right₀ (by norm_num) hw
    rw [ht, div_le_div_iff₀ (by positivity) (by norm_num)]
    linarith
  have hy0 : 0 ≤ t ^ 2 := by positivity
  have hy1 : t ^ 2 ≤ 1 / 65536 := by nlinarith
  obtain ⟨f1, f2⟩ : 2 ^ p * t ^ 2 - 1 ≤ ((u * u * 2 ^ p / 2 ^ (2 * w) : ℕ) : ℝ) ∧
      ((u * u * 2 ^ p / 2 ^ (2 * w) : ℕ) : ℝ) ≤ 2 ^ p * t ^ 2 := by
    have k := natDiv_near (u * u * 2 ^ p) (2 ^ (2 * w))
    have e : ((u * u * 2 ^ p : ℕ) : ℝ) / ((2 ^ (2 * w) : ℕ) : ℝ) = 2 ^ p * t ^ 2 := by
      rw [ht, div_pow, ← pow_mul, mul_comm w 2]
      push_cast
      ring
    rwa [e] at k
  have start : |((2 ^ p : ℕ) : ℝ) - 2 ^ p * cosTerm (t ^ 2) 0| ≤ 4 := by
    rw [cosTerm, pow_zero, Nat.mul_zero, Nat.factorial_zero]; norm_num
  have tail := cosTail_near (p := p) (ylo := u * u * 2 ^ p / 2 ^ (2 * w))
    (yhi := u * u * 2 ^ p / 2 ^ (2 * w) + 1) hy0 hy1
    (by rw [abs_le]; constructor <;> linarith)
    (by rw [Nat.cast_add, Nat.cast_one, abs_le]; constructor <;> linarith) hp (p / 16 + 2) 0 (2 ^ p) (2 ^ p)
    start start
  rw [cosRest_zero] at tail
  have hE : 4 * (((p / 16 + 2 : ℕ) : ℝ) + 1) + 2 ^ p * (4 * (1 / 65536) ^ (0 + (p / 16 + 2))) ≤ (p : ℝ) + 16 := by
    have n1 : ((p / 16 : ℕ) : ℝ) ≤ (p : ℝ) / ((16 : ℕ) : ℝ) := Nat.cast_div_le
    have n2 : (2 : ℝ) ^ p * (1 / 65536) ^ (0 + (p / 16 + 2)) ≤ 1 := by
      rw [one_div, inv_pow, ← div_eq_mul_inv, div_le_one (by positivity)]
      calc (2 : ℝ) ^ p ≤ 2 ^ (16 * (0 + (p / 16 + 2))) := pow_le_pow_right₀ (by norm_num) (by omega)
        _ = 65536 ^ (0 + (p / 16 + 2)) := by rw [pow_mul]; norm_num
    have p0 : (0 : ℝ) ≤ p := Nat.cast_nonneg p
    push_cast at n1 ⊢
    linarith
  exact ⟨tail.1.trans hE, tail.2.trans hE⟩

/-- How near the enclosure of a working precision is to the cosine. -/
theorem cosEnclosure_near (prec u : ℕ) (hp : 8 ≤ prec)
    (hb : 8 ^ cosHalvings u * ((cosScale prec u : ℝ) + 17) ≤ 2 ^ cosScale prec u) :
    Near (8 ^ cosHalvings u * ((cosScale prec u : ℝ) + 17)) (cosEnclosure prec u)
      (2 ^ cosScale prec u * Real.cos ((u : ℝ) / 2 ^ 1074)) := by
  have start := cosTail_start_near (p := cosScale prec u) (u := u) (w := 1074 + cosHalvings u)
    (by unfold cosHalvings; omega) (by unfold cosScale; omega)
  have e : (cosScale prec u : ℝ) + 16 + 1 = cosScale prec u + 17 := by ring
  have et : (2 : ℝ) ^ cosHalvings u * ((u : ℝ) / 2 ^ (1074 + cosHalvings u)) = (u : ℝ) / 2 ^ 1074 := by
    rw [pow_add]; field_simp
  have r := cosDoubles_near (cosHalvings u) start (by rw [e]; exact hb)
  rwa [e, et] at r

/-- A quotient that is no multiple of a half rounds as its number of halves says. -/
theorem rneDiv_of_not_half {n d k : ℕ} (hd : 0 < d) (h : 2 * n % d ≠ 0) :
    rneDiv n (d * 2 ^ k) = (2 * n / d / 2 ^ k + 1) / 2 := by
  set e := d * 2 ^ k with he
  have he0 : 0 < e := by positivity
  have h' : 2 * n % e ≠ 0 := fun hz => h (Nat.mod_eq_zero_of_dvd ((Dvd.intro _ rfl : d ∣ e).trans (Nat.dvd_of_mod_eq_zero hz)))
  rw [Nat.div_div_eq_div_mul, ← he]
  have hn := Nat.div_add_mod n e
  have hr := Nat.mod_lt n he0
  have h2 : 2 * n = e * (2 * (n / e)) + 2 * (n % e) := by
    calc 2 * n = 2 * (e * (n / e) + n % e) := by rw [hn]
      _ = _ := by ring
  unfold rneDiv
  rcases Nat.lt_trichotomy (2 * (n % e)) e with hlt | heq | hgt
  · rw [if_pos (.inl hlt), h2, Nat.mul_add_div he0, Nat.div_eq_of_lt hlt]
    omega
  · refine absurd ?_ h'
    rw [h2, heq, Nat.mul_add_mod, Nat.mod_self]
  · have : 2 * (n % e) / e = 1 := by
      rw [Nat.div_eq_iff he0]; omega
    rw [if_neg (by omega), h2, Nat.mul_add_div he0, this]
    omega

/-- Two quotients that lie strictly between the same two consecutive half units round alike. -/
theorem roundUnits_congr {s : Bool} {n m d : ℕ} (hd : 0 < d) (h : 2 * n / d = 2 * m / d) (hn : 2 * n % d ≠ 0)
    (hm : 2 * m % d ≠ 0) : roundUnits s n d = roundUnits s m d := by
  have hq : n / d = m / d := by
    have e : ∀ x : ℕ, x / d = 2 * x / d / 2 := fun x => by
      rw [Nat.div_div_eq_div_mul, mul_comm d 2, Nat.mul_div_mul_left _ _ (by norm_num)]
    rw [e n, e m, h]
  unfold roundUnits
  simp only [hq, rneDiv_of_not_half hd hn, rneDiv_of_not_half hd hm, h]

theorem unitsPerOne_pos : 0 < unitsPerOne := by
  unfold unitsPerOne
  exact pow_pos two_pos _

/-- The number of half units in a real number that keeps its distance `δ` from every whole number is that in each
number nearer to it than `δ`. -/
theorem half_units_of_near {p z : ℕ} {K x δ : ℝ} (hK : K = 2 * (unitsPerOne : ℝ)) (hx : ∀ f : ℤ, |x - f| ≥ δ)
    (h : |K * (z : ℝ) / 2 ^ p - x| < δ) :
    2 * (z * unitsPerOne) / 2 ^ p = ⌊x⌋₊ ∧ 2 * (z * unitsPerOne) % 2 ^ p ≠ 0 := by
  have e : K * (z : ℝ) / 2 ^ p = ((2 * (z * unitsPerOne) : ℕ) : ℝ) / ((2 ^ p : ℕ) : ℝ) := by
    rw [hK]
    push_cast
    ring
  rw [e] at h
  set q : ℝ := ((2 * (z * unitsPerOne) : ℕ) : ℝ) / ((2 ^ p : ℕ) : ℝ) with hq
  have hf1 := hx ⌊x⌋
  have hf2 := hx (⌊x⌋ + 1)
  have a1 := Int.floor_le x
  have a2 := Int.lt_floor_add_one x
  rw [abs_of_nonneg (by linarith)] at hf1
  rw [abs_of_nonpos (by push_cast; linarith)] at hf2
  push_cast at hf2
  rw [abs_lt] at h
  have hfl : ⌊q⌋ = ⌊x⌋ := by
    rw [Int.floor_eq_iff]; constructor <;> linarith
  constructor
  · rw [← Nat.floor_div_eq_div (K := ℝ), ← hq]
    have := congrArg Int.toNat hfl
    rwa [Int.floor_toNat, Int.floor_toNat] at this
  · intro h0
    obtain ⟨k, hk⟩ := Nat.dvd_of_mod_eq_zero h0
    have hqk : q = k := by
      rw [hq, hk, Nat.cast_mul, mul_div_cancel_left₀ _ (by positivity)]
    have := hx k
    rw [hqk] at h
    push_cast at this
    rw [← abs_lt] at h
    rw [abs_sub_comm] at this
    linarith

/-- Some doubling of the first working precision settles the cosine of every nonzero argument. The cosine is
irrational, so it keeps a distance from the points where the rounding changes, and the enclosures come nearer than
that. -/
theorem cosSettles (u : ℕ) (hu : u ≠ 0) : ∃ k, (cosSettled (cosFirstPrecision * 2 ^ k) u).isSome = true := by
  obtain ⟨K, hK0, hK⟩ : ∃ K : ℝ, 0 < K ∧ K = 2 * (unitsPerOne : ℝ) :=
    ⟨_, mul_pos two_pos (Nat.cast_pos.mpr unitsPerOne_pos), rfl⟩
  set X : ℝ := K * Real.cos ((u : ℝ) / 2 ^ 1074) with hX
  have hXne : ∀ f : ℤ, X ≠ f := by
    intro f hf
    refine cos_dyadic_ne_rat u 1074 hu (f / (2 * (unitsPerOne : ℚ))) ?_
    rw [Rat.cast_div, Rat.cast_intCast, Rat.cast_mul, Rat.cast_natCast, Rat.cast_ofNat, ← hK, ← hf, hX,
      mul_div_cancel_left₀ _ hK0.ne']
  obtain ⟨δ, hδ, hXδ⟩ : ∃ δ > 0, ∀ f : ℤ, |X - f| ≥ δ := by
    refine ⟨|X - round X|, abs_pos.mpr (sub_ne_zero.mpr (hXne _)), fun f => round_le X f⟩
  set h := cosHalvings u with hh
  have lim : Filter.Tendsto (fun p : ℕ => 8 ^ h * ((p : ℝ) + 17) / 2 ^ p) Filter.atTop (nhds 0) := by
    have l1 := tendsto_pow_const_div_const_pow_of_one_lt 1 (r := (2 : ℝ)) (by norm_num)
    have l0 := tendsto_pow_const_div_const_pow_of_one_lt 0 (r := (2 : ℝ)) (by norm_num)
    have := ((l1.add (l0.const_mul 17)).const_mul (8 ^ h))
    simp only [mul_zero, add_zero] at this
    refine this.congr fun p => ?_
    rw [pow_one, pow_zero]
    ring
  have hε : (0 : ℝ) < min 1 (δ / K) := lt_min one_pos (by positivity)
  obtain ⟨P, hP⟩ := Filter.eventually_atTop.mp (lim.eventually (gt_mem_nhds hε))
  refine ⟨P, ?_⟩
  set prec := cosFirstPrecision * 2 ^ P with hprec
  have hbig : P ≤ prec ∧ 8 ≤ prec := by
    have := Nat.lt_two_pow_self (n := P)
    rw [hprec, cosFirstPrecision]
    omega
  have hp := hP (cosScale prec u) (by rw [cosScale]; omega)
  set p := cosScale prec u with hpd
  have pos : (0 : ℝ) < 2 ^ p := by positivity
  rw [div_lt_iff₀ pos] at hp
  have near := cosEnclosure_near prec u hbig.2 (by
    refine hp.le.trans ?_
    exact mul_le_of_le_one_left pos.le (min_le_left _ _))
  rw [← hpd, ← hh] at near
  have close : ∀ z : ℤ, |(z : ℝ) - 2 ^ p * Real.cos ((u : ℝ) / 2 ^ 1074)| ≤ 8 ^ h * ((p : ℝ) + 17) →
      |K * (z : ℝ) / 2 ^ p - X| < δ := by
    intro z hz
    have e : K * (z : ℝ) / 2 ^ p - X = K / 2 ^ p * (z - 2 ^ p * Real.cos ((u : ℝ) / 2 ^ 1074)) := by
      rw [hX]; field_simp
    rw [e, abs_mul, abs_of_pos (by positivity)]
    have h1 : 8 ^ h * ((p : ℝ) + 17) < δ / K * 2 ^ p := hp.trans_le (by gcongr; exact min_le_right _ _)
    calc K / 2 ^ p * |(z : ℝ) - 2 ^ p * Real.cos ((u : ℝ) / 2 ^ 1074)|
        < K / 2 ^ p * (δ / K * 2 ^ p) := by
          gcongr; exact hz.trans_lt h1
      _ = δ := by field_simp
  have c1 := close _ near.1
  have c2 := close _ near.2
  -- both ends have the sign of the cosine
  have sign : ∀ z : ℤ, |K * (z : ℝ) / 2 ^ p - X| < δ → (0 < X → 0 < z) ∧ (X < 0 → z < 0) := by
    intro z hz
    have k := hXδ 0
    rw [Int.cast_zero, sub_zero] at k
    rw [abs_lt] at hz
    have r : (0 : ℝ) < K / 2 ^ p := by positivity
    have e : K * (z : ℝ) / 2 ^ p = K / 2 ^ p * z := by ring
    rw [e] at hz
    constructor
    · intro hx
      rw [abs_of_pos hx] at k
      have : (0 : ℝ) < z := pos_of_mul_pos_right (by linarith : 0 < K / 2 ^ p * (z : ℝ)) r.le
      exact_mod_cast this
    · intro hx
      rw [abs_of_neg hx] at k
      have : K / 2 ^ p * (z : ℝ) < 0 := by linarith
      have : (z : ℝ) < 0 := by
        by_contra hc
        exact absurd this (not_lt.mpr (mul_nonneg r.le (not_lt.mp hc)))
      exact_mod_cast this
  -- both ends lie between the same two half units
  have half : ∀ z : ℤ, |K * (z : ℝ) / 2 ^ p - X| < δ →
      2 * (z.natAbs * unitsPerOne) / 2 ^ p = ⌊|X|⌋₊ ∧ 2 * (z.natAbs * unitsPerOne) % 2 ^ p ≠ 0 := by
    intro z hz
    refine half_units_of_near (δ := δ) hK (fun f => ?_) ?_
    · rcases abs_choice X with hx | hx <;> rw [hx]
      · exact hXδ f
      · have := hXδ (-f)
        rw [Int.cast_neg, sub_neg_eq_add] at this
        rw [← abs_neg]
        simpa [neg_sub, add_comm] using this
    · rw [Nat.cast_natAbs, Int.cast_abs]
      have e : K * |(z : ℝ)| / 2 ^ p = |K * (z : ℝ) / 2 ^ p| := by
        rw [abs_div, abs_mul, abs_of_pos pos, abs_of_pos hK0]
      rw [e]
      exact (abs_abs_sub_abs_le_abs_sub _ _).trans_lt hz
  have hX0 : X ≠ 0 := by simpa using hXne 0
  have s1 := sign _ c1
  have s2 := sign _ c2
  have eq : ofScaled p (cosEnclosure prec u).lo = ofScaled p (cosEnclosure prec u).hi := by
    have hs : decide ((cosEnclosure prec u).lo < 0) = decide ((cosEnclosure prec u).hi < 0) := by
      rcases lt_or_gt_of_ne hX0 with hx | hx
      · simp [s1.2 hx, s2.2 hx]
      · rw [decide_eq_false (not_lt.mpr (s1.1 hx).le), decide_eq_false (not_lt.mpr (s2.1 hx).le)]
    obtain ⟨q1, n1⟩ := half _ c1
    obtain ⟨q2, n2⟩ := half _ c2
    unfold ofScaled
    rw [hs]
    exact roundUnits_congr (by positivity) (q1.trans q2.symm) n1 n2
  have cond : 0 < (cosEnclosure prec u).lo ∨ (cosEnclosure prec u).hi < 0 := by
    rcases lt_or_gt_of_ne hX0 with hx | hx
    · exact .inr (s2.2 hx)
    · exact .inl (s1.1 hx)
  unfold cosSettled
  simp only [← hpd]
  rw [if_pos ⟨cond, eq⟩]
  rfl
end Sys2Proof.F64
end

