-- ==== Sys2Proof/Machine/Cosine.lean ====
section
/-! DEFINITION. The correctly rounded binary64 cosine (R13): the rounding that the first working precision settles, or
the first precision that does. One always does (`cosSettles`), so the cosine has its value for every finite argument.
Log 9. -/

namespace Sys2Proof.F64

open Sys2Proof.Machine

/-- The least doubling of the first working precision that settles the cosine of `u` units of 2^-1074. -/
def cosDoublingsNeeded (u : Nat) (h : u ≠ 0) : Nat := Nat.find (cosSettles u h)

/-- The cosine by the precision that is found, for an argument that the first precision leaves open. -/
def cosFurther (u : Nat) (h : u ≠ 0) : F64 :=
  (cosSettled (cosFirstPrecision * 2 ^ cosDoublingsNeeded u h) u).get (Nat.find_spec (cosSettles u h))

/-- The rounded cosine of `u` units of 2^-1074. -/
def cosUnits (u : Nat) (h : u ≠ 0) : F64 :=
  match cosSettled cosFirstPrecision u with
  | some r => r
  | none => cosFurther u h

/-- `cos64(x)` (R13). -/
def cos (x : F64) : F64 :=
  if !finite x then cnan
  else if h : units x = 0 then one
  else cosUnits (units x) h

end Sys2Proof.F64
end

