-- ==== Sys2Proof/Machine/Derive.lean ====
section
/-! DEFINITION. DERIVE, the parameter calculator (R75 to R81). -/

namespace Sys2Proof.Machine

/-- `0 < a <= 1` (R75, R76). -/
def ampInRange (a : F64) : Bool := F64.lt posZero a && F64.le a ampMax

/-- `5e-7 <= b <= 0.1` (R75, R76). -/
def bpInRange (b : F64) : Bool := F64.le bpMin b && F64.le b bpMax

/-- `2 <= r <= 100`, with RED_IN read signed (R75, R76). -/
def redInRange (r : Word) : Bool := decide (2 ≤ r.toInt) && decide (r.toInt ≤ 100)

/-- The derived parameters of a valid amplitude, bit period and redundancy, in the evaluation order of R77, R78
and R79. -/
def deriveParams (a b : F64) (r : Nat) : Params :=
  let br := F64.div one b
  let f1 := F64.mul br (F64.ofNat r)
  let f0 := F64.div (F64.mul br (F64.ofNat r)) two
  { amp := a
    bp := b
    br := br
    fOne := f1
    fZero := f0
    rp := F64.div b (F64.ofNat (2 * r))
    wOne := F64.mul twoPi f1
    wZero := F64.mul twoPi f0
    red := BitVec.ofNat 32 r
    ss := BitVec.ofNat 32 (2 * r) }

/-- `TAXIS[k]` (R80). -/
def taxisEntry (p : Params) (k : Nat) : F64 := F64.mul (F64.ofNat k) p.rp

/-- `CREF1[k]` for `w` = W_ONE, `CREF0[k]` for `w` = W_ZERO (R80). -/
def crefEntry (p : Params) (w : F64) (k : Nat) : F64 := F64.cos (F64.mul w (taxisEntry p k))

/-- `REF1[k]` and `REF0[k]` (R80). -/
def refEntry (p : Params) (w : F64) (k : Nat) : F64 := F64.mul p.amp (crefEntry p w k)

/-- A table whose first `n` entries are written anew; the rest are left as they were (R80). -/
def fillTable (n : Nat) (entry : Nat → F64) (old : List F64) : List F64 :=
  (List.range n).map entry ++ old.drop n

/-- The tables of a parameter set with `n` samples per bit (R80). -/
def deriveTables (p : Params) (n : Nat) (old : Tables) : Tables where
  taxis := fillTable n (taxisEntry p) old.taxis
  ref1 := fillTable n (refEntry p p.wOne) old.ref1
  ref0 := fillTable n (refEntry p p.wZero) old.ref0
  cref1 := fillTable n (crefEntry p p.wOne) old.cref1
  cref0 := fillTable n (crefEntry p p.wZero) old.cref0

/-- `DERIVE` (R75). -/
def execDerive (s : State) : Result :=
  let va := ampInRange s.ampIn
  let vb := bpInRange s.bpIn
  let vr := redInRange s.redIn
  if !(va && vb && vr) && s.valpol then raise .configRange s
  else
    let a := if va then s.ampIn else defAmp
    let b := if vb then s.bpIn else defBp
    let r := if vr then s.redIn.toNat else defRed
    let p := deriveParams a b r
    succeed
      { s with
        warn := s.warn ||| substitutionWarnings va vb vr
        params := p
        tables := deriveTables p (2 * r) s.tables
        pvalid := true }

end Sys2Proof.Machine
end

