-- ==== Sys2Proof/Machine/EmbedExtract.lean ====
section
/-! DEFINITION. EMBED and EXTRACT, the signal embedder and extractor (R94 to R98). -/

namespace Sys2Proof.Machine

/-- Whether `x + L <= H` in binary64, for the unrounded `x = loc * rate` (R95). -/
def capacityHolds (loc : F64) (rate len cap : Nat) : Bool :=
  F64.le (F64.add (F64.mul loc (F64.ofNat rate)) (F64.ofNat len)) (F64.ofNat cap)

/-- EMBED's destination: as many samples as the host has (R95). -/
def embedDestination (s : State) : Region := sampleRegion s.operands.dst s.operands.lenA.toNat

/-- EMBED's checks, in the order of R95 and R105; the sample offset and the destination when all pass. -/
def embedChecks (s : State) : Except ErrorCode (Nat × Region) :=
  let o := s.operands
  if o.rateA ≠ o.rateB then .error .channelMismatch
  else if o.lenA.toNat < o.lenB.toNat then .error .capacityExceeded
  else if !capacityHolds o.loc o.rateA.toNat o.lenB.toNat o.lenA.toNat then .error .capacityExceeded
  else
    match location o.loc o.rateA.toNat with
    | .error e => .error e
    | .ok off =>
      match checkRegions s.memBytes [sampleRegion o.srcA o.lenA.toNat, sampleRegion o.srcB o.lenB.toNat]
          (embedDestination s) with
      | some e => .error e
      | none => .ok (off, embedDestination s)

/-- Output sample i of EMBED: the payload, or +0.0 outside it, plus the scaled host (R95). -/
def embedSample (s : State) (off i : Nat) : F64 :=
  let o := s.operands
  let z :=
    if off ≤ i ∧ i < off + o.lenB.toNat then Memory.sample s.buf (o.srcB.toNat + 8 * (i - off)) else posZero
  F64.add z (F64.mul s.mix (Memory.sample s.buf (o.srcA.toNat + 8 * i)))

/-- The output of EMBED (R95). -/
def embedOutput (s : State) (off : Nat) : List F64 := (List.range s.operands.lenA.toNat).map (embedSample s off)

/-- `EMBED` (R95). -/
def execEmbed (s : State) : Result :=
  match embedChecks s with
  | .error e => raise e s
  | .ok (off, dst) =>
    succeed
      { s with
        buf := Memory.putSamples s.buf dst.base (embedOutput s off)
        results :=
          { s.results with
            outLen := s.operands.lenA
            descWidth := s.operands.lenB
            offset := BitVec.ofNat 32 off } }

/-- EXTRACT's destination: WIDTH samples (R97). -/
def extractDestination (s : State) : Region := sampleRegion s.operands.dst s.operands.width.toNat

/-- EXTRACT's checks, in the order of R97 and R105; the sample offset and the destination when all pass. -/
def extractChecks (s : State) : Except ErrorCode (Nat × Region) :=
  let o := s.operands
  if o.rateA ≠ o.rateB then .error .channelMismatch
  else if o.lenA ≠ o.lenB then .error .lengthMismatch
  else
    match location o.loc o.rateA.toNat with
    | .error e => .error e
    | .ok off =>
      if o.lenA.toNat < off + o.width.toNat then .error .capacityExceeded
      else
        match checkRegions s.memBytes [sampleRegion o.srcA o.lenA.toNat, sampleRegion o.srcB o.lenB.toNat]
            (extractDestination s) with
        | some e => .error e
        | none => .ok (off, extractDestination s)

/-- Output sample j of EXTRACT: the mixed sample minus the scaled host sample (R97). -/
def extractSample (s : State) (off j : Nat) : F64 :=
  let o := s.operands
  F64.sub (Memory.sample s.buf (o.srcA.toNat + 8 * (off + j)))
    (F64.mul s.mix (Memory.sample s.buf (o.srcB.toNat + 8 * (off + j))))

/-- The output of EXTRACT (R97). -/
def extractOutput (s : State) (off : Nat) : List F64 :=
  (List.range s.operands.width.toNat).map (extractSample s off)

/-- `EXTRACT` (R97). -/
def execExtract (s : State) : Result :=
  match extractChecks s with
  | .error e => raise e s
  | .ok (off, dst) =>
    succeed
      { s with
        buf := Memory.putSamples s.buf dst.base (extractOutput s off)
        results := { s.results with outLen := s.operands.width, offset := BitVec.ofNat 32 off } }

end Sys2Proof.Machine
end

