-- ==== Sys2Proof/Machine/Modulate.lean ====
section
/-! DEFINITION. MOD, the FSK modulator (R83 to R86). -/

namespace Sys2Proof.Machine

/-- MOD's destination: `8*N*SS` bytes at DST (R83). -/
def modDestination (s : State) : Region :=
  sampleRegion s.operands.dst (s.operands.lenA.toNat * s.params.ss.toNat)

/-- MOD's checks, in the order of R83 and R105; the destination when all pass. -/
def modChecks (s : State) : Except ErrorCode Region :=
  if !s.pvalid then .error .noParams
  else
    match checkRegions s.memBytes [bitRegion s.operands.srcA s.operands.lenA.toNat] (modDestination s) with
    | some e => .error e
    | none => .ok (modDestination s)

/-- Sample j of the output: table entry `j mod SS` of the tone of bit `j div SS` (R83, R84, R85). -/
def modSample (s : State) (j : Nat) : F64 :=
  let k := j % s.params.ss.toNat
  if Memory.bit s.buf s.operands.srcA.toNat (j / s.params.ss.toNat) then s.tables.ref1.getD k posZero
  else s.tables.ref0.getD k posZero

/-- The output: `N*SS` samples (R84). -/
def modOutput (s : State) : List F64 :=
  (List.range (s.operands.lenA.toNat * s.params.ss.toNat)).map (modSample s)

/-- `MOD` (R83). -/
def execMod (s : State) : Result :=
  match modChecks s with
  | .error e => raise e s
  | .ok dst =>
    succeed
      { s with
        buf := Memory.putSamples s.buf dst.base (modOutput s)
        results := { s.results with outLen := BitVec.ofNat 32 (s.operands.lenA.toNat * s.params.ss.toNat) } }

end Sys2Proof.Machine
end

