-- ==== Sys2Proof/Machine/Nop.lean ====
section
/-! DEFINITION. NOP (R100) and the completion of a word that decodes to ILLEGAL (R68). -/

namespace Sys2Proof.Machine

/-- `NOP` (R100): completes with no effect. -/
def execNop (s : State) : Result := succeed s

/-- The completion of a word that decodes to ILLEGAL (R68). -/
def execIllegal (s : State) : Result := raise .illegalCmd s

end Sys2Proof.Machine
end

