-- ==== Sys2Proof/WellFormed.lean ====
section
/-! DEFINITION. Well-formedness. A command carries no operand, so every `Instr` is well formed (R64); the checks
are on the command word: its reserved bits (R64) and its opcode (R66). -/

namespace Sys2Proof

/-- Every command is well formed: the word has no operand that could be ill formed (R64). -/
def Instr.wellFormed (i : Instr) : Bool :=
  match i with
  | .nop => true
  | .derive => true
  | .mod => true
  | .demod => true
  | .embed => true
  | .extract => true

/-- RSVD, bits 31:8, must be 0 (R64). -/
def reservedClear (v : Word) : Bool := v.extractLsb' 8 24 == 0#24

/-- OP, bits 7:0, is one of the opcodes of R66. -/
def opcodeKnown (v : Word) : Bool := decide (v.extractLsb' 0 8 ≤ 5#8)

/-- A command word that stands for a command: both checks pass (R67). -/
def wellFormedWord (v : Word) : Bool := reservedClear v && opcodeKnown v

end Sys2Proof
end

