-- ==== Sys2Proof/Decode.lean ====
section
/-! DEFINITION. The decoder (R67), total on 32-bit words, and the encoder (R66). -/

namespace Sys2Proof

/-- `Decode(v)` of R67. The two ILLEGAL cases are told apart by name. -/
def decodeWord (v : Word) : Except DecodeError Instr :=
  if v.extractLsb' 8 24 ≠ 0#24 then .error .reservedBits
  else match (v.extractLsb' 0 8).toNat with
    | 0x00 => .ok .nop
    | 0x01 => .ok .derive
    | 0x02 => .ok .mod
    | 0x03 => .ok .demod
    | 0x04 => .ok .embed
    | 0x05 => .ok .extract
    | _ => .error .reservedOpcode

/-- The command word of a command: the `word` column of R66. -/
def encode (i : Instr) : Word :=
  match i with
  | .nop => 0x00000000#32
  | .derive => 0x00000001#32
  | .mod => 0x00000002#32
  | .demod => 0x00000003#32
  | .embed => 0x00000004#32
  | .extract => 0x00000005#32

/-- What the decoder reads from an instruction whose bits are `w`, `nbits` of them given and the rest of the
32-bit command word zero. A command is one register value, so it has no byte order (R52, R65). -/
def decodeTableWord (nbits w : Nat) : Option Instr :=
  match decodeWord (BitVec.ofNat 32 (w % 2 ^ nbits)) with
  | .ok i => some i
  | .error _ => none

end Sys2Proof
end

