-- ==== Sys2Proof/Machine/Reset.lean ====
section
/-! DEFINITION. The reset input (R118 to R120). What a reset leaves unspecified is a free value, indexed by the number
of resets taken before (log 4, log 5). -/

namespace Sys2Proof.Machine

/-- The region of a check that passes. -/
def passedRegion (r : Except ErrorCode Region) : Option Region :=
  match r with
  | .ok dst => some dst
  | .error _ => none

/-- The region of a check, with a sample offset, that passes. -/
def passedPlan (r : Except ErrorCode (Nat × Region)) : Option Region :=
  match r with
  | .ok (_, dst) => some dst
  | .error _ => none

/-- The destination region of the command that the Engine holds, if its checks would pass (R120). -/
def heldDestination (s : State) : Option Region :=
  match decodeWord s.pending with
  | .error _ => none
  | .ok .nop => none
  | .ok .derive => none
  | .ok .mod => passedRegion (modChecks s)
  | .ok .demod => passedRegion (demodChecks s)
  | .ok .embed => passedPlan (embedChecks s)
  | .ok .extract => passedPlan (extractChecks s)

/-- The region a reset abandons: that of the running command, none while IDLE (R120). -/
def abandonedRegion (s : State) : Option Region :=
  match s.phase with
  | .idle => none
  | .busy => heldDestination s

/-- BUF with the bytes of a region at values that reset number n leaves unspecified (R119, R120). -/
def unspecifyRegion (n : Nat) (base nbytes : Nat) (m : Memory) : Memory :=
  Memory.write m base ((List.range nbytes).map (fun i => Config.unspecifiedByte n (base + i)))

/-- A table of 200 entries that reset number n leaves unspecified (R118). -/
def unspecifiedTable (n t : Nat) : List F64 := (List.range ssMax).map (Config.resetEntry n t)

/-- The tables after reset number n (R118). -/
def unspecifiedTables (n : Nat) : Tables where
  taxis := unspecifiedTable n 0
  ref1 := unspecifiedTable n 1
  ref0 := unspecifiedTable n 2
  cref1 := unspecifiedTable n 3
  cref0 := unspecifiedTable n 4

/-- The registers, PENDING and the tables after a reset of the platform, BUF left as it is (R118). -/
def resetCore (s : State) : State :=
  { resetRegisters s with
    pending := Config.resetPending s.resets
    tables := unspecifiedTables s.resets
    resets := s.resets + 1 }

/-- A reset that is not a power-on reset (R118, R119, R120). -/
def platformReset (s : State) : State :=
  match abandonedRegion s with
  | none => resetCore s
  | some r => { resetCore s with buf := unspecifyRegion s.resets r.base r.nbytes s.buf }

/-- A power-on reset: every byte of BUF is unspecified (R119). -/
def powerOnReset (s : State) : State :=
  { resetCore s with buf := unspecifyRegion s.resets 0 s.memBytes s.buf }

end Sys2Proof.Machine
end

