-- ==== Sys2Proof/Machine/Engine.lean ====
section
/-! DEFINITION. The turns of the agents: the Engine's step (R47, R67, R103), the Host's (R23, R53, R57), the platform's
(R118), and which of them comes next (R59, R132). -/

namespace Sys2Proof.Machine

/-- The Engine completes the command it holds: PENDING is decoded, and an ILLEGAL word completes with ILLEGAL_CMD
(R67, R68). -/
def runPending (s : State) : Result :=
  match decodeWord s.pending with
  | .ok i => exec i s
  | .error _ => execIllegal s

/-- The Engine's turn: while BUSY it completes its command, while IDLE it has no step and nothing changes (R47). -/
def engineTurn (s : State) : Result :=
  match s.phase with
  | .busy => runPending s
  | .idle => .next s

/-- A Host BUF access `act` heads the turns of `s`, and `rest` holds the turns after it. While BUSY it is held: it
stays where it is and the Engine has the step (R57). -/
def bufTurn (rest : List Turn) (act : State → State) (s : State) : Result :=
  match s.phase with
  | .busy => engineTurn s
  | .idle => .next (act { s with turns := rest })

/-- The Host's loop over STATUS heads the turns of `s`, and `rest` holds the turns after it (R74's `wait`). Every read
is the register read of STATUS. A value with bit 0 = 1 sends the loop round again, a value with bit 0 = 0 ends it. Once
its `busyReads` are used up, a read that would show BUSY waits for the Engine's step (R132). Log 15. -/
def pollTurn (busyReads : Nat) (rest : List Turn) (s : State) : Result :=
  if (readOffset (regOffset .status) s).getLsbD 0 then
    match busyReads with
    | 0 => engineTurn s
    | n + 1 => .next (hostRegRead 4 (regOffset .status) { s with turns := .pollStatus n :: rest })
  else .next (hostRegRead 4 (regOffset .status) { s with turns := rest })

/-- The next step of the block: the first of the coming turns. With none left a BUSY Engine completes its command and
an IDLE block waits for the Host (R47, R122). -/
def nextTurn (s : State) : Result :=
  match s.turns with
  | [] => engineTurn s
  | .engine :: rest => engineTurn { s with turns := rest }
  | .regWrite width off v :: rest => .next (hostRegWrite width off v { s with turns := rest })
  | .regRead width off :: rest => .next (hostRegRead width off { s with turns := rest })
  | .pollStatus busyReads :: rest => pollTurn busyReads rest s
  | .bufWrite width addr v :: rest => bufTurn rest (hostBufWrite width addr v) s
  | .bufRead width addr :: rest => bufTurn rest (hostBufRead width addr) s
  | .reset :: rest => .next (platformReset { s with turns := rest })
  | .powerOn :: rest => .next (powerOnReset { s with turns := rest })

/-- `s` with the command word `v` accepted (R47) and the next turn given to the Engine. -/
def holdCommand (v : Word) (s : State) : State := { accept v s with turns := .engine :: s.turns }

end Sys2Proof.Machine
end

