-- ==== Sys2Proof/Machine/Step.lean ====
section
/-! DEFINITION. One step of the block, and how a command word is put where the next step runs it. -/

namespace Sys2Proof.Machine

/-- One step of one agent (R18, R59). -/
def step (s : State) : Host.Outcome State Fault Refusal := nextTurn s

/-- `s` with a command word in the Engine, as the acceptance of that word leaves it (R47), and the Engine's turn next:
the next step runs exactly that command. Log 7. -/
def State.withFetchWord (s : State) (nbits w : Nat) : State := holdCommand (BitVec.ofNat 32 (w % 2 ^ nbits)) s

end Sys2Proof.Machine
end

