-- ==== Sys2Proof/Machine/Assembler.lean ====
section
/-! DEFINITION. The assembler's statements as the Host accesses they stand for (R73, R74). -/

namespace Sys2Proof.Machine

/-- `wr NAME, imm32` (R73). -/
def asmWr (r : Reg) (v : Word) : Turn := .regWrite 4 (regOffset r) v

/-- `wrf NAME, x`: the low half, then the high half (R74). -/
def asmWrf (r : Reg64) (x : F64) : List Turn := [asmWr (.half r .lo) (halfOf .lo x), asmWr (.half r .hi) (halfOf .hi x)]

/-- The accesses of a statement, in the order the expansion writes (R73, R74). That of `wait` is a loop, not a fixed
list. -/
def assemble (st : Stmt) : List Turn :=
  match st with
  | .wr r v => [asmWr r v]
  | .rd r => [.regRead 4 (regOffset r)]
  | .bw n addr v => [.bufWrite n addr v]
  | .br n addr => [.bufRead n addr]
  | .run i => [asmWr .cmd (encode i)]
  | .cmd v => [asmWr .cmd v]
  | .wrf r x => asmWrf r x
  | .bwf addr x => [.bufWrite 8 addr x]
  | .deriveWith a bp r => asmWrf .ampIn a ++ asmWrf .bpIn bp ++ [asmWr .redIn r, asmWr .cmd (encode .derive)]
  | .modWith src nbits dst => [asmWr .srcA src, asmWr .lenA nbits, asmWr .dst dst, asmWr .cmd (encode .mod)]
  | .demodWith src nsamp dst => [asmWr .srcA src, asmWr .lenA nsamp, asmWr .dst dst, asmWr .cmd (encode .demod)]
  | .embedWith h hlen hrate p plen prate loc dst =>
    [asmWr .srcA h, asmWr .lenA hlen, asmWr .rateA hrate, asmWr .srcB p, asmWr .lenB plen, asmWr .rateB prate]
      ++ asmWrf .loc loc ++ [asmWr .dst dst, asmWr .cmd (encode .embed)]
  | .extractWith m mlen mrate h hlen hrate loc width dst =>
    [asmWr .srcA m, asmWr .lenA mlen, asmWr .rateA mrate, asmWr .srcB h, asmWr .lenB hlen, asmWr .rateB hrate]
      ++ asmWrf .loc loc ++ [asmWr .width width, asmWr .dst dst, asmWr .cmd (encode .extract)]
  | .policy amb val => [asmWr .ctrl (0#28 ++ val ++ amb ++ 0#1)]
  | .wait busyReads => [.pollStatus busyReads]
  | .ack => [asmWr .intStatus 0x3]
  | .clrwarn => [asmWr .warn 0x1F]
  | .srst => [asmWr .ctrl 0x1]

/-- The encoding of a program: its list of bus accesses (R73). -/
def assembleAll (p : List Stmt) : List Turn := p.flatMap assemble

end Sys2Proof.Machine
end

