-- ==== Sys2Proof/Safety.lean ====
section
/-! DEFINITION. The terms in which claims are stated: the value of a binary64 pattern, correct rounding, the conditions
under which each command runs, the pseudocode's loops as they are written, the invariants. -/

namespace Sys2Proof.F64

/-- The value of a finite pattern (R9). -/
def toRat (x : F64) : ℚ := (intUnits x : ℚ) / (unitsPerOne : ℚ)

/-- The value of a pattern that is no NaN, with the infinities below and above every finite value (R11). -/
def toExtended (x : F64) : WithBot (WithTop ℚ) :=
  if isInf x then (if negative x then ⊥ else ((⊤ : WithTop ℚ) : WithBot (WithTop ℚ)))
  else ((toRat x : WithTop ℚ) : WithBot (WithTop ℚ))

/-- `z` is the finite pattern nearest to `r`; of two equally near ones it is the one with an even significand. -/
def NearestEven (r : ℝ) (z : F64) : Prop :=
  finite z = true ∧
    ∀ y : F64, finite y = true →
      |(toRat z : ℝ) - r| ≤ |(toRat y : ℝ) - r| ∧
        (|(toRat y : ℝ) - r| = |(toRat z : ℝ) - r| → toRat y = toRat z ∨ z.getLsbD 0 = false)

/-- The least magnitude that rounds to an infinity: half a unit in the last place above the greatest finite value. -/
def overflowBound : ℝ := (2 ^ 54 - 1) * 2 ^ 970

/-- `z` is `r` rounded to nearest, ties to even, with overflow to the infinities (R9). -/
def RoundsTo (r : ℝ) (z : F64) : Prop :=
  (|r| < overflowBound → NearestEven r z) ∧
    (overflowBound ≤ r → z = infinity false) ∧ (r ≤ -overflowBound → z = infinity true)

end Sys2Proof.F64

namespace Sys2Proof.Safety

open Sys2Proof.Machine

/-- A region of n bytes is empty or lies in BUF. -/
abbrev InBuf (s : State) (base n : Nat) : Prop := n = 0 ∨ base + n ≤ s.memBytes

/-- A region of n bytes is empty or starts at a multiple of 8. -/
abbrev Aligned8 (base n : Nat) : Prop := n = 0 ∨ base % 8 = 0

/-- Two regions share no byte: one is empty or they lie apart. -/
abbrev Apart (a m b n : Nat) : Prop := m = 0 ∨ n = 0 ∨ a + m ≤ b ∨ b + n ≤ a

/-- The operand registers as numbers (R71). -/
abbrev srcA (s : State) : Nat := s.operands.srcA.toNat
abbrev lenA (s : State) : Nat := s.operands.lenA.toNat
abbrev srcB (s : State) : Nat := s.operands.srcB.toNat
abbrev lenB (s : State) : Nat := s.operands.lenB.toNat
abbrev dst (s : State) : Nat := s.operands.dst.toNat
abbrev width (s : State) : Nat := s.operands.width.toNat
abbrev ss (s : State) : Nat := s.params.ss.toNat

/-- `x = LOC * RATE_A` in binary64 (R94). -/
abbrev locProduct (s : State) : F64 := F64.mul s.operands.loc (F64.ofNat s.operands.rateA.toNat)

/-- Every input of DERIVE is in its range (R76). -/
abbrev InputsInRange (s : State) : Prop :=
  ampInRange s.ampIn = true ∧ bpInRange s.bpIn = true ∧ redInRange s.redIn = true

/-- When DERIVE succeeds (R75): under SUBSTITUTE, or when every input is in its range. -/
abbrev DeriveRuns (s : State) : Prop := s.valpol = false ∨ InputsInRange s

/-- When MOD raises no error (R83). -/
abbrev ModRuns (s : State) : Prop :=
  s.pvalid = true ∧ InBuf s (srcA s) (ceil8 (lenA s)) ∧ InBuf s (dst s) (8 * (lenA s * ss s)) ∧
    Aligned8 (dst s) (8 * (lenA s * ss s)) ∧
    Apart (srcA s) (ceil8 (lenA s)) (dst s) (8 * (lenA s * ss s))

/-- When DEMOD's checks before the windows all pass (R87). -/
abbrev DemodStarts (s : State) : Prop :=
  s.pvalid = true ∧ InBuf s (srcA s) (8 * lenA s) ∧ Aligned8 (srcA s) (8 * lenA s) ∧
    InBuf s (dst s) (ceil8 (lenA s / ss s)) ∧ Apart (srcA s) (8 * lenA s) (dst s) (ceil8 (lenA s / ss s))

/-- Window w of DEMOD's samples as numbers read from BUF (R88). -/
def windowSamples (s : State) (w : Nat) : List F64 :=
  (List.range (ss s)).map (fun k => Memory.sample s.buf (srcA s + 8 * (w * ss s + k)))

/-- `Trapz(y, c)` as R89 writes it: the products, the first term, then the loop over k = 1 .. SS-2. -/
def loopTrapz (s : State) (y c : List F64) : F64 :=
  let t := s.tables.taxis
  let p := (List.range (ss s)).map (fun k => F64.mul (entry y k) (entry c k))
  (List.range' 1 (ss s - 2)).foldl
    (fun acc k =>
      F64.add acc
        (F64.div (F64.mul (F64.sub (entry t (k + 1)) (entry t k)) (F64.add (entry p (k + 1)) (entry p k))) two))
    (F64.div (F64.mul (F64.sub (entry t 1) (entry t 0)) (F64.add (entry p 1) (entry p 0))) two)

/-- `fabs(fceil((2.0 * Z) / BP))` as R90 writes it. -/
def statOf (s : State) (z : F64) : F64 := F64.abs (F64.ceil (F64.div (F64.mul two z) s.params.bp))

/-- N_ONE and N_ZERO of a window (R89, R90). -/
def statOne (s : State) (w : Nat) : F64 := statOf s (loopTrapz s (windowSamples s w) s.tables.cref1)
def statZero (s : State) (w : Nat) : F64 := statOf s (loopTrapz s (windowSamples s w) s.tables.cref0)

/-- A window that passes neither test (R91, R92). -/
abbrev Ambiguous (s : State) (w : Nat) : Prop :=
  F64.gt (statOne s w) (F64.div s.params.amp two) = false ∧ F64.gt (statZero s w) (F64.div s.params.amp two) = false

/-- When EMBED raises no error, with the offset it then uses (R95). -/
abbrev EmbedRuns (s : State) (off : Nat) : Prop :=
  s.operands.rateA = s.operands.rateB ∧ lenB s ≤ lenA s ∧
    F64.le (F64.add (locProduct s) (F64.ofNat (lenB s))) (F64.ofNat (lenA s)) = true ∧
    F64.finite (locProduct s) = true ∧ F64.rne (locProduct s) = (off : Int) ∧
    InBuf s (srcA s) (8 * lenA s) ∧ Aligned8 (srcA s) (8 * lenA s) ∧
    InBuf s (srcB s) (8 * lenB s) ∧ Aligned8 (srcB s) (8 * lenB s) ∧
    InBuf s (dst s) (8 * lenA s) ∧ Aligned8 (dst s) (8 * lenA s) ∧
    Apart (srcA s) (8 * lenA s) (dst s) (8 * lenA s) ∧ Apart (srcB s) (8 * lenB s) (dst s) (8 * lenA s)

/-- When EXTRACT raises no error, with the offset it then uses (R97). -/
abbrev ExtractRuns (s : State) (off : Nat) : Prop :=
  s.operands.rateA = s.operands.rateB ∧ s.operands.lenA = s.operands.lenB ∧
    F64.finite (locProduct s) = true ∧ F64.rne (locProduct s) = (off : Int) ∧ off + width s ≤ lenA s ∧
    InBuf s (srcA s) (8 * lenA s) ∧ Aligned8 (srcA s) (8 * lenA s) ∧
    InBuf s (srcB s) (8 * lenB s) ∧ Aligned8 (srcB s) (8 * lenB s) ∧
    InBuf s (dst s) (8 * width s) ∧ Aligned8 (dst s) (8 * width s) ∧
    Apart (srcA s) (8 * lenA s) (dst s) (8 * width s) ∧ Apart (srcB s) (8 * lenB s) (dst s) (8 * width s)

/-! The pseudocode's loops as they are written, one access at a time on the memory as it stands. -/

/-- The loops of MOD (R83). -/
def loopMod (s : State) : Memory :=
  (List.range (lenA s)).foldl
    (fun m i =>
      (List.range (ss s)).foldl
        (fun m k =>
          Memory.writeLE m (dst s + 8 * (i * ss s + k)) 8
            (if Memory.bit m (srcA s) i then entry s.tables.ref1 k else entry s.tables.ref0 k).toNat) m) s.buf

/-- What DEMOD's loop over the windows carries: `out`, `amb`, `first` (R87). -/
structure DemodVars where
  out : List Bool
  amb : Nat
  first : Word
  deriving DecidableEq, Repr

/-- One round of DEMOD's loop over the windows, under a policy other than ABORT (R87). -/
def loopDemodWindow (s : State) (v : DemodVars) (w : Nat) : DemodVars :=
  let h := F64.div s.params.amp two
  if F64.gt (statOne s w) h then { v with out := v.out ++ [true] }
  else if F64.gt (statZero s w) h then { v with out := v.out ++ [false] }
  else
    { out := if s.ambpol = 1#2 then v.out ++ [false] else if s.ambpol = 2#2 then v.out ++ [true] else v.out
      amb := v.amb + 1
      first := if v.first = noWindow then BitVec.ofNat 32 w else v.first }

/-- DEMOD's loop over the windows (R87). -/
def loopDemod (s : State) : DemodVars :=
  (List.range (lenA s / ss s)).foldl (loopDemodWindow s) { out := [], amb := 0, first := noWindow }

/-- DEMOD's loop over the output bytes (R87). -/
def loopPack (s : State) (out : List Bool) : Memory :=
  (List.range (ceil8 out.length)).foldl (fun m j => Memory.writeLE m (dst s + j) 1 (packByte out j).toNat) s.buf

/-- The loop of EMBED (R95). -/
def loopEmbed (s : State) (off : Nat) : Memory :=
  (List.range (lenA s)).foldl
    (fun m i =>
      Memory.writeLE m (dst s + 8 * i) 8
        (F64.add
          (if off ≤ i ∧ i < off + lenB s then Memory.sample m (srcB s + 8 * (i - off)) else posZero)
          (F64.mul s.mix (Memory.sample m (srcA s + 8 * i)))).toNat) s.buf

/-- The loop of EXTRACT (R97). -/
def loopExtract (s : State) (off : Nat) : Memory :=
  (List.range (width s)).foldl
    (fun m j =>
      Memory.writeLE m (dst s + 8 * j) 8
        (F64.sub (Memory.sample m (srcA s + 8 * (off + j)))
          (F64.mul s.mix (Memory.sample m (srcB s + 8 * (off + j))))).toNat) s.buf

/-! The invariants. -/

/-- The codes that R101 lets ERRCODE hold: NONE and every code but the reserved MISSING_INPUT. -/
def errorCodes : List (BitVec 8) :=
  [0x00, 0x01, 0x02, 0x03, 0x05, 0x10, 0x11, 0x12, 0x13, 0x14, 0x15, 0x16]

/-- The derived parameter registers while PVALID = 0 (R38). -/
def noParams : Params :=
  { amp := 0, bp := 0, br := 0, fOne := 0, fZero := 0, rp := 0, wOne := 0, wZero := 0, red := 0, ss := 0 }

/-- What holds of the block between any two steps. -/
structure Inv (s : State) : Prop where
  /-- BUF is in its canonical form (the model's own) -/
  bufCanonical : Memory.wf s.buf
  /-- BUF has bytes at 0 to MEM_BYTES - 1 only (R49) -/
  bufInRange : ∀ c ∈ s.buf, c.1 < s.memBytes
  /-- every table has SS_MAX entries (R39) -/
  tablesFull : s.tables.taxis.length = ssMax ∧ s.tables.ref1.length = ssMax ∧ s.tables.ref0.length = ssMax ∧
    s.tables.cref1.length = ssMax ∧ s.tables.cref0.length = ssMax
  /-- STATUS.ERR says whether ERRCODE is a failure (R28, R29, R103) -/
  errFlag : s.err = (s.errcode != 0#8)
  /-- ERRCODE holds a code of R101 that is raised -/
  errListed : s.errcode ∈ errorCodes
  /-- LASTOP is the opcode byte of the command held (R28, R47) -/
  lastopHeld : s.phase = .busy → s.lastop = s.pending.extractLsb' 0 8
  /-- a valid parameter set has inputs in range and SS = 2 RED (R38, R76, R78) -/
  paramsLegal : s.pvalid = true →
    ampInRange s.params.amp = true ∧ bpInRange s.params.bp = true ∧ redInRange s.params.red = true ∧
      s.params.ss.toNat = 2 * s.params.red.toNat
  /-- without a valid parameter set the registers are 0 (R38) -/
  paramsAbsent : s.pvalid = false → s.params = noParams

/-- A valid parameter set is whole (R77 to R81): every register and every table entry in use is the one that its
amplitude, bit period and redundancy give. -/
structure ParamsConsistent (s : State) : Prop where
  br : s.pvalid = true → s.params.br = F64.div one s.params.bp
  fOne : s.pvalid = true → s.params.fOne = F64.mul s.params.br (F64.ofNat s.params.red.toNat)
  fZero : s.pvalid = true →
    s.params.fZero = F64.div (F64.mul s.params.br (F64.ofNat s.params.red.toNat)) two
  rp : s.pvalid = true → s.params.rp = F64.div s.params.bp (F64.ofNat (2 * s.params.red.toNat))
  wOne : s.pvalid = true → s.params.wOne = F64.mul twoPi s.params.fOne
  wZero : s.pvalid = true → s.params.wZero = F64.mul twoPi s.params.fZero
  ss : s.pvalid = true → s.params.ss.toNat = 2 * s.params.red.toNat
  taxis : s.pvalid = true → ∀ k < s.params.ss.toNat,
    s.tables.taxis[k]? = some (F64.mul (F64.ofNat k) s.params.rp)
  cref1 : s.pvalid = true → ∀ k < s.params.ss.toNat,
    s.tables.cref1[k]? = some (F64.cos (F64.mul s.params.wOne (F64.mul (F64.ofNat k) s.params.rp)))
  cref0 : s.pvalid = true → ∀ k < s.params.ss.toNat,
    s.tables.cref0[k]? = some (F64.cos (F64.mul s.params.wZero (F64.mul (F64.ofNat k) s.params.rp)))
  ref1 : s.pvalid = true → ∀ k < s.params.ss.toNat,
    s.tables.ref1[k]? = some (F64.mul s.params.amp (entry s.tables.cref1 k))
  ref0 : s.pvalid = true → ∀ k < s.params.ss.toNat,
    s.tables.ref0[k]? = some (F64.mul s.params.amp (entry s.tables.cref0 k))

end Sys2Proof.Safety
end

