-- ==== Sys2Proof/Certificates/Slice0/Obligations.lean ====
section
/-! DEFINITION. The statements for the provers. -/

open Sys2Proof Sys2Proof.Machine Sys2Proof.Safety

/-- Each word of R66's table decodes to its command. The illegal words of vector DV-N2 are refused, by reason. (R66,
R67, R68) -/
def Obligations.CommandWordsDecode : Prop :=
  decodeWord 0x00000000#32 = .ok .nop ∧ decodeWord 0x00000001#32 = .ok .derive ∧
    decodeWord 0x00000002#32 = .ok .mod ∧ decodeWord 0x00000003#32 = .ok .demod ∧
    decodeWord 0x00000004#32 = .ok .embed ∧ decodeWord 0x00000005#32 = .ok .extract ∧
    decodeWord 0x00000006#32 = .error .reservedOpcode ∧ decodeWord 0x000000FF#32 = .error .reservedOpcode ∧
    decodeWord 0x00000102#32 = .error .reservedBits ∧ decodeWord 0x00000100#32 = .error .reservedBits ∧
    decodeWord 0x80000001#32 = .error .reservedBits

/-- For every word v: a nonzero v[31:8] is ILLEGAL; otherwise v[7:0] = 0..5 give NOP, DERIVE, MOD, DEMOD, EMBED,
EXTRACT and every other value is ILLEGAL. (R67) -/
def Obligations.DecodeIsTheOpcodeMap : Prop :=
  ∀ v : Word,
    (v.extractLsb' 8 24 ≠ 0#24 → ∃ e, decodeWord v = .error e) ∧
    (v.extractLsb' 8 24 = 0#24 →
      (v.extractLsb' 0 8 = 0#8 → decodeWord v = .ok .nop) ∧
      (v.extractLsb' 0 8 = 1#8 → decodeWord v = .ok .derive) ∧
      (v.extractLsb' 0 8 = 2#8 → decodeWord v = .ok .mod) ∧
      (v.extractLsb' 0 8 = 3#8 → decodeWord v = .ok .demod) ∧
      (v.extractLsb' 0 8 = 4#8 → decodeWord v = .ok .embed) ∧
      (v.extractLsb' 0 8 = 5#8 → decodeWord v = .ok .extract) ∧
      (5 < (v.extractLsb' 0 8).toNat → ∃ e, decodeWord v = .error e))

/-- For every command i and every word v, decode of v is i exactly when v is encode of i; the well-formedness checks
accept exactly the words that decode. (R64, R66, R67) -/
def Obligations.OnlyItsOwnWordDecodesToACommand : Prop :=
  (∀ (i : Instr) (v : Word), decodeWord v = .ok i ↔ v = encode i) ∧
    ∀ v : Word, wellFormedWord v = true ↔ ∃ i, decodeWord v = .ok i

/-- When PHASE = BUSY and PENDING decodes to i, the step is exec i: with no turns left, with the Engine's turn first
(which is used up), and with a held BUF access, or a loop of STATUS reads that has used up its reads, first (which
stays). The step after withFetchWord is exec i of the accepted state. That the order of turns decides is the model's
choice (log 7). (R47, R57, R67) -/
def Obligations.StepRunsTheHeldCommand : Prop :=
  (∀ (s : State) (i : Instr), s.phase = .busy → decodeWord s.pending = .ok i →
    (s.turns = [] → step s = exec i s) ∧
    (∀ rest, s.turns = .engine :: rest → step s = exec i { s with turns := rest }) ∧
    (∀ rest width addr v, s.turns = .bufWrite width addr v :: rest → step s = exec i s) ∧
    (∀ rest width addr, s.turns = .bufRead width addr :: rest → step s = exec i s) ∧
    (∀ rest, s.turns = .pollStatus 0 :: rest → step s = exec i s)) ∧
  (∀ (s : State) (nbits w : Nat) (i : Instr), decodeTableWord nbits w = some i →
    step (s.withFetchWord nbits w) = exec i (accept (BitVec.ofNat 32 (w % 2 ^ nbits)) s))

/-- While IDLE, the Host's 32-bit write of v to offset 0x020 gives the state with PENDING = v, LASTOP = v[7:0],
PHASE = BUSY; only the model's turn list and reply list change besides. (R34, R47) -/
def Obligations.CommandWriteIsAccepted : Prop :=
  ∀ (s : State) (v : Word) (rest : List Turn), s.phase = .idle → s.turns = .regWrite 4 0x020 v :: rest →
    step s = .next
      { s with
        pending := v
        lastop := v.extractLsb' 0 8
        phase := .busy
        turns := rest
        replies := .written :: s.replies }

/-- While IDLE, a write of a word with a nonzero reserved bit or a reserved opcode is accepted, and the Engine's
next turn completes it: ERRCODE = 0x10, STATUS.ERR = 1, DONE and ERR set, CMDCNT + 1, and everything else as
acceptance left it. Whenever a BUSY block holds a word that decodes to ILLEGAL, the step is that completion: with no
turns left, with the Engine's turn first (which is used up), and with a held BUF access, or a loop of STATUS reads
that has used up its reads, first (which stays). That the order of turns decides is the model's choice (log 7).
(R47, R57, R67, R68) -/
def Obligations.IllegalWordCompletesWithIllegalCmd : Prop :=
  (∀ (s : State) (v : Word) (rest : List Turn), s.phase = .idle →
    s.turns = .regWrite 4 0x020 v :: .engine :: rest →
    (v.extractLsb' 8 24 ≠ 0#24 ∨ 5 < (v.extractLsb' 0 8).toNat) →
    ∃ a, step s = .next a ∧
      step a = .next
        { s with
          pending := v
          lastop := v.extractLsb' 0 8
          phase := .idle
          errcode := 0x10#8
          err := true
          intStatus := s.intStatus ||| 0b11#2
          cmdcnt := s.cmdcnt + 1
          turns := rest
          replies := .written :: s.replies }) ∧
  (∀ (s : State) (e : DecodeError), s.phase = .busy → decodeWord s.pending = .error e →
    let completed :=
      { s with
        phase := .idle, errcode := 0x10#8, err := true, intStatus := s.intStatus ||| 0b11#2, cmdcnt := s.cmdcnt + 1 }
    (s.turns = [] → step s = .next completed) ∧
    (∀ rest, s.turns = .engine :: rest → step s = .next { completed with turns := rest }) ∧
    (∀ rest width addr v, s.turns = .bufWrite width addr v :: rest → step s = .next completed) ∧
    (∀ rest width addr, s.turns = .bufRead width addr :: rest → step s = .next completed) ∧
    (∀ rest, s.turns = .pollStatus 0 :: rest → step s = .next completed))

/-- For every state the step answers a next state, never a fault and never a refusal: a command error completes the
command, a bus error is an answer, arithmetic never traps. (R9, R104, R106) -/
def Obligations.EveryStepAnswersANextState : Prop :=
  ∀ s : State, ∃ t, step s = .next t

/-- exec NOP answers the state with ERRCODE 0, STATUS.ERR 0, DONE set, CMDCNT + 1 and PHASE = IDLE, for every state,
whatever PVALID is; everything else is unchanged. Its word is 0x00000000, LASTOP reads 0x00 after its acceptance,
and no word with OP 0 and nonzero bits 31:8 is NOP. (R100) -/
def Obligations.NopCompletes : Prop :=
  (∀ s : State, exec .nop s = .next
    { s with
      errcode := 0x00#8
      err := false
      intStatus := s.intStatus ||| 0b01#2
      cmdcnt := s.cmdcnt + 1
      phase := .idle }) ∧
  decodeWord 0x00000000#32 = .ok .nop ∧ (∀ s : State, (accept 0x00000000#32 s).lastop = 0x00#8) ∧
  (∀ v : Word, v.extractLsb' 0 8 = 0#8 → v.extractLsb' 8 24 ≠ 0#24 → ∃ e, decodeWord v = .error e)

/-- Whatever command exec runs in whatever state, the next state has STATUS.ERR = 1 exactly when ERRCODE is nonzero,
DONE set, INT_STATUS.ERR set when the code is nonzero and unchanged when it is 0, CMDCNT one more modulo 2^32, and
PHASE = IDLE. ERRCODE is a code of R101. (R103) -/
def Obligations.EveryCommandEndsInComplete : Prop :=
  ∀ (i : Instr) (s t : State), exec i s = .next t →
    t.errcode ∈ errorCodes ∧
    t.err = (t.errcode != 0#8) ∧
    t.intStatus.getLsbD 0 = true ∧
    t.intStatus.getLsbD 1 = (s.intStatus.getLsbD 1 || t.errcode != 0#8) ∧
    t.cmdcnt.toNat = (s.cmdcnt.toNat + 1) % 2 ^ 32 ∧
    t.phase = .idle

/-- Whatever command exec runs, the next state has the same operand registers, AMP_IN, BP_IN, RED_IN, MIX, CTRL,
TBL_SEL, INT_ENABLE, PENDING, LASTOP and MEM_BYTES, and the model's own fields unchanged. (R21, R27, R32, R37, R40,
R42, R43, R47, R103, R126) -/
def Obligations.CommandsLeaveTheirInputsAlone : Prop :=
  ∀ (i : Instr) (s t : State), exec i s = .next t →
    t.operands = s.operands ∧ t.ampIn = s.ampIn ∧ t.bpIn = s.bpIn ∧ t.redIn = s.redIn ∧ t.mix = s.mix ∧
    t.ambpol = s.ambpol ∧ t.valpol = s.valpol ∧ t.tsel = s.tsel ∧ t.tidx = s.tidx ∧
    t.intEnable = s.intEnable ∧ t.pending = s.pending ∧ t.lastop = s.lastop ∧ t.memUnits = s.memUnits ∧
    t.resets = s.resets ∧ t.turns = s.turns ∧ t.replies = s.replies

/-- If a command completes with a nonzero code, BUF, the tables, PVALID and the parameter registers are unchanged;
the result registers and WARN too, unless the code is ALIGNMENT_LOSS (0x05), where only FIRST_AMB and WARN.AMBIG are
written. (R102) -/
def Obligations.FailedCommandDiscardsItsWrites : Prop :=
  ∀ (i : Instr) (s t : State), exec i s = .next t → t.errcode ≠ 0x00#8 →
    t.buf = s.buf ∧ t.tables = s.tables ∧ t.pvalid = s.pvalid ∧ t.params = s.params ∧
    (t.errcode ≠ 0x05#8 → t.results = s.results ∧ t.warn = s.warn) ∧
    (t.errcode = 0x05#8 → i = .demod ∧
      t.results = { s.results with firstAmb := t.results.firstAmb } ∧ t.warn = s.warn ||| 0b01000#5)

/-- Every command but DERIVE leaves the parameter registers, the tables and PVALID unchanged; DERIVE leaves every
byte of BUF and the result registers unchanged. (R38, R62, R75, R86) -/
def Obligations.OnlyDeriveWritesTheParameterSet : Prop :=
  (∀ (i : Instr) (s t : State), i ≠ .derive → exec i s = .next t →
    t.params = s.params ∧ t.tables = s.tables ∧ t.pvalid = s.pvalid) ∧
  (∀ s t : State, exec .derive s = .next t →
    (∀ a, Memory.read t.buf a = Memory.read s.buf a) ∧ t.results = s.results)

/-- When VALPOL = SUBSTITUTE or all three inputs are in range, DERIVE completes with code 0, PVALID = 1, and with a,
b, r the inputs or the defaults: BR = 1.0/b, F_ONE = BR*r, F_ZERO = (BR*r)/2.0, RP = b/(2r), W = TWO_PI*F, SS = 2r,
and for k < SS the table entries of R80; the entries from SS on, BUF, the results and all other registers are
unchanged; WARN gains the bit of each replaced input. (R75, R76, R77, R78, R79, R80) -/
def Obligations.DeriveWritesTheParameterSet : Prop :=
  ∀ s : State, DeriveRuns s →
    ∃ t, exec .derive s = .next t ∧
      (let a := if ampInRange s.ampIn then s.ampIn else defAmp
       let b := if bpInRange s.bpIn then s.bpIn else defBp
       let r := if redInRange s.redIn then s.redIn.toNat else 2
       t.params.amp = a ∧ t.params.bp = b ∧ t.params.br = F64.div one b ∧
       t.params.fOne = F64.mul (F64.div one b) (F64.ofNat r) ∧
       t.params.fZero = F64.div (F64.mul (F64.div one b) (F64.ofNat r)) two ∧
       t.params.rp = F64.div b (F64.ofNat (2 * r)) ∧
       t.params.wOne = F64.mul twoPi t.params.fOne ∧ t.params.wZero = F64.mul twoPi t.params.fZero ∧
       t.params.red.toNat = r ∧ t.params.ss.toNat = 2 * r ∧
       (∀ k < 2 * r,
         t.tables.taxis[k]? = some (F64.mul (F64.ofNat k) t.params.rp) ∧
         t.tables.cref1[k]? = some (F64.cos (F64.mul t.params.wOne (F64.mul (F64.ofNat k) t.params.rp))) ∧
         t.tables.cref0[k]? = some (F64.cos (F64.mul t.params.wZero (F64.mul (F64.ofNat k) t.params.rp))) ∧
         t.tables.ref1[k]? = some (F64.mul a (entry t.tables.cref1 k)) ∧
         t.tables.ref0[k]? = some (F64.mul a (entry t.tables.cref0 k))) ∧
       (∀ k, 2 * r ≤ k →
         (k < s.tables.taxis.length → t.tables.taxis[k]? = s.tables.taxis[k]?) ∧
         (k < s.tables.cref1.length → t.tables.cref1[k]? = s.tables.cref1[k]?) ∧
         (k < s.tables.cref0.length → t.tables.cref0[k]? = s.tables.cref0[k]?) ∧
         (k < s.tables.ref1.length → t.tables.ref1[k]? = s.tables.ref1[k]?) ∧
         (k < s.tables.ref0.length → t.tables.ref0[k]? = s.tables.ref0[k]?))) ∧
      t.warn = s.warn ||| (if ampInRange s.ampIn then 0#5 else 0b00001#5) |||
        (if bpInRange s.bpIn then 0#5 else 0b00010#5) ||| (if redInRange s.redIn then 0#5 else 0b00100#5) ∧
      t = complete 0x00#8
        { s with params := t.params, tables := t.tables, pvalid := true, warn := t.warn }

/-- When VALPOL = REJECT and some input is out of its range, DERIVE completes with code 0x01; the parameters, the
tables, PVALID, WARN and everything else but the completion's registers are unchanged. (R75, R76, R81) -/
def Obligations.DeriveRejectsInputsOutOfRange : Prop :=
  ∀ s : State, s.valpol = true → ¬ InputsInRange s → exec .derive s = .next (complete 0x01#8 s)

/-- An amplitude is in range exactly when it is finite with value in (0, 1]; a bit period exactly when it is finite
with value between those of R15's patterns 0x3EA0C6F7A0B5ED8D (BP_MIN) and 0x3FB999999999999A (BP_MAX); a redundancy
exactly when RED_IN read signed is from 2 to 100. A NaN and an infinity are out of range. The other constants of R15
that the commands use have R15's patterns too, and TWO_PI is exactly twice PI64. (R11, R15, R75, R76) -/
def Obligations.RangeChecksAreTheDocumentedRanges : Prop :=
  (∀ a : F64, ampInRange a = true ↔ F64.finite a = true ∧ 0 < F64.toRat a ∧ F64.toRat a ≤ 1) ∧
  (∀ b : F64, bpInRange b = true ↔
    F64.finite b = true ∧ F64.toRat 0x3EA0C6F7A0B5ED8D#64 ≤ F64.toRat b ∧
      F64.toRat b ≤ F64.toRat 0x3FB999999999999A#64) ∧
  (∀ r : Word, redInRange r = true ↔ 2 ≤ r.toInt ∧ r.toInt ≤ 100) ∧
  bpMin = 0x3EA0C6F7A0B5ED8D#64 ∧ bpMax = 0x3FB999999999999A#64 ∧ ampMax = 0x3FF0000000000000#64 ∧
  defAmp = 0x3F1A36E2EB1C432D#64 ∧ defBp = 0x3EF7C6F8C751F177#64 ∧ defRed = 2 ∧
  mixDef = 0x3FD0000000000000#64 ∧ twoPi = 0x401921FB54442D18#64 ∧
  F64.toRat twoPi = 2 * F64.toRat 0x400921FB54442D18#64

/-- Whenever DERIVE completes with code 0, 2.0 * F_ZERO in binary64 is F_ONE bit for bit, and F_ZERO < F_ONE (R82
item 1). (R82) -/
def Obligations.DerivedToneFrequencies : Prop :=
  ∀ s t : State, exec .derive s = .next t → t.errcode = 0x00#8 →
    F64.mul two t.params.fZero = t.params.fOne ∧ F64.lt t.params.fZero t.params.fOne = true

/-- Whenever DERIVE completes with code 0, the first entries of the five tables are +0.0, 1.0, 1.0, AMP and AMP (R82
item 3). (R82) -/
def Obligations.DerivedTablesStartAtPhaseZero : Prop :=
  ∀ s t : State, exec .derive s = .next t → t.errcode = 0x00#8 →
    t.tables.taxis[0]? = some posZero ∧ t.tables.cref1[0]? = some one ∧ t.tables.cref0[0]? = some one ∧
    t.tables.ref1[0]? = some t.params.amp ∧ t.tables.ref0[0]? = some t.params.amp

/-- When PVALID = 1 and the regions are in range, aligned and apart, MOD completes with code 0, OUT_LEN = N*SS,
sample j of the destination equal to entry j mod SS of REF1 or REF0 by bit j div SS of the source; every byte
outside the N*SS samples reads as before, and everything else but OUT_LEN and the completion's registers is
unchanged. (R83, R84, R85) -/
def Obligations.ModWritesOneSegmentPerBit : Prop :=
  ∀ s : State, ModRuns s →
    ∃ t, exec .mod s = .next t ∧
      t.results.outLen = BitVec.ofNat 32 (lenA s * ss s) ∧
      (∀ j < lenA s * ss s,
        Memory.sample t.buf (dst s + 8 * j) =
          if Memory.bit s.buf (srcA s) (j / ss s) then entry s.tables.ref1 (j % ss s)
          else entry s.tables.ref0 (j % ss s)) ∧
      (∀ a, (a < dst s ∨ dst s + 8 * (lenA s * ss s) ≤ a) → Memory.read t.buf a = Memory.read s.buf a) ∧
      t = complete 0x00#8
        { s with buf := t.buf, results := { s.results with outLen := t.results.outLen } }

/-- When MOD runs on a canonical BUF, it completes with BUF as R83's two nested loops leave it, each PutSample and
each MemRead acting on the memory that the earlier stores left, and OUT_LEN = N*SS; nothing else changes but the
completion's registers. (R17, R58, R83) -/
def Obligations.ModFollowsItsPseudocode : Prop :=
  ∀ s : State, Memory.wf s.buf → ModRuns s →
    exec .mod s = .next (complete 0x00#8
      { s with
        buf := loopMod s
        results := { s.results with outLen := BitVec.ofNat 32 (lenA s * ss s) } })

/-- If two states let MOD run with the same N, SS, REF1 and REF0 and their source bits agree, both complete and
sample j of the two destinations is the same pattern for every j < N*SS, whatever else differs (addresses, BUF
elsewhere, other registers). (R70, R86) -/
def Obligations.ModDependsOnlyOnItsInputs : Prop :=
  ∀ s u : State, ModRuns s → ModRuns u → s.operands.lenA = u.operands.lenA → s.params.ss = u.params.ss →
    s.tables.ref1 = u.tables.ref1 → s.tables.ref0 = u.tables.ref0 →
    (∀ i < lenA s, Memory.bit s.buf (srcA s) i = Memory.bit u.buf (srcA u) i) →
    ∃ s' u', exec .mod s = .next s' ∧ exec .mod u = .next u' ∧ s'.results.outLen = u'.results.outLen ∧
      ∀ j < lenA s * ss s,
        Memory.sample s'.buf (dst s + 8 * j) = Memory.sample u'.buf (dst u + 8 * j)

/-- The first of MOD's checks that fails decides the code (0x11, 0x12, 0x12, 0x13, 0x14); nothing but the
completion's registers changes. (R56, R83, R105) -/
def Obligations.ModRaisesTheFirstError : Prop :=
  ∀ s : State,
    (s.pvalid = false → exec .mod s = .next (complete 0x11#8 s)) ∧
    (s.pvalid = true →
      (¬ InBuf s (srcA s) (ceil8 (lenA s)) → exec .mod s = .next (complete 0x12#8 s)) ∧
      (InBuf s (srcA s) (ceil8 (lenA s)) →
        (¬ InBuf s (dst s) (8 * (lenA s * ss s)) → exec .mod s = .next (complete 0x12#8 s)) ∧
        (InBuf s (dst s) (8 * (lenA s * ss s)) →
          (¬ Aligned8 (dst s) (8 * (lenA s * ss s)) → exec .mod s = .next (complete 0x13#8 s)) ∧
          (Aligned8 (dst s) (8 * (lenA s * ss s)) →
            ¬ Apart (srcA s) (ceil8 (lenA s)) (dst s) (8 * (lenA s * ss s)) →
            exec .mod s = .next (complete 0x14#8 s)))))

/-- When DEMOD's first checks pass on a canonical BUF, and AMBPOL is not ABORT or no window is ambiguous, it
completes with code 0, BUF as R87's byte loop leaves it, OUT_LEN, NWIN, AMB_COUNT, FIRST_AMB from R87's loop over
the windows, WARN.AMBIG set when a window was ambiguous; DESC_WIDTH, OFFSET and everything else but the completion's
registers unchanged. The statistics of each window are those of R89's loop over k, written out as loopTrapz, and of
R90's expression, written out as statOf. (R87, R88, R89, R90, R91, R92, R115) -/
def Obligations.DemodFollowsItsPseudocode : Prop :=
  ∀ s : State, Memory.wf s.buf → DemodStarts s → (s.ambpol ≠ 3#2 ∨ (loopDemod s).amb = 0) →
    exec .demod s = .next (complete 0x00#8
      { s with
        buf := loopPack s (loopDemod s).out
        warn := if (loopDemod s).amb = 0 then s.warn else s.warn ||| 0b01000#5
        results :=
          { s.results with
            outLen := BitVec.ofNat 32 (loopDemod s).out.length
            nwin := BitVec.ofNat 32 (lenA s / ss s)
            ambCount := BitVec.ofNat 32 (loopDemod s).amb
            firstAmb := (loopDemod s).first } })

/-- When DEMOD's first checks pass and no window is ambiguous, it completes under every AMBPOL with OUT_LEN = NWIN =
M div SS, AMB_COUNT = 0, FIRST_AMB = 0xFFFFFFFF; bit w of the destination is 1 exactly when N_ONE > AMP/2.0 for
window w; the unused bits of the last byte are 0; every other byte of BUF reads as before and everything else is
unchanged. (R55, R87, R88, R89, R90, R91) -/
def Obligations.DemodDecidesEachWindowAlone : Prop :=
  ∀ s : State, DemodStarts s → (∀ w < lenA s / ss s, ¬ Ambiguous s w) →
    ∃ t, exec .demod s = .next t ∧
      (∀ w < lenA s / ss s,
        Memory.bit t.buf (dst s) w = F64.gt (statOne s w) (F64.div s.params.amp two)) ∧
      (∀ w, lenA s / ss s ≤ w → w < 8 * ceil8 (lenA s / ss s) → Memory.bit t.buf (dst s) w = false) ∧
      (∀ a, (a < dst s ∨ dst s + ceil8 (lenA s / ss s) ≤ a) → Memory.read t.buf a = Memory.read s.buf a) ∧
      t = complete 0x00#8
        { s with
          buf := t.buf
          results :=
            { s.results with
              outLen := BitVec.ofNat 32 (lenA s / ss s)
              nwin := BitVec.ofNat 32 (lenA s / ss s)
              ambCount := 0
              firstAmb := 0xFFFFFFFF } }

/-- When DEMOD's first checks pass, AMBPOL = ABORT, and w is the first ambiguous window, DEMOD completes with code
0x05, FIRST_AMB = w, WARN.AMBIG set; BUF, the other result registers and everything else but the completion's
registers are unchanged. (R87, R89, R90, R91, R92, R102, R108) -/
def Obligations.DemodAbortsAtTheFirstAmbiguousWindow : Prop :=
  ∀ (s : State) (w : Nat), DemodStarts s → s.ambpol = 3#2 → w < lenA s / ss s → Ambiguous s w →
    (∀ v < w, ¬ Ambiguous s v) →
    exec .demod s = .next (complete 0x05#8
      { s with
        warn := s.warn ||| 0b01000#5
        results := { s.results with firstAmb := BitVec.ofNat 32 w } })

/-- The first of DEMOD's checks before the windows that fails decides the code (0x11, 0x12, 0x13, 0x12, 0x14);
nothing but the completion's registers changes. (R56, R87, R105) -/
def Obligations.DemodRaisesTheFirstError : Prop :=
  ∀ s : State,
    (s.pvalid = false → exec .demod s = .next (complete 0x11#8 s)) ∧
    (s.pvalid = true →
      (¬ InBuf s (srcA s) (8 * lenA s) → exec .demod s = .next (complete 0x12#8 s)) ∧
      (InBuf s (srcA s) (8 * lenA s) →
        (¬ Aligned8 (srcA s) (8 * lenA s) → exec .demod s = .next (complete 0x13#8 s)) ∧
        (Aligned8 (srcA s) (8 * lenA s) →
          (¬ InBuf s (dst s) (ceil8 (lenA s / ss s)) → exec .demod s = .next (complete 0x12#8 s)) ∧
          (InBuf s (dst s) (ceil8 (lenA s / ss s)) →
            ¬ Apart (srcA s) (8 * lenA s) (dst s) (ceil8 (lenA s / ss s)) →
            exec .demod s = .next (complete 0x14#8 s)))))

/-- For every valid AMP, every correlation Z and every BP, the normalised statistic N = |ceil((2.0*Z)/BP)| is
greater than AMP/2.0 exactly when it is at least 1.0 (R93 item 1). (R90, R91, R93) -/
def Obligations.DemodThresholdIsOne : Prop :=
  ∀ amp z bp : F64, ampInRange amp = true →
    F64.gt (normalised z bp) (F64.div amp two) = F64.le one (normalised z bp)

/-- When EMBED's preconditions and region checks hold and off is the rounded offset, EMBED completes with code 0,
OUT_LEN = H, DESC_WIDTH = L, OFFSET = off, output sample i equal to z + MIX * host[i] with z = payload[i-off] inside
[off, off+L) and +0.0 outside; every byte outside the H samples reads as before and everything else is unchanged.
(R95, R96, R99) -/
def Obligations.EmbedMixesThePayloadIntoTheHost : Prop :=
  ∀ (s : State) (off : Nat), EmbedRuns s off →
    ∃ t, exec .embed s = .next t ∧
      (∀ i < lenA s,
        Memory.sample t.buf (dst s + 8 * i) =
          F64.add
            (if off ≤ i ∧ i < off + lenB s then Memory.sample s.buf (srcB s + 8 * (i - off)) else posZero)
            (F64.mul s.mix (Memory.sample s.buf (srcA s + 8 * i)))) ∧
      (∀ a, (a < dst s ∨ dst s + 8 * lenA s ≤ a) → Memory.read t.buf a = Memory.read s.buf a) ∧
      t = complete 0x00#8
        { s with
          buf := t.buf
          results :=
            { s.results with
              outLen := s.operands.lenA
              descWidth := s.operands.lenB
              offset := BitVec.ofNat 32 off } }

/-- When EMBED runs on a canonical BUF, it completes with BUF as R95's loop leaves it, each Sample read from the
memory that the earlier stores left; OUT_LEN = H, DESC_WIDTH = L, OFFSET = off; nothing else changes but the
completion's registers. (R17, R58, R95) -/
def Obligations.EmbedFollowsItsPseudocode : Prop :=
  ∀ (s : State) (off : Nat), Memory.wf s.buf → EmbedRuns s off →
    exec .embed s = .next (complete 0x00#8
      { s with
        buf := loopEmbed s off
        results :=
          { s.results with
            outLen := s.operands.lenA
            descWidth := s.operands.lenB
            offset := BitVec.ofNat 32 off } })

/-- The first of EMBED's checks that fails decides the code: 0x02, 0x03, 0x03, 0x15, then range and alignment of
host, payload and destination (0x12, 0x13 each), then OVERLAP 0x14; nothing but the completion's registers changes.
(R56, R94, R95, R105) -/
def Obligations.EmbedRaisesTheFirstError : Prop :=
  ∀ s : State,
    let fails := fun code : BitVec 8 => exec .embed s = .next (complete code s)
    (s.operands.rateA ≠ s.operands.rateB → fails 0x02#8) ∧
    (s.operands.rateA = s.operands.rateB →
      (lenA s < lenB s → fails 0x03#8) ∧
      (lenB s ≤ lenA s →
        (F64.le (F64.add (locProduct s) (F64.ofNat (lenB s))) (F64.ofNat (lenA s)) = false → fails 0x03#8) ∧
        (F64.le (F64.add (locProduct s) (F64.ofNat (lenB s))) (F64.ofNat (lenA s)) = true →
          (F64.finite (locProduct s) = false ∨ F64.rne (locProduct s) < 0 → fails 0x15#8) ∧
          (F64.finite (locProduct s) = true ∧ 0 ≤ F64.rne (locProduct s) →
            (¬ InBuf s (srcA s) (8 * lenA s) → fails 0x12#8) ∧
            (InBuf s (srcA s) (8 * lenA s) →
              (¬ Aligned8 (srcA s) (8 * lenA s) → fails 0x13#8) ∧
              (Aligned8 (srcA s) (8 * lenA s) →
                (¬ InBuf s (srcB s) (8 * lenB s) → fails 0x12#8) ∧
                (InBuf s (srcB s) (8 * lenB s) →
                  (¬ Aligned8 (srcB s) (8 * lenB s) → fails 0x13#8) ∧
                  (Aligned8 (srcB s) (8 * lenB s) →
                    (¬ InBuf s (dst s) (8 * lenA s) → fails 0x12#8) ∧
                    (InBuf s (dst s) (8 * lenA s) →
                      (¬ Aligned8 (dst s) (8 * lenA s) → fails 0x13#8) ∧
                      (Aligned8 (dst s) (8 * lenA s) →
                        ¬ (Apart (srcA s) (8 * lenA s) (dst s) (8 * lenA s) ∧
                            Apart (srcB s) (8 * lenB s) (dst s) (8 * lenA s)) → fails 0x14#8))))))))))

/-- For lengths below 2^32, when the unrounded capacity test x + L <= H holds in binary64 and the location rounds to
the offset off, then off + L <= H (R95's first corner case). (R14, R94, R95) -/
def Obligations.EmbeddedPayloadFitsTheHost : Prop :=
  ∀ (loc : F64) (rate len cap off : Nat), len < 2 ^ 32 → cap < 2 ^ 32 →
    capacityHolds loc rate len cap = true → location loc rate = .ok off → off + len ≤ cap

/-- When EXTRACT's checks hold and off is the rounded offset, EXTRACT completes with code 0, OUT_LEN = WIDTH, OFFSET
= off, DESC_WIDTH unchanged, output sample j equal to mixed[off+j] - MIX * host[off+j]; every byte outside the WIDTH
samples reads as before and everything else is unchanged. (R97, R99) -/
def Obligations.ExtractSubtractsTheHost : Prop :=
  ∀ (s : State) (off : Nat), ExtractRuns s off →
    ∃ t, exec .extract s = .next t ∧
      (∀ j < width s,
        Memory.sample t.buf (dst s + 8 * j) =
          F64.sub (Memory.sample s.buf (srcA s + 8 * (off + j)))
            (F64.mul s.mix (Memory.sample s.buf (srcB s + 8 * (off + j))))) ∧
      (∀ a, (a < dst s ∨ dst s + 8 * width s ≤ a) → Memory.read t.buf a = Memory.read s.buf a) ∧
      t = complete 0x00#8
        { s with
          buf := t.buf
          results := { s.results with outLen := s.operands.width, offset := BitVec.ofNat 32 off } }

/-- When EXTRACT runs on a canonical BUF, it completes with BUF as R97's loop leaves it, each Sample read from the
memory that the earlier stores left; OUT_LEN = WIDTH, OFFSET = off; nothing else changes but the completion's
registers. (R17, R58, R97) -/
def Obligations.ExtractFollowsItsPseudocode : Prop :=
  ∀ (s : State) (off : Nat), Memory.wf s.buf → ExtractRuns s off →
    exec .extract s = .next (complete 0x00#8
      { s with
        buf := loopExtract s off
        results := { s.results with outLen := s.operands.width, offset := BitVec.ofNat 32 off } })

/-- The first of EXTRACT's checks that fails decides the code: 0x02, 0x16, 0x15, 0x03 when off + WIDTH > LEN_A, then
range and alignment of the mixed buffer, the host and the destination (0x12, 0x13 each), then OVERLAP 0x14; nothing
but the completion's registers changes. (R56, R94, R97, R98, R105) -/
def Obligations.ExtractRaisesTheFirstError : Prop :=
  ∀ s : State,
    let fails := fun code : BitVec 8 => exec .extract s = .next (complete code s)
    (s.operands.rateA ≠ s.operands.rateB → fails 0x02#8) ∧
    (s.operands.rateA = s.operands.rateB →
      (s.operands.lenA ≠ s.operands.lenB → fails 0x16#8) ∧
      (s.operands.lenA = s.operands.lenB →
        (F64.finite (locProduct s) = false ∨ F64.rne (locProduct s) < 0 → fails 0x15#8) ∧
        (∀ off : Nat, F64.finite (locProduct s) = true → F64.rne (locProduct s) = (off : Int) →
          (lenA s < off + width s → fails 0x03#8) ∧
          (off + width s ≤ lenA s →
            (¬ InBuf s (srcA s) (8 * lenA s) → fails 0x12#8) ∧
            (InBuf s (srcA s) (8 * lenA s) →
              (¬ Aligned8 (srcA s) (8 * lenA s) → fails 0x13#8) ∧
              (Aligned8 (srcA s) (8 * lenA s) →
                (¬ InBuf s (srcB s) (8 * lenB s) → fails 0x12#8) ∧
                (InBuf s (srcB s) (8 * lenB s) →
                  (¬ Aligned8 (srcB s) (8 * lenB s) → fails 0x13#8) ∧
                  (Aligned8 (srcB s) (8 * lenB s) →
                    (¬ InBuf s (dst s) (8 * width s) → fails 0x12#8) ∧
                    (InBuf s (dst s) (8 * width s) →
                      (¬ Aligned8 (dst s) (8 * width s) → fails 0x13#8) ∧
                      (Aligned8 (dst s) (8 * width s) →
                        ¬ (Apart (srcA s) (8 * lenA s) (dst s) (8 * width s) ∧
                            Apart (srcB s) (8 * lenB s) (dst s) (8 * width s)) → fails 0x14#8))))))))))

/-- For finite p and q whose binary64 sum is finite and exact, (p + q) - q has the value of p (R99 item 2, with q =
MIX*host). (R97, R99) -/
def Obligations.ExtractInvertsAnExactMix : Prop :=
  ∀ p q : F64, F64.finite p = true → F64.finite q = true → F64.finite (F64.add p q) = true →
    F64.toRat (F64.add p q) = F64.toRat p + F64.toRat q →
    F64.finite (F64.sub (F64.add p q) q) = true ∧ F64.toRat (F64.sub (F64.add p q) q) = F64.toRat p

/-- For finite x and y each of add, sub, mul and (for y not zero) div is the exact rational result rounded to the
nearest binary64 value, ties to even, subnormals kept, overflow to the infinity of the sign; a product's and a
quotient's sign is the exclusive or of the operands' signs; an exact zero sum is +0.0 unless both operands are -0.0;
equal values subtract to +0.0, but -0.0 minus +0.0 is -0.0. R9 fixes the rounding; the clauses on signs and the
reading of the patterns are the standard's (log 10, PRESUMED). (R9) -/
def Obligations.ArithmeticIsCorrectlyRounded : Prop :=
  ∀ x y : F64, F64.finite x = true → F64.finite y = true →
    F64.RoundsTo ((F64.toRat x + F64.toRat y : ℚ) : ℝ) (F64.add x y) ∧
    F64.RoundsTo ((F64.toRat x - F64.toRat y : ℚ) : ℝ) (F64.sub x y) ∧
    F64.RoundsTo ((F64.toRat x * F64.toRat y : ℚ) : ℝ) (F64.mul x y) ∧
    (F64.toRat y ≠ 0 → F64.RoundsTo ((F64.toRat x / F64.toRat y : ℚ) : ℝ) (F64.div x y)) ∧
    F64.negative (F64.mul x y) = (F64.negative x != F64.negative y) ∧
    (F64.toRat y ≠ 0 → F64.negative (F64.div x y) = (F64.negative x != F64.negative y)) ∧
    (F64.toRat x + F64.toRat y = 0 →
      F64.add x y = if F64.negative x && F64.negative y then negZero else posZero) ∧
    (F64.toRat x = F64.toRat y →
      F64.sub x y = if F64.negative x && !F64.negative y then negZero else posZero)

/-- R9 names the standard and not these results: each of them is taken from it (log 10, PRESUMED). inf plus or minus
a finite, and a finite plus inf, are that infinity, a finite minus inf is the opposite one; inf plus a like infinity
is that infinity; inf - inf, 0 * inf, inf * 0, inf/inf and 0/0 give CNAN; inf times a nonzero finite in either
order, inf divided by a finite, and a nonzero finite over zero, are the infinity of the combined sign; a finite over
inf is a zero of the combined sign. (R9, R10) -/
def Obligations.SpecialOperandsFollowIEEE : Prop :=
  ∀ x y : F64,
    let s := F64.negative x != F64.negative y
    (F64.isInf x = true → F64.finite y = true →
      F64.add x y = x ∧ F64.add y x = x ∧ F64.sub x y = x ∧ F64.sub y x = F64.infinity (!F64.negative x)) ∧
    (F64.isInf x = true → F64.isInf y = true →
      F64.add x y = (if s then cnan else x) ∧ F64.sub x y = (if s then x else cnan) ∧
      F64.mul x y = F64.infinity s ∧ F64.div x y = cnan) ∧
    (F64.isInf x = true → F64.finite y = true →
      F64.mul x y = (if F64.toRat y = 0 then cnan else F64.infinity s) ∧
      F64.mul y x = (if F64.toRat y = 0 then cnan else F64.infinity s) ∧
      F64.div x y = F64.infinity s ∧ F64.div y x = F64.zero s) ∧
    (F64.finite x = true → F64.finite y = true → F64.toRat y = 0 →
      F64.div x y = if F64.toRat x = 0 then cnan else F64.infinity s)

/-- Whatever the operands, a NaN result of add, sub, mul, div, ceil or cos is 0x7FF8000000000000, and a NaN operand
always gives that result. (R10, R13) -/
def Obligations.NaNResultsAreCanonical : Prop :=
  ∀ x y : F64,
    (∀ z ∈ [F64.add x y, F64.sub x y, F64.mul x y, F64.div x y, F64.ceil x, F64.cos x],
      F64.isNaN z = true → z = 0x7FF8000000000000#64) ∧
    (F64.isNaN x = true ∨ F64.isNaN y = true →
      ∀ z ∈ [F64.add x y, F64.sub x y, F64.mul x y, F64.div x y], z = 0x7FF8000000000000#64) ∧
    (F64.isNaN x = true → F64.ceil x = 0x7FF8000000000000#64 ∧ F64.cos x = 0x7FF8000000000000#64)

/-- On operands that are no NaN each of lt, le, gt, ge, eq compares the values, an infinity standing below or above
every finite value and equal to itself only; on finite operands these are the comparisons of the rational values (so
+0.0 == -0.0); a NaN operand makes each false; finite is false exactly on infinities and NaNs. (R11) -/
def Obligations.ComparisonsAreIEEE : Prop :=
  (∀ x y : F64, F64.isNaN x = false → F64.isNaN y = false →
    (F64.lt x y = true ↔ F64.toExtended x < F64.toExtended y) ∧
    (F64.le x y = true ↔ F64.toExtended x ≤ F64.toExtended y) ∧
    (F64.gt x y = true ↔ F64.toExtended y < F64.toExtended x) ∧
    (F64.ge x y = true ↔ F64.toExtended y ≤ F64.toExtended x) ∧
    (F64.eq x y = true ↔ F64.toExtended x = F64.toExtended y)) ∧
  F64.toExtended (F64.infinity true) = ⊥ ∧
  F64.toExtended (F64.infinity false) = ((⊤ : WithTop ℚ) : WithBot (WithTop ℚ)) ∧
  (∀ x y : F64, F64.finite x = true → F64.finite y = true →
    (F64.lt x y = true ↔ F64.toRat x < F64.toRat y) ∧ (F64.le x y = true ↔ F64.toRat x ≤ F64.toRat y) ∧
    (F64.gt x y = true ↔ F64.toRat y < F64.toRat x) ∧ (F64.ge x y = true ↔ F64.toRat y ≤ F64.toRat x) ∧
    (F64.eq x y = true ↔ F64.toRat x = F64.toRat y)) ∧
  (∀ x : F64, F64.finite x = true →
    F64.lt (F64.infinity true) x = true ∧ F64.lt x (F64.infinity false) = true ∧
    F64.lt x (F64.infinity true) = false ∧ F64.lt (F64.infinity false) x = false ∧
    F64.le (F64.infinity false) x = false ∧ F64.le x (F64.infinity true) = false ∧
    F64.gt (F64.infinity false) x = true ∧ ∀ b, F64.eq x (F64.infinity b) = false) ∧
  F64.lt (F64.infinity true) (F64.infinity false) = true ∧
  (∀ b, F64.lt (F64.infinity b) (F64.infinity b) = false ∧ F64.eq (F64.infinity b) (F64.infinity b) = true ∧
    F64.le (F64.infinity b) (F64.infinity b) = true) ∧
  (∀ x y : F64, F64.isNaN x = true ∨ F64.isNaN y = true →
    F64.lt x y = false ∧ F64.le x y = false ∧ F64.gt x y = false ∧ F64.ge x y = false ∧ F64.eq x y = false) ∧
  F64.eq posZero negZero = true ∧
  (∀ x : F64, F64.finite x = false ↔ F64.isInf x = true ∨ F64.isNaN x = true)

/-- For finite x, ceil x is finite with value the ceiling of x and keeps the sign of x when that value is 0; the
ceiling of an infinity is itself and of a NaN CNAN; abs clears the sign bit, so it has the magnitude of x, and abs
of a NaN is a NaN; i2f of n below 2^53 is finite with value n. (R12) -/
def Obligations.CeilAbsAndConversionAreExact : Prop :=
  (∀ x : F64, F64.finite x = true →
    F64.finite (F64.ceil x) = true ∧ F64.toRat (F64.ceil x) = (⌈F64.toRat x⌉ : ℚ) ∧
    (⌈F64.toRat x⌉ = 0 → F64.negative (F64.ceil x) = F64.negative x) ∧
    F64.finite (F64.abs x) = true ∧ F64.toRat (F64.abs x) = |F64.toRat x|) ∧
  (∀ b, F64.ceil (F64.infinity b) = F64.infinity b) ∧
  (∀ x : F64, F64.isNaN x = true → F64.ceil x = cnan ∧ F64.isNaN (F64.abs x) = true) ∧
  (∀ (x : F64) (i : Nat), (F64.abs x).getLsbD i = (x.getLsbD i && decide (i < 63))) ∧
  (∀ n : Nat, n < 2 ^ 53 → F64.finite (F64.ofNat n) = true ∧ F64.toRat (F64.ofNat n) = (n : ℚ))

/-- For every finite x, rne x differs from the value of x by at most one half, and by exactly one half only when it
is even; rne of 2.5, 3.5, -0.5 and -0.7 is 2, 4, 0 and -1. (R14) -/
def Obligations.RneIsNearestIntegerTiesToEven : Prop :=
  (∀ x : F64, F64.finite x = true →
    |F64.toRat x - (F64.rne x : ℚ)| ≤ 1 / 2 ∧ (|F64.toRat x - (F64.rne x : ℚ)| = 1 / 2 → F64.rne x % 2 = 0)) ∧
  F64.rne 0x4004000000000000#64 = 2 ∧ F64.rne 0x400C000000000000#64 = 4 ∧ F64.rne 0xBFE0000000000000#64 = 0 ∧
  F64.rne 0xBFE6666666666666#64 = -1

/-- For every working precision and every argument of u units of 2^-1074, the two integers of cosEnclosure lie on
either side of 2^p cos(u 2^-1074), where p is the scale. The enclosure is the model's own way to R13's cosine, which
names no method (log 9, DEDUCED). (R13) -/
def Obligations.CosineEnclosureHolds : Prop :=
  ∀ prec u : Nat,
    ((F64.cosEnclosure prec u).lo : ℝ) ≤ 2 ^ F64.cosScale prec u * Real.cos ((u : ℝ) / 2 ^ 1074) ∧
    2 ^ F64.cosScale prec u * Real.cos ((u : ℝ) / 2 ^ 1074) ≤ ((F64.cosEnclosure prec u).hi : ℝ)

/-- For every finite x, cos x is the binary64 value nearest to the real cosine of the value of x, ties to even; cos
of an infinity or a NaN is CNAN. (R13) -/
def Obligations.CosineIsCorrectlyRounded : Prop :=
  (∀ x : F64, F64.finite x = true → F64.NearestEven (Real.cos (F64.toRat x : ℝ)) (F64.cos x)) ∧
  (∀ x : F64, F64.finite x = false → F64.cos x = 0x7FF8000000000000#64)

/-- If Inv holds and the step answers a next state, Inv holds of it: BUF canonical and within MEM_BYTES, tables of
200 entries, STATUS.ERR consistent with ERRCODE, ERRCODE a raised code, LASTOP the opcode of a held command, a valid
parameter set in range with SS = 2 RED, zero parameter registers without one. The canonical form of BUF is the
model's own. (R28, R38, R39, R49, R101, R103) -/
def Obligations.EveryStepKeepsTheInvariant : Prop :=
  ∀ s t : State, Inv s → step s = .next t → Inv t

/-- For every MEM_BYTES that R6 allows and every canonical BUF_INIT within it, the state after power-on meets Inv
and ParamsConsistent; MEM_BYTES is a multiple of 8 from 4096 to 2^31. (R6, R118, R119) -/
def Obligations.PowerOnMeetsTheInvariant : Prop :=
  ∀ (n : Fin Config.memUnitCount) (init : Memory), Memory.wf init →
    (∀ c ∈ init, c.1 < (State.afterPowerOn n init).memBytes) →
    Inv (State.afterPowerOn n init) ∧ ParamsConsistent (State.afterPowerOn n init) ∧
    (State.afterPowerOn n init).memBytes % 8 = 0 ∧ 4096 ≤ (State.afterPowerOn n init).memBytes ∧
    (State.afterPowerOn n init).memBytes ≤ 2 ^ 31

/-- If, whenever PVALID = 1, every derived register and every table entry in use is the one that AMP, BP and RED
give, then the same holds after any step. (R77, R78, R79, R80, R81) -/
def Obligations.EveryStepKeepsTheParameterSetWhole : Prop :=
  ∀ s t : State, ParamsConsistent s → step s = .next t → ParamsConsistent t

/-- Every step leaves the parameter MEM_BYTES as it is, and a register read of offset 0x028 returns it. That the
parameter is carried in State is the model's choice (log 1). (R6, R36) -/
def Obligations.MemBytesIsFixed : Prop :=
  (∀ s t : State, step s = .next t → t.memBytes = s.memBytes) ∧
  (∀ s : State, (readOffset 0x028 s).toNat = s.memBytes)

/-- For every MEM_BYTES and BUF_INIT, each register of R20's table reads its reset value through its offset after
power-on. (R20, R25, R26, R33, R36, R118) -/
def Obligations.ResetValuesOfEveryRegister : Prop :=
  ∀ (n : Fin Config.memUnitCount) (init : Memory),
    let s := State.afterPowerOn n init
    readOffset 0x000 s = 0x46534B44#32 ∧ readOffset 0x004 s = 0x00010000#32 ∧
    readOffset 0x028 s = BitVec.ofNat 32 s.memBytes ∧
    readOffset 0x040 s = 0xEB1C432D#32 ∧ readOffset 0x044 s = 0x3F1A36E2#32 ∧
    readOffset 0x048 s = 0xC751F177#32 ∧ readOffset 0x04C s = 0x3EF7C6F8#32 ∧ readOffset 0x050 s = 2#32 ∧
    readOffset 0x0E0 s = 0#32 ∧ readOffset 0x0E4 s = 0x3FD00000#32 ∧ readOffset 0x154 s = 0xFFFFFFFF#32 ∧
    (∀ off ∈ ([0x008, 0x00C, 0x010, 0x014, 0x018, 0x01C, 0x020, 0x024, 0x080, 0x084, 0x088, 0x08C, 0x090, 0x094,
        0x098, 0x09C, 0x0A0, 0x0A4, 0x0A8, 0x0AC, 0x0B0, 0x0B4, 0x0B8, 0x0BC, 0x0C0, 0x0C4, 0x0D0, 0x0D8, 0x0DC,
        0x100, 0x104, 0x108, 0x10C, 0x110, 0x114, 0x118, 0x11C, 0x120, 0x124, 0x140, 0x144, 0x148, 0x14C,
        0x150] : List (BitVec 12)), readOffset off s = 0#32) ∧
    s.phase = .idle ∧ s.pvalid = false ∧ s.irq = false

/-- An aligned 32-bit write while IDLE to an RO register of R20 or to an offset that R20 does not list leaves the
whole state as it was but for the model's turn and reply lists; a read of a reserved offset or of CMD returns 0; ID
and VERSION read their constants in every state. That an ignored write is answered as an ordinary write is the
model's choice (log 8). (R20, R23, R25, R26) -/
def Obligations.ReadOnlyAndReservedOffsetsIgnoreWrites : Prop :=
  (∀ (s : State) (off : BitVec 12) (v : Word) (rest : List Turn), s.phase = .idle → off.toNat % 4 = 0 →
    (regAt off = none ∨
      regAt off ∈ [some .id, some .version, some .status, some .errcode, some .cmdcnt, some .memsize, some .red,
        some .ss, some .outLen, some .descWidth, some .offset, some .nwin, some .ambCount, some .firstAmb] ∨
      ∃ h, regAt off ∈ [some (.half .amp h), some (.half .bp h), some (.half .br h), some (.half .fOne h),
        some (.half .fZero h), some (.half .rp h), some (.half .wOne h), some (.half .wZero h),
        some (.half .tblData h)]) →
    s.turns = .regWrite 4 off v :: rest →
    step s = .next { s with turns := rest, replies := .written :: s.replies }) ∧
  (∀ (s : State) (off : BitVec 12),
    (∀ r ∈ allRegs, regOffset r ≠ off) → readOffset off s = 0) ∧
  (∀ s : State, readOffset 0x020 s = 0 ∧ readOffset 0x000 s = 0x46534B44#32 ∧ readOffset 0x004 s = 0x00010000#32)

/-- In every state the word at each literal offset of R20 is the named register's field (STATUS and TBL_DATA have
statements of their own). For each plain RW register r of R20 (RED_IN, the operand registers, both halves of AMP_IN,
BP_IN, MIX and LOC), the Host's write of v at its offset while IDLE makes r read v and leaves what every other
register reads, BUF, the tables, PHASE and PENDING unchanged; so the other half of a 64-bit register keeps its
value. (R16, R20, R23, R27, R29, R37, R38, R40, R42, R43, R44, R124) -/
def Obligations.RegisterWritesReachTheirRegisterOnly : Prop :=
  (∀ s : State,
    readOffset 0x000 s = 0x46534B44#32 ∧ readOffset 0x004 s = 0x00010000#32 ∧
    readOffset 0x008 s = 0#28 ++ BitVec.ofBool s.valpol ++ s.ambpol ++ 0#1 ∧
    readOffset 0x010 s = 0#24 ++ s.errcode ∧ readOffset 0x014 s = 0#27 ++ s.warn ∧
    readOffset 0x018 s = 0#30 ++ s.intStatus ∧ readOffset 0x01C s = 0#30 ++ s.intEnable ∧
    readOffset 0x020 s = 0 ∧ readOffset 0x024 s = s.cmdcnt ∧ readOffset 0x028 s = BitVec.ofNat 32 s.memBytes ∧
    readOffset 0x050 s = s.redIn ∧ readOffset 0x0C0 s = s.params.red ∧ readOffset 0x0C4 s = s.params.ss ∧
    readOffset 0x0D0 s = 0#16 ++ s.tidx ++ 0#5 ++ s.tsel ∧
    readOffset 0x040 s = s.ampIn.extractLsb' 0 32 ∧ readOffset 0x044 s = s.ampIn.extractLsb' 32 32 ∧
    readOffset 0x048 s = s.bpIn.extractLsb' 0 32 ∧ readOffset 0x04C s = s.bpIn.extractLsb' 32 32 ∧
    readOffset 0x080 s = s.params.amp.extractLsb' 0 32 ∧ readOffset 0x084 s = s.params.amp.extractLsb' 32 32 ∧
    readOffset 0x088 s = s.params.bp.extractLsb' 0 32 ∧ readOffset 0x08C s = s.params.bp.extractLsb' 32 32 ∧
    readOffset 0x090 s = s.params.br.extractLsb' 0 32 ∧ readOffset 0x094 s = s.params.br.extractLsb' 32 32 ∧
    readOffset 0x098 s = s.params.fOne.extractLsb' 0 32 ∧ readOffset 0x09C s = s.params.fOne.extractLsb' 32 32 ∧
    readOffset 0x0A0 s = s.params.fZero.extractLsb' 0 32 ∧ readOffset 0x0A4 s = s.params.fZero.extractLsb' 32 32 ∧
    readOffset 0x0A8 s = s.params.rp.extractLsb' 0 32 ∧ readOffset 0x0AC s = s.params.rp.extractLsb' 32 32 ∧
    readOffset 0x0B0 s = s.params.wOne.extractLsb' 0 32 ∧ readOffset 0x0B4 s = s.params.wOne.extractLsb' 32 32 ∧
    readOffset 0x0B8 s = s.params.wZero.extractLsb' 0 32 ∧ readOffset 0x0BC s = s.params.wZero.extractLsb' 32 32 ∧
    readOffset 0x0E0 s = s.mix.extractLsb' 0 32 ∧ readOffset 0x0E4 s = s.mix.extractLsb' 32 32 ∧
    readOffset 0x120 s = s.operands.loc.extractLsb' 0 32 ∧ readOffset 0x124 s = s.operands.loc.extractLsb' 32 32 ∧
    readOffset 0x100 s = s.operands.srcA ∧ readOffset 0x104 s = s.operands.lenA ∧
    readOffset 0x108 s = s.operands.rateA ∧ readOffset 0x10C s = s.operands.srcB ∧
    readOffset 0x110 s = s.operands.lenB ∧ readOffset 0x114 s = s.operands.rateB ∧
    readOffset 0x118 s = s.operands.dst ∧ readOffset 0x11C s = s.operands.width ∧
    readOffset 0x140 s = s.results.outLen ∧ readOffset 0x144 s = s.results.descWidth ∧
    readOffset 0x148 s = s.results.offset ∧ readOffset 0x14C s = s.results.nwin ∧
    readOffset 0x150 s = s.results.ambCount ∧ readOffset 0x154 s = s.results.firstAmb) ∧
  (∀ (s : State) (r : Reg) (v : Word) (rest : List Turn), s.phase = .idle →
    (r ∈ [.redIn, .srcA, .lenA, .rateA, .srcB, .lenB, .rateB, .dst, .width] ∨
      ∃ h, r ∈ [Reg.half .ampIn h, Reg.half .bpIn h, Reg.half .mix h, Reg.half .loc h]) →
    s.turns = .regWrite 4 (regOffset r) v :: rest →
    ∃ t, step s = .next t ∧ readReg r t = v ∧ (∀ q, q ≠ r → readReg q t = readReg q s) ∧
      t.buf = s.buf ∧ t.tables = s.tables ∧ t.phase = .idle ∧ t.pending = s.pending ∧
      t.turns = rest ∧ t.replies = .written :: s.replies) ∧
  (∀ (s : State) (r : Reg), readOffset (regOffset r) s = readReg r s)

/-- The step of a 32-bit Host write of v while IDLE: to CTRL with bit 0 = 0 it sets AMBPOL = v[2:1] and VALPOL =
v[3], and CTRL then reads v with its reserved bits and SRST 0; to INT_ENABLE it sets v[1:0]; to TBL_SEL it sets TSEL
= v[2:0] and TIDX = v[15:8]; each then reads v with its reserved bits 0. Nothing else changes but the model's turn
and reply lists (log 7, log 8). (R20, R23, R27, R32, R40) -/
def Obligations.ControlAndSelectWrites : Prop :=
  ∀ (s : State) (v : Word) (rest : List Turn), s.phase = .idle →
    (v.getLsbD 0 = false → s.turns = .regWrite 4 0x008 v :: rest →
      ∃ t, step s = .next t ∧
        t = { s with
              ambpol := v.extractLsb' 1 2, valpol := v.getLsbD 3
              turns := rest, replies := .written :: s.replies } ∧
        readOffset 0x008 t = v &&& 0x0000000E#32) ∧
    (s.turns = .regWrite 4 0x01C v :: rest →
      ∃ t, step s = .next t ∧
        t = { s with intEnable := v.extractLsb' 0 2, turns := rest, replies := .written :: s.replies } ∧
        readOffset 0x01C t = v &&& 0x00000003#32) ∧
    (s.turns = .regWrite 4 0x0D0 v :: rest →
      ∃ t, step s = .next t ∧
        t = { s with
              tsel := v.extractLsb' 0 3, tidx := v.extractLsb' 8 8
              turns := rest, replies := .written :: s.replies } ∧
        readOffset 0x0D0 t = v &&& 0x0000FF07#32)

/-- The step of a 32-bit Host write of v to WARN while IDLE clears the bits of WARN that are 1 in v and leaves the
others; to INT_STATUS it does so in every phase. Nothing else changes but the model's turn and reply lists (log 7,
log 8). (R20, R23, R30, R31, R109) -/
def Obligations.WriteOneToClear : Prop :=
  (∀ (s : State) (v : Word) (rest : List Turn), s.phase = .idle → s.turns = .regWrite 4 0x014 v :: rest →
    ∃ t, step s = .next t ∧
      t = { s with warn := t.warn, turns := rest, replies := .written :: s.replies } ∧
      ∀ i < 5, t.warn.getLsbD i = (s.warn.getLsbD i && !v.getLsbD i)) ∧
  (∀ (s : State) (v : Word) (rest : List Turn), s.turns = .regWrite 4 0x018 v :: rest →
    ∃ t, step s = .next t ∧
      t = { s with intStatus := t.intStatus, turns := rest, replies := .written :: s.replies } ∧
      ∀ i < 2, t.intStatus.getLsbD i = (s.intStatus.getLsbD i && !v.getLsbD i))

/-- While BUSY an aligned 32-bit write to any offset but 0x018 and 0x01C (CMD, CTRL with SRST, RO and reserved
offsets too) only sets WARN.OVR; at 0x018 it clears INT_STATUS bits, at 0x01C it writes INT_ENABLE. PHASE stays
BUSY. An aligned 32-bit read in every phase, IDLE or BUSY, answers the value at its offset and changes nothing of
the block. That a dropped write is answered as an ordinary write is the model's choice (log 8). (R23, R24, R110,
R121, R123) -/
def Obligations.BusyWritesAreDropped : Prop :=
  (∀ (s : State) (off : BitVec 12) (v : Word) (rest : List Turn), s.phase = .busy → off.toNat % 4 = 0 →
    s.turns = .regWrite 4 off v :: rest →
    (off ≠ 0x018 → off ≠ 0x01C →
      step s = .next { s with warn := s.warn ||| 0b10000#5, turns := rest, replies := .written :: s.replies }) ∧
    (off = 0x018 →
      step s = .next
        { s with
          intStatus := s.intStatus &&& ~~~(v.extractLsb' 0 2)
          turns := rest
          replies := .written :: s.replies }) ∧
    (off = 0x01C →
      step s = .next
        { s with intEnable := v.extractLsb' 0 2, turns := rest, replies := .written :: s.replies })) ∧
  (∀ (s : State) (off : BitVec 12) (rest : List Turn), off.toNat % 4 = 0 → s.turns = .regRead 4 off :: rest →
    step s = .next { s with turns := rest, replies := .regData (readOffset off s) :: s.replies })

/-- In every state the two halves at 0x0D8 and 0x0DC are those of T[TIDX] for the table that TSEL selects (0 TAXIS,
1 REF1, 2 REF0, 3 CREF1, 4 CREF0) when PVALID = 1, TSEL <= 4 and TIDX < SS, and 0 otherwise. (R41) -/
def Obligations.TableWindowShowsTheSelectedEntry : Prop :=
  ∀ s : State,
    let table := if s.tsel = 0#3 then s.tables.taxis else if s.tsel = 1#3 then s.tables.ref1
      else if s.tsel = 2#3 then s.tables.ref0 else if s.tsel = 3#3 then s.tables.cref1 else s.tables.cref0
    let x := if s.pvalid = true ∧ s.tsel.toNat ≤ 4 ∧ s.tidx.toNat < s.params.ss.toNat
      then entry table s.tidx.toNat else 0#64
    readOffset 0x0D8 s = x.extractLsb' 0 32 ∧ readOffset 0x0DC s = x.extractLsb' 32 32

/-- In every state the word at 0x00C has bit 0 = 1 exactly when PHASE = BUSY, bit 1 = PVALID, bit 2 = ERR, bits 15:8
= LASTOP, and bits 7:3 and 31:16 zero. IRQ is the level R33 gives on the words that INT_STATUS and INT_ENABLE read;
acknowledging with 0x3 makes it 0. (R28, R33, R46, R107) -/
def Obligations.StatusAndIrqShowTheEngine : Prop :=
  (∀ s : State,
    ((readOffset 0x00C s).getLsbD 0 = true ↔ s.phase = .busy) ∧
    (readOffset 0x00C s).getLsbD 1 = s.pvalid ∧ (readOffset 0x00C s).getLsbD 2 = s.err ∧
    (readOffset 0x00C s).extractLsb' 8 8 = s.lastop ∧ (readOffset 0x00C s).extractLsb' 3 5 = 0#5 ∧
    (readOffset 0x00C s).extractLsb' 16 16 = 0#16) ∧
  (∀ s : State, s.irq =
    (((readOffset 0x018 s).getLsbD 0 && (readOffset 0x01C s).getLsbD 0) ||
      ((readOffset 0x018 s).getLsbD 1 && (readOffset 0x01C s).getLsbD 1))) ∧
  (∀ s : State, (writeOffset 0x018 0x3#32 s).irq = false)

/-- While IDLE a write to CTRL with bit 0 = 1 gives every register its reset value in one step, whatever the other
bits, with BUF and MEM_BYTES unchanged; while BUSY the same write only sets WARN.OVR. That PENDING and the tables,
which nothing can observe then, also stay is the model's choice (log 6), and so is the answer of the dropped write
(log 8). (R27, R121) -/
def Obligations.SoftResetResetsTheRegisters : Prop :=
  ∀ (s : State) (v : Word) (rest : List Turn), v.getLsbD 0 = true → s.turns = .regWrite 4 0x008 v :: rest →
    (s.phase = .idle →
      step s = .next
        { State.afterPowerOn s.memUnits s.buf with
          pending := s.pending
          tables := s.tables
          resets := s.resets
          turns := rest
          replies := .written :: s.replies }) ∧
    (s.phase = .busy →
      step s = .next { s with warn := s.warn ||| 0b10000#5, turns := rest, replies := .written :: s.replies })

/-- A reset turn and a power-on turn, in every phase, give every register its reset value and PHASE = IDLE without a
completion, and every register then reads as after power-on. After the power-on turn the bytes of BUF are free (log
5). After the reset turn: while IDLE, or with an illegal word, NOP or DERIVE held, BUF is unchanged; while a command
that would pass its checks is held, every byte outside its destination region reads as before. What the bytes inside
become is free (log 5); PENDING and the tables are free after both (log 4). (R118, R119, R120) -/
def Obligations.ResetsGiveEveryRegisterItsResetValue : Prop :=
  (∀ (s : State) (rest : List Turn), s.turns = .powerOn :: rest →
    ∃ t, step s = .next t ∧
      t = { State.afterPowerOn s.memUnits t.buf with
            pending := t.pending, tables := t.tables, resets := s.resets + 1, turns := rest, replies := s.replies } ∧
      t.phase = .idle ∧ t.memBytes = s.memBytes ∧
      (∀ off, readOffset off t = readOffset off (State.afterPowerOn s.memUnits [])) ∧
      ∀ a, s.memBytes ≤ a → Memory.read t.buf a = Memory.read s.buf a) ∧
  (∀ (s : State) (rest : List Turn), s.turns = .reset :: rest →
    ∃ t, step s = .next t ∧
      t = { State.afterPowerOn s.memUnits t.buf with
            pending := t.pending, tables := t.tables, resets := s.resets + 1, turns := rest, replies := s.replies } ∧
      t.phase = .idle ∧ t.memBytes = s.memBytes ∧
      (∀ off, readOffset off t = readOffset off (State.afterPowerOn s.memUnits [])) ∧
      (s.phase = .idle → t.buf = s.buf) ∧
      (∀ i, decodeWord s.pending = .ok i → i = .nop ∨ i = .derive → t.buf = s.buf) ∧
      (∀ e, decodeWord s.pending = .error e → t.buf = s.buf) ∧
      (s.phase = .busy → decodeWord s.pending = .ok .mod →
        (¬ ModRuns s → t.buf = s.buf) ∧
        (ModRuns s → ∀ a, (a < dst s ∨ dst s + 8 * (lenA s * ss s) ≤ a) →
          Memory.read t.buf a = Memory.read s.buf a)) ∧
      (s.phase = .busy → decodeWord s.pending = .ok .demod →
        (¬ DemodStarts s → t.buf = s.buf) ∧
        (DemodStarts s → ∀ a, (a < dst s ∨ dst s + ceil8 (lenA s / ss s) ≤ a) →
          Memory.read t.buf a = Memory.read s.buf a)) ∧
      (s.phase = .busy → decodeWord s.pending = .ok .embed →
        ((¬ ∃ off, EmbedRuns s off) → t.buf = s.buf) ∧
        (∀ off, EmbedRuns s off → ∀ a, (a < dst s ∨ dst s + 8 * lenA s ≤ a) →
          Memory.read t.buf a = Memory.read s.buf a)) ∧
      (s.phase = .busy → decodeWord s.pending = .ok .extract →
        ((¬ ∃ off, ExtractRuns s off) → t.buf = s.buf) ∧
        (∀ off, ExtractRuns s off → ∀ a, (a < dst s ∨ dst s + 8 * width s ≤ a) →
          Memory.read t.buf a = Memory.read s.buf a)))

/-- For n = 1, 2, 4 or 8, an aligned address in range and PHASE = IDLE: a write stores byte j of v at a + j and
leaves every other byte and the rest of the state; a read answers the little-endian number of its bytes and changes
nothing. What a write stored is what a read of the same width then gives. (R52, R53) -/
def Obligations.HostBufAccesses : Prop :=
  ∀ (s : State) (n a : Nat) (v : BitVec 64) (rest : List Turn), s.phase = .idle → n ∈ [1, 2, 4, 8] → a % n = 0 →
    a + n ≤ s.memBytes →
    (s.turns = .bufWrite n a v :: rest →
      ∃ t, step s = .next t ∧ t = { s with buf := t.buf, turns := rest, replies := .written :: s.replies } ∧
        (∀ j < n, Memory.read t.buf (a + j) = v.extractLsb' (8 * j) 8) ∧
        (∀ x, (x < a ∨ a + n ≤ x) → Memory.read t.buf x = Memory.read s.buf x) ∧
        Memory.readLE t.buf a n = v.toNat % 2 ^ (8 * n)) ∧
    (s.turns = .bufRead n a :: rest →
      ∃ x, step s = .next { s with turns := rest, replies := .bufData x :: s.replies } ∧
        x.toNat = (List.range n).foldl (fun acc j => acc + (Memory.read s.buf (a + j)).toNat * 2 ^ (8 * j)) 0)

/-- A register access of a width other than 4 bytes or at an offset that is no multiple of 4, in any phase, and
while IDLE a BUF access of another width than 1, 2, 4, 8, misaligned or out of range, is answered with a bus error;
nothing of the block changes. That a bad register access while BUSY gets its bus error at once and sets no WARN.OVR
is the model's reading of R106 and R24 (log 11, DEDUCED). (R23, R53, R106) -/
def Obligations.BusErrorsChangeNothing : Prop :=
  (∀ (s : State) (n : Nat) (off : BitVec 12) (v : Word) (rest : List Turn), (n ≠ 4 ∨ off.toNat % 4 ≠ 0) →
    (s.turns = .regWrite n off v :: rest ∨ s.turns = .regRead n off :: rest) →
    step s = .next { s with turns := rest, replies := .busError :: s.replies }) ∧
  (∀ (s : State) (n a : Nat) (v : BitVec 64) (rest : List Turn), s.phase = .idle →
    (n ∉ [1, 2, 4, 8] ∨ a % n ≠ 0 ∨ s.memBytes < a + n) →
    (s.turns = .bufWrite n a v :: rest ∨ s.turns = .bufRead n a :: rest) →
    step s = .next { s with turns := rest, replies := .busError :: s.replies })

/-- While BUSY with a BUF access next, the step s is the Engine's completion: the block is IDLE after it, the access
and all turns after it still wait, no answer has been given. The step after that is the access on the state the
completion left: an access in range and aligned, of 1, 2, 4 or 8 bytes, is performed (a write stores its bytes
little-endian and no other, a read answers the bytes as the completion left them), any other is answered with a bus
error; nothing else changes. That the held access stays at the head of the turns is the model's form of the hold
(log 7), and that a bad access is held too is its reading (log 11, DEDUCED). (R53, R57, R59, R106, R125) -/
def Obligations.BufAccessIsHeldWhileBusy : Prop :=
  ∀ s : State, s.phase = .busy →
    ((∃ rest n a v, s.turns = .bufWrite n a v :: rest) ∨ (∃ rest n a, s.turns = .bufRead n a :: rest)) →
    ∃ t u, step s = .next t ∧ (∀ i, decodeWord s.pending = .ok i → exec i s = .next t) ∧ t.phase = .idle ∧
      t.turns = s.turns ∧ t.replies = s.replies ∧ t.memBytes = s.memBytes ∧ t.cmdcnt = s.cmdcnt + 1 ∧
      step t = .next u ∧
      (∀ rest n a v, s.turns = .bufWrite n a v :: rest →
        (n ∈ [1, 2, 4, 8] → a % n = 0 → a + n ≤ s.memBytes →
          u = { t with buf := u.buf, turns := rest, replies := .written :: s.replies } ∧
          (∀ j < n, Memory.read u.buf (a + j) = v.extractLsb' (8 * j) 8) ∧
          (∀ x, (x < a ∨ a + n ≤ x) → Memory.read u.buf x = Memory.read t.buf x)) ∧
        (n ∉ [1, 2, 4, 8] ∨ a % n ≠ 0 ∨ s.memBytes < a + n →
          u = { t with turns := rest, replies := .busError :: s.replies })) ∧
      (∀ rest n a, s.turns = .bufRead n a :: rest →
        (n ∈ [1, 2, 4, 8] → a % n = 0 → a + n ≤ s.memBytes →
          ∃ x, u = { t with turns := rest, replies := .bufData x :: s.replies } ∧
            x.toNat = (List.range n).foldl (fun acc j => acc + (Memory.read t.buf (a + j)).toNat * 2 ^ (8 * j)) 0) ∧
        (n ∉ [1, 2, 4, 8] ∨ a % n ≠ 0 ∨ s.memBytes < a + n →
          u = { t with turns := rest, replies := .busError :: s.replies }))

/-- From an IDLE block, the accesses that the assembler gives for derive, mod, demod, embed and extract take as many
steps as the expansion has accesses, to the state with those registers written, PENDING and LASTOP the opcode and
PHASE = BUSY; wrf writes both halves of its register (a read-only one keeps its value); bwf stores one sample;
policy, ack, clrwarn and srst write CTRL, INT_STATUS, WARN and the soft reset; nothing else changes. wait on an IDLE
block is one STATUS read with bit 0 = 0. On a BUSY block it makes the given number of reads, each with bit 0 = 1,
the Engine completes, and a last read with bit 0 = 0 ends it; how many reads come first is free (log 7, log 15). The
order of turns and the reply list are the model's (log 7, log 8). (R73, R74, R132) -/
def Obligations.PseudoInstructionsDoWhatTheirExpansionsSay : Prop :=
  (∀ (s : State) (rest : List Turn), s.phase = .idle →
    let runs := fun (st : Stmt) (n : Nat) (t : State) =>
      s.turns = assemble st ++ rest →
        Host.Core.run Sys2Proof.core n s =
          .next { t with turns := rest, replies := List.replicate n .written ++ s.replies }
    let started := fun (op : BitVec 8) (t : State) =>
      { t with pending := op.setWidth 32, lastop := op, phase := .busy }
    (∀ a bp r, runs (.deriveWith a bp r) 6 (started 1 { s with ampIn := a, bpIn := bp, redIn := r })) ∧
    (∀ src nbits d, runs (.modWith src nbits d) 4
      (started 2 { s with operands := { s.operands with srcA := src, lenA := nbits, dst := d } })) ∧
    (∀ src nsamp d, runs (.demodWith src nsamp d) 4
      (started 3 { s with operands := { s.operands with srcA := src, lenA := nsamp, dst := d } })) ∧
    (∀ h hlen hrate p plen prate loc d, runs (.embedWith h hlen hrate p plen prate loc d) 10
      (started 4
        { s with
          operands :=
            { srcA := h, lenA := hlen, rateA := hrate, srcB := p, lenB := plen, rateB := prate, dst := d
              width := s.operands.width, loc := loc } })) ∧
    (∀ m mlen mrate h hlen hrate loc w d, runs (.extractWith m mlen mrate h hlen hrate loc w d) 11
      (started 5
        { s with
          operands :=
            { srcA := m, lenA := mlen, rateA := mrate, srcB := h, lenB := hlen, rateB := hrate, dst := d
              width := w, loc := loc } })) ∧
    (∀ i, runs (.run i) 1 (started ((encode i).extractLsb' 0 8) s)) ∧
    (∀ x, runs (.wrf .ampIn x) 2 { s with ampIn := x } ∧ runs (.wrf .bpIn x) 2 { s with bpIn := x } ∧
      runs (.wrf .mix x) 2 { s with mix := x } ∧
      runs (.wrf .loc x) 2 { s with operands := { s.operands with loc := x } }) ∧
    (∀ r x, r ∉ [Reg64.ampIn, .bpIn, .mix, .loc] → runs (.wrf r x) 2 s) ∧
    (∀ addr x, addr % 8 = 0 → addr + 8 ≤ s.memBytes →
      ∃ m, runs (.bwf addr x) 1 { s with buf := m } ∧ Memory.sample m addr = x ∧
        ∀ b, (b < addr ∨ addr + 8 ≤ b) → Memory.read m b = Memory.read s.buf b) ∧
    (∀ amb val, runs (.policy amb val) 1 { s with ambpol := amb, valpol := val.getLsbD 0 }) ∧
    runs .ack 1 { s with intStatus := 0 } ∧ runs .clrwarn 1 { s with warn := 0 } ∧
    runs .srst 1
      { State.afterPowerOn s.memUnits s.buf with pending := s.pending, tables := s.tables, resets := s.resets } ∧
    (∀ n, s.turns = assemble (.wait n) ++ rest →
      (readOffset 0x00C s).getLsbD 0 = false ∧
        step s = .next { s with turns := rest, replies := .regData (readOffset 0x00C s) :: s.replies })) ∧
  (∀ (s : State) (n : Nat) (rest : List Turn), s.phase = .busy → s.turns = assemble (.wait n) ++ rest →
    ∃ t, Host.Core.run Sys2Proof.core (n + 1) s = .next t ∧ (readOffset 0x00C s).getLsbD 0 = true ∧
      t.cmdcnt = s.cmdcnt + 1 ∧ t.turns = .pollStatus 0 :: rest ∧
      t.replies = List.replicate n (.regData (readOffset 0x00C s)) ++ s.replies ∧
      (readOffset 0x00C t).getLsbD 0 = false ∧
      step t = .next { t with turns := rest, replies := .regData (readOffset 0x00C t) :: t.replies })
end

