-- ==== Sys2Proof/Laws/Memory.lean ====
section
/-! SUPPORT. BUF: what a read sees after a write, the canonical form, and that equal contents are equal data. -/

namespace Sys2Proof.Machine

theorem Memory.read_eq_unlisted {m : Memory} {x : Nat} (h : ∀ c ∈ m, c.1 ≠ x) :
    Memory.read m x = Memory.unlisted := by
  induction m with
  | nil => rfl
  | cons c m ih =>
    obtain ⟨b, v⟩ := c
    have hb : b ≠ x := h (b, v) (by simp)
    simpa [Memory.read, hb] using ih (fun c hc => h c (by simp [hc]))

theorem Memory.read_append_right {m n : Memory} {x : Nat} (h : ∀ c ∈ m, c.1 ≠ x) :
    Memory.read (m ++ n) x = Memory.read n x := by
  induction m with
  | nil => rfl
  | cons c m ih =>
    obtain ⟨b, v⟩ := c
    have hb : b ≠ x := h (b, v) (by simp)
    simpa [Memory.read, hb] using ih (fun c hc => h c (by simp [hc]))

theorem Memory.read_append_left {m n : Memory} {x : Nat} (h : ∀ c ∈ n, c.1 ≠ x) :
    Memory.read (m ++ n) x = Memory.read m x := by
  induction m with
  | nil => exact Memory.read_eq_unlisted h
  | cons c m ih => obtain ⟨b, v⟩ := c; simp [Memory.read, ih]

theorem Memory.read_filter {m : Memory} {p : Host.Cell → Bool} {x : Nat} (h : ∀ v, p (x, v) = true) :
    Memory.read (m.filter p) x = Memory.read m x := by
  induction m with
  | nil => rfl
  | cons c m ih =>
    obtain ⟨b, v⟩ := c
    by_cases hb : b = x
    · subst hb; simp [h, Memory.read]
    · by_cases hp : p (b, v) <;> simp [hp, Memory.read, hb, ih]

theorem Memory.mem_cellsFrom {bs : List Byte} {a : Nat} {c : Host.Cell} (h : c ∈ Memory.cellsFrom a bs) :
    a ≤ c.1 ∧ c.1 < a + bs.length ∧ c.2 ≠ Memory.unlisted := by
  induction bs generalizing a with
  | nil => simp [Memory.cellsFrom] at h
  | cons b bs ih =>
    unfold Memory.cellsFrom at h
    split at h
    · have := ih h; simp only [List.length_cons]; exact ⟨by omega, by omega, this.2.2⟩
    · rcases List.mem_cons.mp h with rfl | h
      · exact ⟨le_refl _, by simp, by assumption⟩
      · have := ih h; simp only [List.length_cons]; exact ⟨by omega, by omega, this.2.2⟩

theorem Memory.read_cellsFrom {bs : List Byte} {a i : Nat} (h : i < bs.length) :
    Memory.read (Memory.cellsFrom a bs) (a + i) = bs[i] := by
  induction bs generalizing a i with
  | nil => simp at h
  | cons b bs ih =>
    unfold Memory.cellsFrom
    cases i with
    | zero =>
      split
      · next hb =>
        rw [Memory.read_eq_unlisted (fun c hc => by have := Memory.mem_cellsFrom hc; omega)]
        simp [hb]
      · simp [Memory.read]
    | succ i =>
      have hi : i < bs.length := by simpa using h
      have e : a + (i + 1) = a + 1 + i := by omega
      split
      · rw [e, ih hi]; simp
      · rw [e, Memory.read, if_neg (by omega), ih hi]; simp

/-- A write leaves every byte outside the bytes it stores alone. -/
theorem Memory.read_write_outside {m : Memory} {a x : Nat} {bs : List Byte} (h : x < a ∨ a + bs.length ≤ x) :
    Memory.read (Memory.write m a bs) x = Memory.read m x := by
  unfold Memory.write
  have hc : ∀ c ∈ Memory.cellsFrom a bs, c.1 ≠ x := fun c hc => by
    have := Memory.mem_cellsFrom hc; omega
  rcases h with h | h
  · rw [Memory.read_append_left (fun c hm => by simp at hm; omega), Memory.read_append_left hc,
      Memory.read_filter (by simpa using h)]
  · rw [Memory.read_append_right (fun c hm => ?_), Memory.read_filter (by simpa using h)]
    rcases List.mem_append.mp hm with hm | hm
    · simp at hm; omega
    · exact hc c hm

/-- A read of a stored byte gives that byte. -/
theorem Memory.read_write_inside {m : Memory} {a i : Nat} {bs : List Byte} (h : i < bs.length) :
    Memory.read (Memory.write m a bs) (a + i) = bs[i] := by
  unfold Memory.write
  rw [Memory.read_append_left (fun c hm => by simp at hm; omega),
    Memory.read_append_right (fun c hm => by simp at hm; omega), Memory.read_cellsFrom h]

theorem Memory.cellsFrom_pairwise (bs : List Byte) (a : Nat) :
    List.Pairwise (fun c d : Host.Cell => c.1 < d.1) (Memory.cellsFrom a bs) := by
  induction bs generalizing a with
  | nil => simp [Memory.cellsFrom]
  | cons b bs ih =>
    unfold Memory.cellsFrom
    split
    · exact ih (a + 1)
    · exact List.pairwise_cons.mpr ⟨fun c hc => by have := Memory.mem_cellsFrom hc; simp only; omega, ih (a + 1)⟩

/-- Every write keeps the canonical form. -/
theorem Memory.write_wf {m : Memory} (h : Memory.wf m) (a : Nat) (bs : List Byte) :
    Memory.wf (Memory.write m a bs) := by
  obtain ⟨hp, hn⟩ := h
  refine ⟨?_, ?_⟩
  · unfold Memory.write
    refine List.pairwise_append.mpr ⟨List.pairwise_append.mpr ⟨hp.filter _, Memory.cellsFrom_pairwise bs a, ?_⟩,
      hp.filter _, ?_⟩
    · intro c hc d hd
      have := Memory.mem_cellsFrom hd
      simp at hc; omega
    · intro c hc d hd
      simp at hd
      rcases List.mem_append.mp hc with hc | hc
      · simp at hc; omega
      · have := Memory.mem_cellsFrom hc; omega
  · intro c hc
    simp only [Memory.write, List.mem_append, List.mem_filter] at hc
    rcases hc with (hc | hc) | hc
    · exact hn c hc.1
    · exact (Memory.mem_cellsFrom hc).2.2
    · exact hn c hc.1

theorem Memory.writeLE_wf {m : Memory} (h : Memory.wf m) (a n v : Nat) : Memory.wf (Memory.writeLE m a n v) :=
  Memory.write_wf h _ _

theorem Memory.putSamples_wf {m : Memory} (h : Memory.wf m) (a : Nat) (xs : List F64) :
    Memory.wf (Memory.putSamples m a xs) :=
  Memory.write_wf h _ _

theorem State.reset_buf_wf : Memory.wf State.reset.buf := ⟨List.Pairwise.nil, by simp [State.reset, State.afterPowerOn]⟩

/-- The entries of a write lie in the old entries or in the stored bytes. -/
theorem Memory.mem_write {m : Memory} {a : Nat} {bs : List Byte} {c : Host.Cell} (h : c ∈ Memory.write m a bs) :
    c ∈ m ∨ (a ≤ c.1 ∧ c.1 < a + bs.length) := by
  simp only [Memory.write, List.mem_append, List.mem_filter] at h
  rcases h with (h | h) | h
  · exact .inl h.1
  · exact .inr ⟨(Memory.mem_cellsFrom h).1, (Memory.mem_cellsFrom h).2.1⟩
  · exact .inl h.1

theorem Memory.read_of_mem {m : Memory} (h : Memory.wf m) {c : Host.Cell} (hc : c ∈ m) :
    Memory.read m c.1 = c.2 := by
  obtain ⟨hp, hn⟩ := h
  induction m with
  | nil => simp at hc
  | cons d m ih =>
    obtain ⟨b, v⟩ := d
    rw [List.pairwise_cons] at hp
    rcases List.mem_cons.mp hc with rfl | hc
    · simp [Memory.read]
    · have : b ≠ c.1 := by have := hp.1 c hc; simp only at this; omega
      rw [Memory.read, if_neg this, ih hc hp.2 (fun d hd => hn d (List.mem_cons_of_mem _ hd))]

theorem Memory.read_ne_iff_mem {m : Memory} (h : Memory.wf m) (x : Nat) :
    Memory.read m x ≠ Memory.unlisted ↔ (x, Memory.read m x) ∈ m := by
  constructor
  · intro hx
    by_contra hm
    refine hx (Memory.read_eq_unlisted fun c hc he => hm ?_)
    subst he
    rwa [Memory.read_of_mem h hc]
  · intro hm
    exact h.2 _ hm

/-- Canonical memories with the same contents are the same data. -/
theorem Memory.ext_of_read {m n : Memory} (hm : Memory.wf m) (hn : Memory.wf n)
    (h : ∀ x, Memory.read m x = Memory.read n x) : m = n := by
  have hmem : ∀ c : Host.Cell, c ∈ m ↔ c ∈ n := by
    rintro ⟨x, v⟩
    constructor
    · intro hc
      have e := Memory.read_of_mem hm hc
      have := (Memory.read_ne_iff_mem hn x).mp (by rw [← h]; simp only at e; rw [e]; exact hm.2 _ hc)
      rw [← h] at this; simp only at e; rwa [e] at this
    · intro hc
      have e := Memory.read_of_mem hn hc
      have := (Memory.read_ne_iff_mem hm x).mp (by rw [h]; simp only at e; rw [e]; exact hn.2 _ hc)
      rw [h] at this; simp only at e; rwa [e] at this
  have nodup : ∀ {l : Memory}, Memory.wf l → l.Nodup := fun hl =>
    hl.1.imp (fun hcd he => by subst he; exact (Nat.lt_irrefl _ hcd))
  have perm : m.Perm n := (List.perm_ext_iff_of_nodup (nodup hm) (nodup hn)).mpr hmem
  exact perm.eq_of_pairwise (fun c d _ _ h1 h2 => absurd h1 (by omega)) hm.1 hn.1

@[simp] theorem bytesLE_length (n v : Nat) : (bytesLE n v).length = n := by
  induction n generalizing v with
  | zero => rfl
  | succ n ih => simp [bytesLE, ih]

/-- Reading bytes back little-endian gives the low bytes of the number they came from (R52). -/
theorem Memory.readLE_of_bytes {m : Memory} {a n v : Nat}
    (h : ∀ i (hi : i < (bytesLE n v).length), Memory.read m (a + i) = (bytesLE n v)[i]) :
    Memory.readLE m a n = v % 256 ^ n := by
  induction n generalizing a v with
  | zero => simp [Memory.readLE, Nat.mod_one]
  | succ n ih =>
    have h0 := h 0 (by simp)
    have hs := ih (a := a + 1) (v := v / 256) (fun i hi => by
      have := h (i + 1) (by simpa using hi)
      simpa [bytesLE, Nat.add_assoc, Nat.add_comm 1] using this)
    simp only [Memory.readLE, hs]
    have e : Memory.read m a = BitVec.ofNat 8 v := by simpa [bytesLE] using h0
    have hmod : v % 256 ^ (n + 1) = v % 256 + 256 * (v / 256 % 256 ^ n) := by
      rw [Nat.pow_succ', Nat.mod_mul]
    rw [e, BitVec.toNat_ofNat, hmod]

/-- A read of what a write of the same width stored (R52). -/
theorem Memory.readLE_writeLE (m : Memory) (a n v : Nat) :
    Memory.readLE (Memory.writeLE m a n v) a n = v % 256 ^ n :=
  Memory.readLE_of_bytes fun _ hi => Memory.read_write_inside hi

/-- Reads depend only on the bytes read. -/
theorem Memory.readLE_congr {m k : Memory} {a n : Nat} (h : ∀ i < n, Memory.read m (a + i) = Memory.read k (a + i)) :
    Memory.readLE m a n = Memory.readLE k a n := by
  induction n generalizing a with
  | zero => rfl
  | succ n ih =>
    have h0 : Memory.read m a = Memory.read k a := by simpa using h 0 (by omega)
    have hs := ih (a := a + 1) (fun i hi => by
      have := h (i + 1) (by omega)
      simpa [Nat.add_assoc, Nat.add_comm 1] using this)
    simp only [Memory.readLE, h0, hs]

theorem Memory.sample_congr {m k : Memory} {a : Nat} (h : ∀ i < 8, Memory.read m (a + i) = Memory.read k (a + i)) :
    Memory.sample m a = Memory.sample k a := by
  unfold Memory.sample
  rw [Memory.readLE_congr h]

@[simp] theorem sampleBytes_length (xs : List F64) : (sampleBytes xs).length = 8 * xs.length := by
  unfold sampleBytes
  induction xs with
  | nil => rfl
  | cons x xs ih => simp only [List.flatMap_cons, List.length_append, bytesLE_length, ih, List.length_cons]; omega

theorem sampleBytes_getElem {xs : List F64} {j i : Nat} (hj : j < xs.length) (hi : i < 8)
    (h : 8 * j + i < (sampleBytes xs).length) :
    (sampleBytes xs)[8 * j + i] = (bytesLE 8 xs[j].toNat)[i]'(by simpa using hi) := by
  induction xs generalizing j with
  | nil => simp at hj
  | cons x xs ih =>
    have e : sampleBytes (x :: xs) = bytesLE 8 x.toNat ++ sampleBytes xs := rfl
    simp only [e]
    cases j with
    | zero =>
      rw [List.getElem_append_left (by simpa using hi)]
      simp
    | succ j =>
      have hj' : j < xs.length := by simpa using hj
      rw [List.getElem_append_right (by simp; omega)]
      have := ih hj' (by simp; omega)
      simp only [List.getElem_cons_succ]
      rw [← this]
      congr 1
      simp; omega

/-- `Sample` of what `PutSample` stored (R54). -/
theorem Memory.sample_putSamples {m : Memory} {a j : Nat} {xs : List F64} (hj : j < xs.length) :
    Memory.sample (Memory.putSamples m a xs) (a + 8 * j) = xs[j] := by
  have h : Memory.readLE (Memory.putSamples m a xs) (a + 8 * j) 8 = xs[j].toNat % 256 ^ 8 := by
    refine Memory.readLE_of_bytes fun i hi => ?_
    have hi8 : i < 8 := by simpa using hi
    have hlt : 8 * j + i < (sampleBytes xs).length := by rw [sampleBytes_length]; omega
    rw [Nat.add_assoc, Memory.putSamples, Memory.read_write_inside hlt, sampleBytes_getElem hj hi8 hlt]
  unfold Memory.sample
  rw [h]
  apply BitVec.eq_of_toNat_eq
  simp only [BitVec.toNat_ofNat]
  have := xs[j].isLt
  omega

end Sys2Proof.Machine
end

