-- ==== Sys2Proof/Laws/State.lean ====
section
/-! SUPPORT. One lemma per field per update of the state: true by rfl, so that no later proof unfolds a record. -/

namespace Sys2Proof.Machine

section
variable (code : BitVec 8) (s : State)

@[simp] theorem complete_memUnits : (complete code s).memUnits = s.memUnits := rfl
@[simp] theorem complete_phase : (complete code s).phase = .idle := rfl
@[simp] theorem complete_pending : (complete code s).pending = s.pending := rfl
@[simp] theorem complete_lastop : (complete code s).lastop = s.lastop := rfl
@[simp] theorem complete_pvalid : (complete code s).pvalid = s.pvalid := rfl
@[simp] theorem complete_err : (complete code s).err = (code != 0#8) := rfl
@[simp] theorem complete_errcode : (complete code s).errcode = code := rfl
@[simp] theorem complete_ambpol : (complete code s).ambpol = s.ambpol := rfl
@[simp] theorem complete_valpol : (complete code s).valpol = s.valpol := rfl
@[simp] theorem complete_warn : (complete code s).warn = s.warn := rfl
@[simp] theorem complete_intStatus : (complete code s).intStatus = completedInt s.intStatus (code != 0#8) := rfl
@[simp] theorem complete_intEnable : (complete code s).intEnable = s.intEnable := rfl
@[simp] theorem complete_cmdcnt : (complete code s).cmdcnt = s.cmdcnt + 1 := rfl
@[simp] theorem complete_ampIn : (complete code s).ampIn = s.ampIn := rfl
@[simp] theorem complete_bpIn : (complete code s).bpIn = s.bpIn := rfl
@[simp] theorem complete_redIn : (complete code s).redIn = s.redIn := rfl
@[simp] theorem complete_params : (complete code s).params = s.params := rfl
@[simp] theorem complete_tables : (complete code s).tables = s.tables := rfl
@[simp] theorem complete_tsel : (complete code s).tsel = s.tsel := rfl
@[simp] theorem complete_tidx : (complete code s).tidx = s.tidx := rfl
@[simp] theorem complete_mix : (complete code s).mix = s.mix := rfl
@[simp] theorem complete_operands : (complete code s).operands = s.operands := rfl
@[simp] theorem complete_results : (complete code s).results = s.results := rfl
@[simp] theorem complete_buf : (complete code s).buf = s.buf := rfl
@[simp] theorem complete_resets : (complete code s).resets = s.resets := rfl
@[simp] theorem complete_turns : (complete code s).turns = s.turns := rfl
@[simp] theorem complete_replies : (complete code s).replies = s.replies := rfl

end

section
variable (v : Word) (s : State)

@[simp] theorem accept_memUnits : (accept v s).memUnits = s.memUnits := rfl
@[simp] theorem accept_phase : (accept v s).phase = .busy := rfl
@[simp] theorem accept_pending : (accept v s).pending = v := rfl
@[simp] theorem accept_lastop : (accept v s).lastop = v.extractLsb' 0 8 := rfl
@[simp] theorem accept_pvalid : (accept v s).pvalid = s.pvalid := rfl
@[simp] theorem accept_err : (accept v s).err = s.err := rfl
@[simp] theorem accept_errcode : (accept v s).errcode = s.errcode := rfl
@[simp] theorem accept_ambpol : (accept v s).ambpol = s.ambpol := rfl
@[simp] theorem accept_valpol : (accept v s).valpol = s.valpol := rfl
@[simp] theorem accept_warn : (accept v s).warn = s.warn := rfl
@[simp] theorem accept_intStatus : (accept v s).intStatus = s.intStatus := rfl
@[simp] theorem accept_intEnable : (accept v s).intEnable = s.intEnable := rfl
@[simp] theorem accept_cmdcnt : (accept v s).cmdcnt = s.cmdcnt := rfl
@[simp] theorem accept_ampIn : (accept v s).ampIn = s.ampIn := rfl
@[simp] theorem accept_bpIn : (accept v s).bpIn = s.bpIn := rfl
@[simp] theorem accept_redIn : (accept v s).redIn = s.redIn := rfl
@[simp] theorem accept_params : (accept v s).params = s.params := rfl
@[simp] theorem accept_tables : (accept v s).tables = s.tables := rfl
@[simp] theorem accept_tsel : (accept v s).tsel = s.tsel := rfl
@[simp] theorem accept_tidx : (accept v s).tidx = s.tidx := rfl
@[simp] theorem accept_mix : (accept v s).mix = s.mix := rfl
@[simp] theorem accept_operands : (accept v s).operands = s.operands := rfl
@[simp] theorem accept_results : (accept v s).results = s.results := rfl
@[simp] theorem accept_buf : (accept v s).buf = s.buf := rfl
@[simp] theorem accept_resets : (accept v s).resets = s.resets := rfl
@[simp] theorem accept_turns : (accept v s).turns = s.turns := rfl
@[simp] theorem accept_replies : (accept v s).replies = s.replies := rfl

end

section
variable (r : Reply) (s : State)

@[simp] theorem answer_memUnits : (answer r s).memUnits = s.memUnits := rfl
@[simp] theorem answer_phase : (answer r s).phase = s.phase := rfl
@[simp] theorem answer_pending : (answer r s).pending = s.pending := rfl
@[simp] theorem answer_lastop : (answer r s).lastop = s.lastop := rfl
@[simp] theorem answer_pvalid : (answer r s).pvalid = s.pvalid := rfl
@[simp] theorem answer_err : (answer r s).err = s.err := rfl
@[simp] theorem answer_errcode : (answer r s).errcode = s.errcode := rfl
@[simp] theorem answer_ambpol : (answer r s).ambpol = s.ambpol := rfl
@[simp] theorem answer_valpol : (answer r s).valpol = s.valpol := rfl
@[simp] theorem answer_warn : (answer r s).warn = s.warn := rfl
@[simp] theorem answer_intStatus : (answer r s).intStatus = s.intStatus := rfl
@[simp] theorem answer_intEnable : (answer r s).intEnable = s.intEnable := rfl
@[simp] theorem answer_cmdcnt : (answer r s).cmdcnt = s.cmdcnt := rfl
@[simp] theorem answer_ampIn : (answer r s).ampIn = s.ampIn := rfl
@[simp] theorem answer_bpIn : (answer r s).bpIn = s.bpIn := rfl
@[simp] theorem answer_redIn : (answer r s).redIn = s.redIn := rfl
@[simp] theorem answer_params : (answer r s).params = s.params := rfl
@[simp] theorem answer_tables : (answer r s).tables = s.tables := rfl
@[simp] theorem answer_tsel : (answer r s).tsel = s.tsel := rfl
@[simp] theorem answer_tidx : (answer r s).tidx = s.tidx := rfl
@[simp] theorem answer_mix : (answer r s).mix = s.mix := rfl
@[simp] theorem answer_operands : (answer r s).operands = s.operands := rfl
@[simp] theorem answer_results : (answer r s).results = s.results := rfl
@[simp] theorem answer_buf : (answer r s).buf = s.buf := rfl
@[simp] theorem answer_resets : (answer r s).resets = s.resets := rfl
@[simp] theorem answer_turns : (answer r s).turns = s.turns := rfl
@[simp] theorem answer_replies : (answer r s).replies = r :: s.replies := rfl

end

section
variable (v : Word) (s : State)

@[simp] theorem acknowledge_memUnits : (acknowledge v s).memUnits = s.memUnits := rfl
@[simp] theorem acknowledge_phase : (acknowledge v s).phase = s.phase := rfl
@[simp] theorem acknowledge_pending : (acknowledge v s).pending = s.pending := rfl
@[simp] theorem acknowledge_lastop : (acknowledge v s).lastop = s.lastop := rfl
@[simp] theorem acknowledge_pvalid : (acknowledge v s).pvalid = s.pvalid := rfl
@[simp] theorem acknowledge_err : (acknowledge v s).err = s.err := rfl
@[simp] theorem acknowledge_errcode : (acknowledge v s).errcode = s.errcode := rfl
@[simp] theorem acknowledge_ambpol : (acknowledge v s).ambpol = s.ambpol := rfl
@[simp] theorem acknowledge_valpol : (acknowledge v s).valpol = s.valpol := rfl
@[simp] theorem acknowledge_warn : (acknowledge v s).warn = s.warn := rfl
@[simp] theorem acknowledge_intStatus : (acknowledge v s).intStatus = s.intStatus &&& ~~~(v.setWidth 2) := rfl
@[simp] theorem acknowledge_intEnable : (acknowledge v s).intEnable = s.intEnable := rfl
@[simp] theorem acknowledge_cmdcnt : (acknowledge v s).cmdcnt = s.cmdcnt := rfl
@[simp] theorem acknowledge_ampIn : (acknowledge v s).ampIn = s.ampIn := rfl
@[simp] theorem acknowledge_bpIn : (acknowledge v s).bpIn = s.bpIn := rfl
@[simp] theorem acknowledge_redIn : (acknowledge v s).redIn = s.redIn := rfl
@[simp] theorem acknowledge_params : (acknowledge v s).params = s.params := rfl
@[simp] theorem acknowledge_tables : (acknowledge v s).tables = s.tables := rfl
@[simp] theorem acknowledge_tsel : (acknowledge v s).tsel = s.tsel := rfl
@[simp] theorem acknowledge_tidx : (acknowledge v s).tidx = s.tidx := rfl
@[simp] theorem acknowledge_mix : (acknowledge v s).mix = s.mix := rfl
@[simp] theorem acknowledge_operands : (acknowledge v s).operands = s.operands := rfl
@[simp] theorem acknowledge_results : (acknowledge v s).results = s.results := rfl
@[simp] theorem acknowledge_buf : (acknowledge v s).buf = s.buf := rfl
@[simp] theorem acknowledge_resets : (acknowledge v s).resets = s.resets := rfl
@[simp] theorem acknowledge_turns : (acknowledge v s).turns = s.turns := rfl
@[simp] theorem acknowledge_replies : (acknowledge v s).replies = s.replies := rfl

end

section
variable (s : State)

@[simp] theorem resetRegisters_memUnits : (resetRegisters s).memUnits = s.memUnits := rfl
@[simp] theorem resetRegisters_phase : (resetRegisters s).phase = State.reset.phase := rfl
@[simp] theorem resetRegisters_pending : (resetRegisters s).pending = s.pending := rfl
@[simp] theorem resetRegisters_lastop : (resetRegisters s).lastop = State.reset.lastop := rfl
@[simp] theorem resetRegisters_pvalid : (resetRegisters s).pvalid = State.reset.pvalid := rfl
@[simp] theorem resetRegisters_err : (resetRegisters s).err = State.reset.err := rfl
@[simp] theorem resetRegisters_errcode : (resetRegisters s).errcode = State.reset.errcode := rfl
@[simp] theorem resetRegisters_ambpol : (resetRegisters s).ambpol = State.reset.ambpol := rfl
@[simp] theorem resetRegisters_valpol : (resetRegisters s).valpol = State.reset.valpol := rfl
@[simp] theorem resetRegisters_warn : (resetRegisters s).warn = State.reset.warn := rfl
@[simp] theorem resetRegisters_intStatus : (resetRegisters s).intStatus = State.reset.intStatus := rfl
@[simp] theorem resetRegisters_intEnable : (resetRegisters s).intEnable = State.reset.intEnable := rfl
@[simp] theorem resetRegisters_cmdcnt : (resetRegisters s).cmdcnt = State.reset.cmdcnt := rfl
@[simp] theorem resetRegisters_ampIn : (resetRegisters s).ampIn = State.reset.ampIn := rfl
@[simp] theorem resetRegisters_bpIn : (resetRegisters s).bpIn = State.reset.bpIn := rfl
@[simp] theorem resetRegisters_redIn : (resetRegisters s).redIn = State.reset.redIn := rfl
@[simp] theorem resetRegisters_params : (resetRegisters s).params = State.reset.params := rfl
@[simp] theorem resetRegisters_tables : (resetRegisters s).tables = s.tables := rfl
@[simp] theorem resetRegisters_tsel : (resetRegisters s).tsel = State.reset.tsel := rfl
@[simp] theorem resetRegisters_tidx : (resetRegisters s).tidx = State.reset.tidx := rfl
@[simp] theorem resetRegisters_mix : (resetRegisters s).mix = State.reset.mix := rfl
@[simp] theorem resetRegisters_operands : (resetRegisters s).operands = State.reset.operands := rfl
@[simp] theorem resetRegisters_results : (resetRegisters s).results = State.reset.results := rfl
@[simp] theorem resetRegisters_buf : (resetRegisters s).buf = s.buf := rfl
@[simp] theorem resetRegisters_resets : (resetRegisters s).resets = s.resets := rfl
@[simp] theorem resetRegisters_turns : (resetRegisters s).turns = s.turns := rfl
@[simp] theorem resetRegisters_replies : (resetRegisters s).replies = s.replies := rfl

end

section
variable (s : State)

@[simp] theorem resetCore_memUnits : (resetCore s).memUnits = s.memUnits := rfl
@[simp] theorem resetCore_phase : (resetCore s).phase = State.reset.phase := rfl
@[simp] theorem resetCore_pending : (resetCore s).pending = Config.resetPending s.resets := rfl
@[simp] theorem resetCore_lastop : (resetCore s).lastop = State.reset.lastop := rfl
@[simp] theorem resetCore_pvalid : (resetCore s).pvalid = State.reset.pvalid := rfl
@[simp] theorem resetCore_err : (resetCore s).err = State.reset.err := rfl
@[simp] theorem resetCore_errcode : (resetCore s).errcode = State.reset.errcode := rfl
@[simp] theorem resetCore_ambpol : (resetCore s).ambpol = State.reset.ambpol := rfl
@[simp] theorem resetCore_valpol : (resetCore s).valpol = State.reset.valpol := rfl
@[simp] theorem resetCore_warn : (resetCore s).warn = State.reset.warn := rfl
@[simp] theorem resetCore_intStatus : (resetCore s).intStatus = State.reset.intStatus := rfl
@[simp] theorem resetCore_intEnable : (resetCore s).intEnable = State.reset.intEnable := rfl
@[simp] theorem resetCore_cmdcnt : (resetCore s).cmdcnt = State.reset.cmdcnt := rfl
@[simp] theorem resetCore_ampIn : (resetCore s).ampIn = State.reset.ampIn := rfl
@[simp] theorem resetCore_bpIn : (resetCore s).bpIn = State.reset.bpIn := rfl
@[simp] theorem resetCore_redIn : (resetCore s).redIn = State.reset.redIn := rfl
@[simp] theorem resetCore_params : (resetCore s).params = State.reset.params := rfl
@[simp] theorem resetCore_tables : (resetCore s).tables = unspecifiedTables s.resets := rfl
@[simp] theorem resetCore_tsel : (resetCore s).tsel = State.reset.tsel := rfl
@[simp] theorem resetCore_tidx : (resetCore s).tidx = State.reset.tidx := rfl
@[simp] theorem resetCore_mix : (resetCore s).mix = State.reset.mix := rfl
@[simp] theorem resetCore_operands : (resetCore s).operands = State.reset.operands := rfl
@[simp] theorem resetCore_results : (resetCore s).results = State.reset.results := rfl
@[simp] theorem resetCore_buf : (resetCore s).buf = s.buf := rfl
@[simp] theorem resetCore_resets : (resetCore s).resets = s.resets + 1 := rfl
@[simp] theorem resetCore_turns : (resetCore s).turns = s.turns := rfl
@[simp] theorem resetCore_replies : (resetCore s).replies = s.replies := rfl

end

end Sys2Proof.Machine
end

