-- ==== Sys2Proof/Laws/Ops.lean ====
section
/-! SUPPORT. For each shared operation and each meaning, what it can answer: later proofs cite these and unfold
nothing. -/

namespace Sys2Proof.Machine

theorem raise_eq (e : ErrorCode) (s : State) : raise e s = .next (complete (errorByte e) s) := rfl

theorem succeed_eq (s : State) : succeed s = .next (complete 0#8 s) := rfl

theorem errorByte_ne_zero (e : ErrorCode) : errorByte e ≠ 0#8 := by cases e <;> decide

/-- When one region passes its range and alignment checks (R56). -/
theorem checkRegion_eq_none {memBytes : Nat} {r : Region} :
    checkRegion memBytes r = none ↔
      r.nbytes = 0 ∨ (r.base + r.nbytes ≤ memBytes ∧ r.base % r.align = 0) := by
  by_cases h0 : r.nbytes = 0
  · simp [checkRegion, h0]
  · rcases Nat.lt_or_ge memBytes (r.base + r.nbytes) with hr | hr
    · simp [checkRegion, h0, hr, Nat.not_le.mpr hr]
    · simp [checkRegion, h0, hr, Nat.not_lt.mpr hr]

/-- The error of one region, where there is one (R56). -/
theorem checkRegion_eq_some {memBytes : Nat} {r : Region} {e : ErrorCode} (h : checkRegion memBytes r = some e) :
    0 < r.nbytes ∧
      ((e = .addrRange ∧ memBytes < r.base + r.nbytes) ∨
        (e = .addrAlign ∧ r.base + r.nbytes ≤ memBytes ∧ r.base % r.align ≠ 0)) := by
  have hn : ¬ (r.nbytes = 0 ∨ (r.base + r.nbytes ≤ memBytes ∧ r.base % r.align = 0)) := by
    rw [← checkRegion_eq_none, h]
    simp
  rw [not_or, not_and] at hn
  refine ⟨Nat.pos_of_ne_zero hn.1, ?_⟩
  by_cases hr : memBytes < r.base + r.nbytes
  · simp only [checkRegion, hn.1, hr, if_true, if_false, Option.some.injEq] at h
    exact .inl ⟨h.symm, hr⟩
  · have ha := hn.2 (not_lt.mp hr)
    simp only [checkRegion, hn.1, hr, ha, ne_eq, not_false_eq_true, if_true, if_false, Option.some.injEq] at h
    exact .inr ⟨h.symm, not_lt.mp hr, ha⟩

theorem checkEach_eq_none {memBytes : Nat} {rs : List Region} :
    checkEach memBytes rs = none ↔ ∀ r ∈ rs, checkRegion memBytes r = none := by
  induction rs with
  | nil => simp [checkEach]
  | cons r rs ih =>
    unfold checkEach
    split
    · next e he => simp [he]
    · next he => simp [he, ih]

/-- When two regions share no byte (R56). -/
theorem regionsOverlap_eq_false {r t : Region} :
    regionsOverlap r t = false ↔
      t.nbytes = 0 ∨ r.nbytes = 0 ∨ r.base + r.nbytes ≤ t.base ∨ t.base + t.nbytes ≤ r.base := by
  unfold regionsOverlap
  simp only [Bool.and_eq_false_iff, decide_eq_false_iff_not]
  omega

/-- When every check of the regions passes (R56). -/
theorem checkRegions_eq_none {memBytes : Nat} {srcs : List Region} {dst : Region} :
    checkRegions memBytes srcs dst = none ↔
      (∀ r ∈ srcs, checkRegion memBytes r = none) ∧ checkRegion memBytes dst = none ∧
        ∀ r ∈ srcs, regionsOverlap r dst = false := by
  unfold checkRegions
  split
  · next e he =>
    have : ¬ ∀ r ∈ srcs ++ [dst], checkRegion memBytes r = none := by rw [← checkEach_eq_none, he]; simp
    constructor
    · intro h; cases h
    · rintro ⟨h1, h2, -⟩
      refine absurd (fun r hr => ?_) this
      rcases List.mem_append.mp hr with hr | hr
      · exact h1 r hr
      · rw [List.mem_singleton.mp hr]; exact h2
  · next he =>
    rw [checkEach_eq_none] at he
    have h1 : ∀ r ∈ srcs, checkRegion memBytes r = none := fun r hr => he r (by simp [hr])
    have h2 : checkRegion memBytes dst = none := he dst (by simp)
    by_cases ha : srcs.any (fun r => regionsOverlap r dst) = true
    · simp only [ha, if_true]
      obtain ⟨r, hr, ho⟩ := List.any_eq_true.mp ha
      constructor
      · intro h; cases h
      · rintro ⟨-, -, h3⟩; simp [h3 r hr] at ho
    · simp only [ha]
      have h3 : ∀ r ∈ srcs, regionsOverlap r dst = false := by simpa using ha
      exact iff_of_true (by simp) ⟨h1, h2, h3⟩

/-- The sample offset of a location, where it has one (R94). -/
theorem location_eq_ok {loc : F64} {rate off : Nat} :
    location loc rate = .ok off ↔
      F64.finite (F64.mul loc (F64.ofNat rate)) = true ∧ F64.rne (F64.mul loc (F64.ofNat rate)) = (off : Int) := by
  unfold location
  by_cases hf : F64.finite (F64.mul loc (F64.ofNat rate)) = true
  · by_cases hn : F64.rne (F64.mul loc (F64.ofNat rate)) < 0
    · simp only [hf, hn, Bool.not_true, Bool.false_eq_true, if_false, if_true, true_and]
      constructor
      · intro h; cases h
      · intro h; omega
    · simp only [hf, hn, Bool.not_true, Bool.false_eq_true, if_false, true_and, Except.ok.injEq]
      omega
  · simp [hf]

/-- When MOD's checks pass (R83). -/
theorem modChecks_ok {s : State} {d : Region} (h : modChecks s = .ok d) :
    s.pvalid = true ∧ d = modDestination s ∧
      checkRegions s.memBytes [bitRegion s.operands.srcA s.operands.lenA.toNat] (modDestination s) = none := by
  cases hc : checkRegions s.memBytes [bitRegion s.operands.srcA s.operands.lenA.toNat] (modDestination s) <;>
    cases hp : s.pvalid <;> simp_all [modChecks]

/-- When DEMOD's checks before the windows pass (R87). -/
theorem demodChecks_ok {s : State} {d : Region} (h : demodChecks s = .ok d) :
    s.pvalid = true ∧ d = demodDestination s ∧
      checkRegions s.memBytes [sampleRegion s.operands.srcA s.operands.lenA.toNat] (demodDestination s) = none := by
  cases hc : checkRegions s.memBytes [sampleRegion s.operands.srcA s.operands.lenA.toNat] (demodDestination s) <;>
    cases hp : s.pvalid <;> simp_all [demodChecks]

/-- When EMBED's checks pass, with the offset and the destination (R95). -/
theorem embedChecks_ok {s : State} {off : Nat} {d : Region} (h : embedChecks s = .ok (off, d)) :
    s.operands.rateA = s.operands.rateB ∧ s.operands.lenB.toNat ≤ s.operands.lenA.toNat ∧
      capacityHolds s.operands.loc s.operands.rateA.toNat s.operands.lenB.toNat s.operands.lenA.toNat = true ∧
      location s.operands.loc s.operands.rateA.toNat = .ok off ∧ d = embedDestination s ∧
      checkRegions s.memBytes
        [sampleRegion s.operands.srcA s.operands.lenA.toNat, sampleRegion s.operands.srcB s.operands.lenB.toNat]
        (embedDestination s) = none := by
  simp only [embedChecks] at h
  split_ifs at h with hrate hlen hcap
  cases hl : location s.operands.loc s.operands.rateA.toNat with
  | error e => simp [hl] at h
  | ok o =>
    cases hc : checkRegions s.memBytes
        [sampleRegion s.operands.srcA s.operands.lenA.toNat, sampleRegion s.operands.srcB s.operands.lenB.toNat]
        (embedDestination s) with
    | some e => simp [hl, hc] at h
    | none =>
      simp only [hl, hc, Except.ok.injEq, Prod.mk.injEq] at h
      exact ⟨not_not.mp hrate, not_lt.mp hlen, by simpa using hcap, by rw [h.1], h.2.symm, rfl⟩

/-- When EXTRACT's checks pass, with the offset and the destination (R97). -/
theorem extractChecks_ok {s : State} {off : Nat} {d : Region} (h : extractChecks s = .ok (off, d)) :
    s.operands.rateA = s.operands.rateB ∧ s.operands.lenA = s.operands.lenB ∧
      location s.operands.loc s.operands.rateA.toNat = .ok off ∧
      off + s.operands.width.toNat ≤ s.operands.lenA.toNat ∧ d = extractDestination s ∧
      checkRegions s.memBytes
        [sampleRegion s.operands.srcA s.operands.lenA.toNat, sampleRegion s.operands.srcB s.operands.lenB.toNat]
        (extractDestination s) = none := by
  simp only [extractChecks] at h
  split_ifs at h with hrate hlen
  cases hl : location s.operands.loc s.operands.rateA.toNat with
  | error e => simp [hl] at h
  | ok o =>
    simp only [hl] at h
    split_ifs at h with hfit
    cases hc : checkRegions s.memBytes
        [sampleRegion s.operands.srcA s.operands.lenA.toNat, sampleRegion s.operands.srcB s.operands.lenB.toNat]
        (extractDestination s) with
    | some e => simp [hc] at h
    | none =>
      simp only [hc, Except.ok.injEq, Prod.mk.injEq] at h
      exact ⟨not_not.mp hrate, not_not.mp hlen, by rw [h.1], h.1 ▸ not_lt.mp hfit, h.2.symm, rfl⟩

/-- Everything MOD can answer. -/
theorem execMod_cases {s : State} {r : Result} (h : execMod s = r) :
    (∃ e, modChecks s = .error e ∧ r = .next (complete (errorByte e) s)) ∨
      (∃ d, modChecks s = .ok d ∧
        r = .next (complete 0#8
          { s with
            buf := Memory.putSamples s.buf d.base (modOutput s)
            results :=
              { s.results with outLen := BitVec.ofNat 32 (s.operands.lenA.toNat * s.params.ss.toNat) } })) := by
  unfold execMod at h
  split at h
  · next e he => exact .inl ⟨e, he, h.symm⟩
  · next d hd => exact .inr ⟨d, hd, h.symm⟩

/-- Everything DEMOD can answer. -/
theorem execDemod_cases {s : State} {r : Result} (h : execDemod s = r) :
    (∃ e, demodChecks s = .error e ∧ r = .next (complete (errorByte e) s)) ∨
      (∃ d, demodChecks s = .ok d ∧ r = finishDemod d (demodDecisions s) s) := by
  unfold execDemod at h
  split at h
  · next e he => exact .inl ⟨e, he, h.symm⟩
  · next d hd => exact .inr ⟨d, hd, h.symm⟩

/-- Everything EMBED can answer. -/
theorem execEmbed_cases {s : State} {r : Result} (h : execEmbed s = r) :
    (∃ e, embedChecks s = .error e ∧ r = .next (complete (errorByte e) s)) ∨
      (∃ off d, embedChecks s = .ok (off, d) ∧
        r = .next (complete 0#8
          { s with
            buf := Memory.putSamples s.buf d.base (embedOutput s off)
            results :=
              { s.results with
                outLen := s.operands.lenA
                descWidth := s.operands.lenB
                offset := BitVec.ofNat 32 off } })) := by
  unfold execEmbed at h
  split at h
  · next e he => exact .inl ⟨e, he, h.symm⟩
  · next off d hd => exact .inr ⟨off, d, hd, h.symm⟩

/-- Everything EXTRACT can answer. -/
theorem execExtract_cases {s : State} {r : Result} (h : execExtract s = r) :
    (∃ e, extractChecks s = .error e ∧ r = .next (complete (errorByte e) s)) ∨
      (∃ off d, extractChecks s = .ok (off, d) ∧
        r = .next (complete 0#8
          { s with
            buf := Memory.putSamples s.buf d.base (extractOutput s off)
            results := { s.results with outLen := s.operands.width, offset := BitVec.ofNat 32 off } })) := by
  unfold execExtract at h
  split at h
  · next e he => exact .inl ⟨e, he, h.symm⟩
  · next off d hd => exact .inr ⟨off, d, hd, h.symm⟩

/-- Everything DERIVE can answer. -/
theorem execDerive_cases {s : State} {r : Result} (h : execDerive s = r) :
    (s.valpol = true ∧ (ampInRange s.ampIn && bpInRange s.bpIn && redInRange s.redIn) = false ∧
        r = .next (complete 0x01#8 s)) ∨
      (∃ a b n,
        a = (if ampInRange s.ampIn then s.ampIn else defAmp) ∧ b = (if bpInRange s.bpIn then s.bpIn else defBp) ∧
        n = (if redInRange s.redIn then s.redIn.toNat else defRed) ∧
        r = .next (complete 0#8
          { s with
            warn := s.warn ||| substitutionWarnings (ampInRange s.ampIn) (bpInRange s.bpIn) (redInRange s.redIn)
            params := deriveParams a b n
            tables := deriveTables (deriveParams a b n) (2 * n) s.tables
            pvalid := true })) := by
  unfold execDerive at h
  simp only at h
  split at h
  · next hc =>
    rw [Bool.and_eq_true, Bool.not_eq_true'] at hc
    exact .inl ⟨hc.2, hc.1, h.symm⟩
  · exact .inr ⟨_, _, _, rfl, rfl, rfl, h.symm⟩

theorem fillTable_length {n : Nat} {f : Nat → F64} {old : List F64} (h : n ≤ old.length) :
    (fillTable n f old).length = old.length := by
  simp [fillTable]; omega

theorem fillTable_getElem? {n k : Nat} {f : Nat → F64} {old : List F64} (h : k < n) :
    (fillTable n f old)[k]? = some (f k) := by
  simp [fillTable, List.getElem?_append, h]

/-- Every register of R20 is found at its offset. -/
theorem regAt_regOffset (r : Reg) : regAt (regOffset r) = some r := by
  have all : ∀ r ∈ allRegs, regAt (regOffset r) = some r := by decide +kernel
  refine all r ?_
  cases r with
  | half q h => cases q <;> cases h <;> decide
  | _ => decide

/-- A write while IDLE takes effect, and is ignored at a reserved offset (R20). -/
theorem writeOffset_idle {s : State} (h : s.phase = .idle) (off : BitVec 12) (v : Word) :
    writeOffset off v s = match regAt off with | some r => writeReg r v s | none => s := by
  cases hr : regAt off <;> simp [writeOffset, h, hr]

/-- A write while BUSY to a place other than INT_STATUS and INT_ENABLE is dropped (R24). -/
theorem writeOffset_busy_dropped {s : State} (h : s.phase = .busy) {off : BitVec 12}
    (hw : writableWhileBusy (regAt off) = false) (v : Word) :
    writeOffset off v s = { s with warn := s.warn ||| warnOvr } := by
  unfold writeOffset
  rw [if_pos ⟨h, hw⟩]

theorem engineTurn_busy {s : State} (h : s.phase = .busy) : engineTurn s = runPending s := by
  unfold engineTurn; rw [h]

theorem engineTurn_idle {s : State} (h : s.phase = .idle) : engineTurn s = .next s := by
  unfold engineTurn; rw [h]

/-- Bit 0 of a STATUS read is BUSY (R28). -/
theorem readOffset_status_bit (s : State) :
    (readOffset (regOffset .status) s).getLsbD 0 = decide (s.phase = .busy) := by
  simp only [readOffset, regAt_regOffset, readReg, State.statusWord]
  rw [BitVec.getLsbD_append]
  cases s.phase <;> simp

/-- While IDLE the loop over STATUS reads once more and ends (R74). -/
theorem pollTurn_idle {s : State} (h : s.phase = .idle) (n : Nat) (rest : List Turn) :
    pollTurn n rest s = .next (hostRegRead 4 (regOffset .status) { s with turns := rest }) := by
  unfold pollTurn
  rw [readOffset_status_bit, h]
  rfl

/-- While BUSY the loop goes on after a read (R74). -/
theorem pollTurn_busy {s : State} (h : s.phase = .busy) (n : Nat) (rest : List Turn) :
    pollTurn (n + 1) rest s =
      .next (hostRegRead 4 (regOffset .status) { s with turns := .pollStatus n :: rest }) := by
  unfold pollTurn
  rw [readOffset_status_bit, h]
  rfl

/-- With its reads before the Engine's step used up, the loop leaves the step to a BUSY Engine (R132). -/
theorem pollTurn_waits {s : State} (h : s.phase = .busy) (rest : List Turn) : pollTurn 0 rest s = engineTurn s := by
  unfold pollTurn
  rw [readOffset_status_bit, h]
  rfl

theorem runPending_ok {s : State} {i : Instr} (h : decodeWord s.pending = .ok i) : runPending s = exec i s := by
  unfold runPending; rw [h]

theorem runPending_error {s : State} {e : DecodeError} (h : decodeWord s.pending = .error e) :
    runPending s = .next (complete 0x10#8 s) := by
  unfold runPending; rw [h]; rfl

end Sys2Proof.Machine
end

