-- ==== Sys2Proof/Laws/PerInstr.lean ====
section
/-! SUPPORT. What holds of each command as syntax: one lemma per constructor. -/

namespace Sys2Proof.Laws

/-- The command's word is well formed and decodes to the command (R66, R67). -/
def RoundTrip.Statement (i : Instr) : Prop :=
  Instr.wellFormed i = true ∧ wellFormedWord (encode i) = true ∧ decodeWord (encode i) = .ok i

theorem RoundTrip.nop : RoundTrip.Statement .nop := ⟨rfl, rfl, rfl⟩
theorem RoundTrip.derive : RoundTrip.Statement .derive := ⟨rfl, rfl, rfl⟩
theorem RoundTrip.mod : RoundTrip.Statement .mod := ⟨rfl, rfl, rfl⟩
theorem RoundTrip.demod : RoundTrip.Statement .demod := ⟨rfl, rfl, rfl⟩
theorem RoundTrip.embed : RoundTrip.Statement .embed := ⟨rfl, rfl, rfl⟩
theorem RoundTrip.extract : RoundTrip.Statement .extract := ⟨rfl, rfl, rfl⟩

end Sys2Proof.Laws
end

