-- ==== Sys2Proof/Laws/Step.lean ====
section
/-! SUPPORT. What one step can be. -/

namespace Sys2Proof.Machine

/-- Everything a step can answer: the Engine's turn on the state itself or on the state without its first turn, or one
access of the Host, or a reset. -/
theorem step_cases {s : State} {r : Result} (h : step s = r) :
    (∃ turns, engineTurn { s with turns := turns } = r ∧
        (turns = s.turns ∨ s.turns = .engine :: turns)) ∨
      (∃ rest width off v, s.turns = .regWrite width off v :: rest ∧
        r = .next (hostRegWrite width off v { s with turns := rest })) ∨
      (∃ rest width off, s.turns = .regRead width off :: rest ∧
        r = .next (hostRegRead width off { s with turns := rest })) ∨
      (∃ rest n turns, s.turns = .pollStatus n :: rest ∧
        r = .next (hostRegRead 4 (regOffset .status) { s with turns := turns }) ∧
        (s.phase = .idle ∧ turns = rest ∨ s.phase = .busy ∧ ∃ m, n = m + 1 ∧ turns = .pollStatus m :: rest)) ∨
      (∃ rest width addr v, s.phase = .idle ∧ s.turns = .bufWrite width addr v :: rest ∧
        r = .next (hostBufWrite width addr v { s with turns := rest })) ∨
      (∃ rest width addr, s.phase = .idle ∧ s.turns = .bufRead width addr :: rest ∧
        r = .next (hostBufRead width addr { s with turns := rest })) ∨
      (∃ rest, s.turns = .reset :: rest ∧ r = .next (platformReset { s with turns := rest })) ∨
      (∃ rest, s.turns = .powerOn :: rest ∧ r = .next (powerOnReset { s with turns := rest })) := by
  subst h
  -- the Engine's turn on the state itself
  have own : ∀ {P : Prop}, step s = engineTurn s →
      ((∃ turns, engineTurn { s with turns := turns } = step s ∧ (turns = s.turns ∨ s.turns = .engine :: turns)) ∨ P) :=
    fun h => .inl ⟨s.turns, h.symm, .inl rfl⟩
  have hphase : s.phase = .idle ∨ s.phase = .busy := by cases s.phase <;> simp
  cases ht : s.turns with
  | nil => exact ht ▸ own (by simp [step, nextTurn, ht])
  | cons turn rest =>
    cases turn with
    | engine => exact .inl ⟨rest, by simp [step, nextTurn, ht], .inr rfl⟩
    | pollStatus n =>
      rcases hphase with hp | hp
      · have hs : step s = .next (hostRegRead 4 (regOffset .status) { s with turns := rest }) := by
          simp only [step, nextTurn, ht, pollTurn_idle hp]
        exact .inr (.inr (.inr (.inl ⟨rest, n, rest, rfl, hs, .inl ⟨hp, rfl⟩⟩)))
      · cases n with
        | zero => exact ht ▸ own (by simp only [step, nextTurn, ht, pollTurn_waits hp])
        | succ m =>
          have hs : step s = .next (hostRegRead 4 (regOffset .status) { s with turns := .pollStatus m :: rest }) := by
            simp only [step, nextTurn, ht, pollTurn_busy hp]
          exact .inr (.inr (.inr (.inl ⟨rest, m + 1, _, rfl, hs, .inr ⟨hp, m, rfl, rfl⟩⟩)))
    | bufWrite width addr v =>
      rcases hphase with hp | hp
      · simp [step, nextTurn, ht, bufTurn, hp]
      · exact ht ▸ own (by simp [step, nextTurn, ht, bufTurn, hp])
    | bufRead width addr =>
      rcases hphase with hp | hp
      · simp [step, nextTurn, ht, bufTurn, hp]
      · exact ht ▸ own (by simp [step, nextTurn, ht, bufTurn, hp])
    | _ => simp [step, nextTurn, ht]

/-- The block performs a 32-bit access to any register of R20's table (R23). -/
theorem regAccessOk_regOffset (r : Reg) : regAccessOk 4 (regOffset r) = true := by
  cases r
  case half q h => cases q <;> cases h <;> decide
  all_goals decide

/-- The step of a Host write to a register while IDLE (R20, R23). -/
theorem step_regWrite_idle {s : State} (hp : s.phase = .idle) {r : Reg} {v : Word} {rest : List Turn}
    (ht : s.turns = .regWrite 4 (regOffset r) v :: rest) :
    step s = .next (answer .written (writeReg r v { s with turns := rest })) := by
  simp only [step, nextTurn, ht, hostRegWrite, regAccessOk_regOffset, if_true]
  rw [writeOffset_idle (s := { s with turns := rest }) hp, regAt_regOffset]

/-- The step of a Host read of a register, in every phase (R20, R23). -/
theorem step_regRead {s : State} {r : Reg} {rest : List Turn} (ht : s.turns = .regRead 4 (regOffset r) :: rest) :
    step s = .next (answer (.regData (readReg r s)) { s with turns := rest }) := by
  simp only [step, nextTurn, ht, hostRegRead, regAccessOk_regOffset, if_true, readOffset, regAt_regOffset]
  rfl

/-- A run of one step more, when the first step answers a next state. -/
theorem run_succ {s t : State} (h : step s = .next t) (n : Nat) :
    Host.Core.run Sys2Proof.core (n + 1) s = Host.Core.run Sys2Proof.core n t := by
  have hc : Sys2Proof.core.step s = .next t := h
  simp only [Host.Core.run, hc]

/-- The next step after a command word is put in place runs that command (R47). -/
theorem step_withFetchWord (s : State) (nbits w : Nat) :
    step (s.withFetchWord nbits w) = runPending (accept (BitVec.ofNat 32 (w % 2 ^ nbits)) s) := rfl

end Sys2Proof.Machine
end

