-- ==== Sys2Proof/Machine/Platform.lean ====
section
/-! DEFINITION. Where the platform puts the block (R50, R107). The block's own behaviour does not depend on any of it:
no step reads this file. Log 12. -/

namespace Sys2Proof.Machine

/-- The two Host-visible address spaces (R48). -/
inductive Space where
  | reg
  | buf
  deriving DecidableEq, Repr

/-- The place of the block that a bus address of the platform reaches, if any: REG at REG_BASE, BUF at BUF_BASE (R20,
R49, R50). -/
def busPlace (s : State) (pa : Nat) : Option (Space × Nat) :=
  if Config.regBase ≤ pa ∧ pa < Config.regBase + 4096 then some (.reg, pa - Config.regBase)
  else if Config.bufBase ≤ pa ∧ pa < Config.bufBase + s.memBytes then some (.buf, pa - Config.bufBase)
  else none

/-- Whether the block asserts a platform interrupt line: only IRQ_LINE, at the level of IRQ (R33, R107). -/
def drivesLine (s : State) (line : Nat) : Bool := line == Config.irqLine && s.irq

end Sys2Proof.Machine
end

