-- ==== Sys2Proof/Tests/Slice0.lean ====
section
/-! SUPPORT. The model's own tests: words, vectors of 95_test_vectors.md on one step, and for each statement of
Certificates/Slice0/Obligations.lean that has hypotheses a state and operands that meet them. -/

namespace Sys2Proof.Tests

set_option Elab.async false

open Sys2Proof Sys2Proof.Machine Sys2Proof.Safety

/-! Well-formedness: each check refuses an ill-formed word and accepts the words of R66. -/

theorem test_reserved_bit_eight_is_refused : reservedClear 0x00000100#32 = false := by decide
theorem test_reserved_bit_thirty_one_is_refused : reservedClear 0x80000001#32 = false := by decide
theorem test_opcode_six_is_refused : opcodeKnown 0x00000006#32 = false := by decide
theorem test_opcode_ff_is_refused : opcodeKnown 0x000000FF#32 = false := by decide
theorem test_ill_formed_words_are_refused :
    wellFormedWord 0x00000102#32 = false ∧ wellFormedWord 0x00000006#32 = false := by decide
theorem test_command_words_are_well_formed :
    wellFormedWord 0#32 = true ∧ wellFormedWord 5#32 = true := by decide

/-! Decoding, from words written out bit by bit from R64 and R66: RSVD, then OP. -/

theorem test_decode_nop : decodeWord 0b000000000000000000000000_00000000#32 = .ok .nop := by decide
theorem test_decode_derive : decodeWord 0b000000000000000000000000_00000001#32 = .ok .derive := by decide
theorem test_decode_mod : decodeWord 0b000000000000000000000000_00000010#32 = .ok .mod := by decide
theorem test_decode_demod : decodeWord 0b000000000000000000000000_00000011#32 = .ok .demod := by decide
theorem test_decode_embed : decodeWord 0b000000000000000000000000_00000100#32 = .ok .embed := by decide
theorem test_decode_extract : decodeWord 0b000000000000000000000000_00000101#32 = .ok .extract := by decide
theorem test_decode_table_word : decodeTableWord 32 3 = some .demod ∧ decodeTableWord 8 6 = none := by decide

/-! States. -/

/-- The next state of a result, if there is one. -/
def next? (r : Result) : Option State :=
  match r with
  | .next t => some t
  | .fault e => nomatch e
  | .refused _ => none

/-- The state of vector DV-D1: the parameters and the tables the spec prints. -/
def derived : State :=
  { State.reset with
    pvalid := true
    params :=
      { amp := 0x3F1A36E2EB1C432D, bp := 0x3EF7C6F8C751F177, br := 0x40E5888000000000
        fOne := 0x40F5888000000000, fZero := 0x40E5888000000000, rp := 0x3ED7C6F8C751F177
        wOne := 0x4120E981E3603068, wZero := 0x4110E981E3603068, red := 2, ss := 4 }
    tables :=
      { taxis := [0x0000000000000000, 0x3ED7C6F8C751F177, 0x3EE7C6F8C751F177, 0x3EF1D53A957D7519]
          ++ List.replicate 196 0
        ref1 := [0x3F1A36E2EB1C432D, 0xBF1A36E2EB1C432D, 0x3F1A36E2EB1C432D, 0xBF1A36E2EB1C432D]
          ++ List.replicate 196 0
        ref0 := [0x3F1A36E2EB1C432D, 0x3BBCEA89222089AC, 0xBF1A36E2EB1C432D, 0xBBD5AFE6D9986741]
          ++ List.replicate 196 0
        cref1 := [0x3FF0000000000000, 0xBFF0000000000000, 0x3FF0000000000000, 0xBFF0000000000000]
          ++ List.replicate 196 0
        cref0 := [0x3FF0000000000000, 0x3C91A62633145C07, 0xBFF0000000000000, 0xBCAA79394C9E8A0A]
          ++ List.replicate 196 0 } }

/-- A state with the operands of MOD or DEMOD. -/
def withOperands (src len d : Word) (s : State) : State :=
  { s with operands := { s.operands with srcA := src, lenA := len, dst := d } }

/-- A state with the command word `v` accepted. -/
def holding (v : Word) (s : State) : State := accept v s

/-- A state with the given turns to come. -/
def facing (turns : List Turn) (s : State) : State := { s with turns := turns }

/-- DV-M3: three bits 101 at 0x100. -/
def modState : State := withOperands 0x100 3 0x200 { derived with buf := [(0x100, 0xA0)] }

/-- DV-Dm3: the windows S1, zeros, S0 at 0x200, 0xEE at 0x400, with an ambiguity policy. -/
def demodState (ambpol : BitVec 2) : State :=
  withOperands 0x200 12 0x400
    { derived with
      ambpol := ambpol
      buf :=
        Memory.write
          (Memory.putSamples [] 0x200
            [0x3F1A36E2EB1C432D, 0xBF1A36E2EB1C432D, 0x3F1A36E2EB1C432D, 0xBF1A36E2EB1C432D, 0, 0, 0, 0,
              0x3F1A36E2EB1C432D, 0x3BBCEA89222089AC, 0xBF1A36E2EB1C432D, 0xBBD5AFE6D9986741]) 0x400 [0xEE] }

/-- The first window of DV-Dm3 alone: no window is ambiguous. -/
def demodOneWindow (ambpol : BitVec 2) : State := withOperands 0x200 4 0x400 (demodState ambpol)

/-- A state with the operands of EMBED or EXTRACT. -/
def withSignals (a la ra b lb rb w d : Word) (loc : F64) (s : State) : State :=
  { s with
    operands :=
      { srcA := a, lenA := la, rateA := ra, srcB := b, lenB := lb, rateB := rb, dst := d, width := w, loc := loc } }

/-- DV-E2: host 1 to 8, payload 10, 20, 30, location 2/44100. -/
def embedState : State :=
  withSignals 0x1000 8 44100 0x1100 3 44100 0 0x1200 0x3F07C6F8C751F177
    { State.reset with
      buf :=
        Memory.putSamples
          (Memory.putSamples [] 0x1000
            [0x3FF0000000000000, 0x4000000000000000, 0x4008000000000000, 0x4010000000000000, 0x4014000000000000,
              0x4018000000000000, 0x401C000000000000, 0x4020000000000000])
          0x1100 [0x4024000000000000, 0x4034000000000000, 0x403E000000000000] }

/-- DV-E7: host of four -0.0, payload -0.0, location 1.0 at rate 1. -/
def embedZeros : State :=
  withSignals 0x1000 4 1 0x1100 1 1 0 0x1200 one
    { State.reset with
      buf := Memory.putSamples (Memory.putSamples [] 0x1000 [negZero, negZero, negZero, negZero]) 0x1100 [negZero] }

/-- DV-X1: the output of DV-E2 at 0x1200, its host at 0x1000. -/
def extractState : State :=
  withSignals 0x1200 8 44100 0x1000 8 44100 3 0x1300 0x3F07C6F8C751F177
    { embedState with
      buf :=
        Memory.putSamples embedState.buf 0x1200
          [0x3FD0000000000000, 0x3FE0000000000000, 0x4025800000000000, 0x4035000000000000, 0x403F400000000000,
            0x3FF8000000000000, 0x3FFC000000000000, 0x4000000000000000] }

/-! States that one check of MOD, DEMOD, EMBED or EXTRACT turns away. -/

/-- DV-M6 (b). -/
def modSourceOut : State := withOperands 0x40000 1 0x200 derived

/-- DV-M6 (a). -/
def modDestOut : State := withOperands 0x100 8 0x3FF08 derived

/-- DV-M5. -/
def modDestOdd : State := withOperands 0x100 8 0x204 derived

/-- DV-M7 (a). -/
def modSame : State := withOperands 0x200 8 0x200 derived

/-- A sample buffer that ends 8 bytes past BUF. -/
def demodSourceOut : State := withOperands 0x3FF08 32 0x400 derived

/-- DV-Dm6 (b). -/
def demodSourceOdd : State := withOperands 0x204 3 0x400 derived

/-- DV-Dm8. -/
def demodDestOut : State := withOperands 0x200 32 0x40000 derived

/-- DV-Dm7. -/
def demodInside : State := withOperands 0x200 32 0x208 derived

/-- DV-E5 (b). -/
def embedRates : State := withSignals 0x1000 2 44100 0x1100 3 48000 0 0x1200 posZero State.reset

/-- DV-E5 (a). -/
def embedTooLong : State := withSignals 0x1000 2 44100 0x1100 3 44100 0 0x1200 posZero State.reset

/-- DV-E4, LOC = 5.5. -/
def embedPastEnd : State := withSignals 0x1000 8 1 0x1100 3 1 0 0x1200 0x4016000000000000 State.reset

/-- DV-E4, LOC = -1.0. -/
def embedBelowZero : State := withSignals 0x1000 8 1 0x1100 3 1 0 0x1200 0xBFF0000000000000 State.reset

/-- A host past the end of BUF. -/
def embedHostOut : State := withSignals 0x40000 8 1 0x1100 3 1 0 0x1200 posZero State.reset

/-- A misaligned host. -/
def embedHostOdd : State := withSignals 0x1004 8 1 0x1100 3 1 0 0x1200 posZero State.reset

/-- A payload that ends 8 bytes past BUF. -/
def embedPayloadOut : State := withSignals 0x1000 8 1 0x3FFF0 3 1 0 0x1200 posZero State.reset

/-- A misaligned payload. -/
def embedPayloadOdd : State := withSignals 0x1000 8 1 0x1104 3 1 0 0x1200 posZero State.reset

/-- A destination that ends 8 bytes past BUF. -/
def embedDestOut : State := withSignals 0x1000 8 1 0x1100 3 1 0 0x3FFC8 posZero State.reset

/-- DV-E5 (c). -/
def embedDestOdd : State := withSignals 0x1000 8 1 0x1100 3 1 0 0x1204 posZero State.reset

/-- DV-E5 (e). -/
def embedInside : State := withSignals 0x1000 8 1 0x1100 3 1 0 0x1020 posZero State.reset

/-- DV-X3 (b) on short buffers. -/
def extractRates : State := withSignals 0x1200 8 1 0x1000 8 2 3 0x1300 posZero State.reset

/-- DV-X3 (a) on short buffers. -/
def extractLengths : State := withSignals 0x1200 8 1 0x1000 7 1 3 0x1300 posZero State.reset

/-- DV-X3 (f) on short buffers. -/
def extractBelowZero : State := withSignals 0x1200 8 1 0x1000 8 1 3 0x1300 0xBFF0000000000000 State.reset

/-- DV-X3 (g) on short buffers. -/
def extractNaN : State := withSignals 0x1200 8 1 0x1000 8 1 3 0x1300 cnan State.reset

/-- DV-X3 (d) on short buffers: offset 6, width 3, length 8. -/
def extractPastEnd : State := withSignals 0x1200 8 1 0x1000 8 1 3 0x1300 0x4018000000000000 State.reset

/-- A mixed buffer past the end of BUF. -/
def extractMixedOut : State := withSignals 0x40000 8 1 0x1000 8 1 3 0x1300 posZero State.reset

/-- A misaligned mixed buffer. -/
def extractMixedOdd : State := withSignals 0x1204 8 1 0x1000 8 1 3 0x1300 posZero State.reset

/-- A host that ends 8 bytes past BUF. -/
def extractHostOut : State := withSignals 0x1200 8 1 0x3FFC8 8 1 3 0x1300 posZero State.reset

/-- A misaligned host. -/
def extractHostOdd : State := withSignals 0x1200 8 1 0x1004 8 1 3 0x1300 posZero State.reset

/-- A destination that ends 8 bytes past BUF. -/
def extractDestOut : State := withSignals 0x1200 8 1 0x1000 8 1 3 0x3FFF0 posZero State.reset

/-- A misaligned destination. -/
def extractDestOdd : State := withSignals 0x1200 8 1 0x1000 8 1 3 0x1304 posZero State.reset

/-- A destination inside the mixed buffer. -/
def extractInside : State := withSignals 0x1200 8 1 0x1000 8 1 3 0x1208 posZero State.reset

/-! One step of each command, against the vectors. -/

/-- DV-N1. -/
theorem test_nop_completes :
    (next? (exec .nop (holding 0 { State.reset with intEnable := 1 }))).map
      (fun t => (t.statusWord, t.errcode, t.intStatus, t.irq, t.cmdcnt)) = some (0#32, 0#8, 1#2, true, 1#32) := by
  decide +kernel

/-- DV-D1. -/
theorem test_derive_defaults :
    (next? (exec .derive (holding 1 State.reset))).map (fun t =>
      (t.statusWord, t.warn, t.params, t.tables)) =
        some (0x00000102#32, 0#5, derived.params, derived.tables) := by
  decide +kernel

/-- DV-D10. -/
theorem test_derive_reject :
    (next? (exec .derive (holding 1 { derived with valpol := true, bpIn := 0x3FC999999999999A }))).map
      (fun t => (t.errcode, t.statusWord, t.intStatus, t.warn, t.params.rp)) =
        some (0x01#8, 0x00000106#32, 0b11#2, 0#5, 0x3ED7C6F8C751F177#64) := by
  decide +kernel

/-- DV-M3: the tones S1, S0, S1. -/
theorem test_mod_three_bits :
    (next? (exec .mod modState)).map (fun t =>
      (t.errcode, t.results.outLen, (List.range 12).map (fun j => Memory.sample t.buf (0x200 + 8 * j)))) =
        some (0#8, 12#32,
          derived.tables.ref1.take 4 ++ derived.tables.ref0.take 4 ++ derived.tables.ref1.take 4) := by
  decide +kernel

/-- DV-M7 (b): the destination 0x200..0x2FF contains the source byte. -/
theorem test_mod_overlap :
    (next? (exec .mod (withOperands 0x2FF 8 0x200 derived))).map (fun t => (t.errcode, t.results.outLen)) =
      some (0x14#8, 0#32) := by
  decide +kernel

/-- DV-Dm3, EMIT1: the bits 110. -/
theorem test_demod_emit_one :
    (next? (exec .demod (demodState 2))).map (fun t => (t.errcode, Memory.read t.buf 0x400, t.results, t.warn)) =
      some (0#8, 0xC0#8,
        { outLen := 3, descWidth := 0, offset := 0, nwin := 3, ambCount := 1, firstAmb := 1 }, 0x8#5) := by
  decide +kernel

/-- DV-Dm3, ABORT: FIRST_AMB and WARN.AMBIG are kept, the rest is discarded. -/
theorem test_demod_abort :
    (next? (exec .demod (demodState 3))).map (fun t => (t.errcode, Memory.read t.buf 0x400, t.results, t.warn)) =
      some (0x05#8, 0xEE#8,
        { outLen := 0, descWidth := 0, offset := 0, nwin := 0, ambCount := 0, firstAmb := 1 }, 0x8#5) := by
  decide +kernel

/-- DV-E2: 0.25, 0.5, 10.75, 21.0, 31.25, 1.5, 1.75, 2.0. -/
theorem test_embed_offset_two :
    (next? (exec .embed embedState)).map (fun t =>
      ((t.results.outLen, t.results.descWidth, t.results.offset),
        (List.range 8).map (fun j => Memory.sample t.buf (0x1200 + 8 * j)))) =
      some ((8#32, 3#32, 2#32),
        [0x3FD0000000000000#64, 0x3FE0000000000000#64, 0x4025800000000000#64, 0x4035000000000000#64,
          0x403F400000000000#64, 0x3FF8000000000000#64, 0x3FFC000000000000#64, 0x4000000000000000#64]) := by
  decide +kernel

/-- DV-E7: only a payload of -0.0 over a host of -0.0 stays -0.0. -/
theorem test_embed_zero_signs :
    (next? (exec .embed embedZeros)).map (fun t =>
      (List.range 4).map (fun j => Memory.sample t.buf (0x1200 + 8 * j))) =
        some [0x0000000000000000#64, 0x8000000000000000#64, 0x0000000000000000#64, 0x0000000000000000#64] := by
  decide +kernel

/-- DV-X1: 10.0, 20.0, 30.0. -/
theorem test_extract_restores_payload :
    (next? (exec .extract extractState)).map (fun t =>
      (t.results.outLen, t.results.offset, (List.range 3).map (fun j => Memory.sample t.buf (0x1300 + 8 * j)))) =
        some (3#32, 2#32, [0x4024000000000000#64, 0x4034000000000000#64, 0x403E000000000000#64]) := by
  decide +kernel

/-- DV-X3 (c): the rate check comes before the length check. -/
theorem test_extract_rate_first :
    (next? (exec .extract (withSignals 0x14000 1000 44100 0x10000 999 44101 100 0x18000 posZero State.reset))).map
      (fun t => t.errcode) = some 0x02#8 := by
  decide +kernel

/-- DV-N2, the word 0x000000FF. -/
theorem test_illegal_word :
    (next? (step (holding 0x000000FF State.reset))).map (fun t =>
      (t.errcode, t.statusWord, t.intStatus, t.cmdcnt)) =
        some (0x10#8, 0x0000FF04#32, 0b11#2, 1#32) := by
  decide +kernel

/-- R74: a `wait` after a MOD that sees BUSY once; its next read, after the Engine's step, shows bit 0 = 0 and ends it. -/
theorem test_wait_reads_until_idle :
    (match Host.Core.run Sys2Proof.core 3 (facing (assemble (.wait 1)) (holding 2 modState)) with
      | .next (t : State) => some (t.turns, t.replies)
      | _ => none) =
      some ([], [.regData 0x00000202#32, .regData 0x00000203#32]) := by
  decide +kernel

/-- DV-N5: a read-only register and a reserved offset ignore writes. -/
theorem test_read_only_offset :
    readOffset 0x000 (writeOffset 0x000 0 State.reset) = 0x46534B44#32 ∧
      readOffset 0x030 (writeOffset 0x030 0x12345678 State.reset) = 0#32 := by
  decide +kernel

/-- R11, R87, R95: an infinity stands above a finite value, and below none. -/
theorem test_infinite_comparisons :
    F64.gt 0x7FF0000000000000 0x3F0A36E2EB1C432D = true ∧ F64.le 0x7FF0000000000000 0x40F5888000000000 = false ∧
      F64.ge 0xFFF0000000000000 0x0000000000000000 = false := by
  decide +kernel

/-- R14: 2.5 goes to 2, 3.5 to 4, -0.5 to 0. -/
theorem test_rne :
    F64.rne 0x4004000000000000 = 2 ∧ F64.rne 0x400C000000000000 = 4 ∧ F64.rne 0xBFE0000000000000 = 0 := by
  decide +kernel

/-- What EMBED asks before its regions. -/
abbrev EmbedLocates (s : State) : Prop :=
  s.operands.rateA = s.operands.rateB ∧ lenB s ≤ lenA s ∧
    F64.le (F64.add (locProduct s) (F64.ofNat (lenB s))) (F64.ofNat (lenA s)) = true ∧
    F64.finite (locProduct s) = true ∧ 0 ≤ F64.rne (locProduct s)

/-- What EXTRACT asks before its regions. -/
abbrev ExtractLocates (s : State) (off : Nat) : Prop :=
  s.operands.rateA = s.operands.rateB ∧ s.operands.lenA = s.operands.lenB ∧
    F64.finite (locProduct s) = true ∧ F64.rne (locProduct s) = (off : Int) ∧ off + width s ≤ lenA s

/-! Witnesses: `witness_<Statement>` shows that the hypotheses of that statement can be met together. -/

theorem witness_DecodeIsTheOpcodeMap :
    (0x00000100#32).extractLsb' 8 24 ≠ 0#24 ∧ (0x00000000#32).extractLsb' 8 24 = 0#24 ∧
      (0x00000000#32).extractLsb' 0 8 = 0#8 ∧ (0x00000005#32).extractLsb' 0 8 = 5#8 ∧
      5 < ((0x00000006#32).extractLsb' 0 8).toNat ∧ 5 < ((0x000000FF#32).extractLsb' 0 8).toNat ∧
      (0x000000FF#32).extractLsb' 8 24 = 0#24 := by
  decide

theorem witness_StepRunsTheHeldCommand :
    (holding 2 modState).phase = .busy ∧ decodeWord (holding 2 modState).pending = .ok .mod ∧
      (holding 2 modState).turns = [] ∧ (facing [.engine] (holding 2 modState)).turns = .engine :: [] ∧
      (facing [.bufWrite 8 0 1] (holding 2 modState)).turns = .bufWrite 8 0 1 :: [] ∧
      (facing [.bufRead 1 0] (holding 2 modState)).turns = .bufRead 1 0 :: [] ∧
      (facing [.pollStatus 0] (holding 2 modState)).turns = .pollStatus 0 :: [] ∧
      decodeTableWord 32 5 = some .extract := by
  and_intros <;> decide +kernel

theorem witness_CommandWriteIsAccepted :
    (facing [.regWrite 4 0x020 3] State.reset).phase = .idle ∧
      (facing [.regWrite 4 0x020 3] State.reset).turns = .regWrite 4 0x020 3 :: [] := ⟨rfl, rfl⟩

theorem witness_IllegalWordCompletesWithIllegalCmd :
    (facing [.regWrite 4 0x020 0x102, .engine] State.reset).phase = .idle ∧
      (facing [.regWrite 4 0x020 0x102, .engine] State.reset).turns = .regWrite 4 0x020 0x102 :: .engine :: [] ∧
      (0x00000102#32).extractLsb' 8 24 ≠ 0#24 ∧ 5 < ((0x00000006#32).extractLsb' 0 8).toNat := by
  refine ⟨rfl, rfl, by decide, by decide⟩

/-- The same: a BUSY block that holds an illegal word, in each turn case. -/
theorem witness_IllegalWord_while_busy :
    (holding 6 State.reset).phase = .busy ∧ decodeWord (holding 6 State.reset).pending = .error .reservedOpcode ∧
      decodeWord (holding 0x102 State.reset).pending = .error .reservedBits ∧
      (holding 6 State.reset).turns = [] ∧ (facing [.engine] (holding 6 State.reset)).turns = .engine :: [] ∧
      (facing [.bufWrite 8 0 1] (holding 6 State.reset)).turns = .bufWrite 8 0 1 :: [] ∧
      (facing [.bufRead 1 0] (holding 6 State.reset)).turns = .bufRead 1 0 :: [] ∧
      (facing [.pollStatus 0] (holding 6 State.reset)).turns = .pollStatus 0 :: [] := by
  decide +kernel

theorem witness_NopCompletes :
    (0x00000100#32).extractLsb' 0 8 = 0#8 ∧ (0x00000100#32).extractLsb' 8 24 ≠ 0#24 := by decide

/-- For the statements about every next state of a command (EveryCommandEndsInComplete,
CommandsLeaveTheirInputsAlone, OnlyDeriveWritesTheParameterSet): each command completes with code 0 in some state. -/
theorem witness_every_command_completes :
    [(Instr.nop, State.reset), (.derive, State.reset), (.mod, modState), (.demod, demodState 0),
      (.embed, embedState), (.extract, extractState)].map (fun p => (next? (exec p.1 p.2)).map (fun t => t.errcode)) =
        [some 0#8, some 0#8, some 0#8, some 0#8, some 0#8, some 0#8] := by
  decide +kernel

/-- FailedCommandDiscardsItsWrites: a failure with another code than 0x05, and the failure with 0x05. -/
theorem witness_FailedCommandDiscardsItsWrites :
    (next? (exec .mod State.reset)).map (fun t => t.errcode) = some 0x11#8 ∧
      (next? (exec .demod (demodState 3))).map (fun t => t.errcode) = some 0x05#8 := by
  decide +kernel

/-- DeriveWritesTheParameterSet: SUBSTITUTE with every input out of range, REJECT with every input at a bound. -/
theorem witness_DeriveWritesTheParameterSet :
    DeriveRuns { State.reset with ampIn := posZero, bpIn := posZero, redIn := 101 } ∧
      DeriveRuns { State.reset with valpol := true, ampIn := ampMax, bpIn := bpMin, redIn := 100 } ∧
      DeriveRuns { State.reset with valpol := true, ampIn := 1, bpIn := bpMax, redIn := 2 } := by
  decide +kernel

/-- DerivedToneFrequencies, DerivedTablesStartAtPhaseZero. -/
theorem witness_derive_completes :
    (next? (exec .derive State.reset)).map (fun t => t.errcode) = some 0x00#8 := by
  decide +kernel

theorem witness_DeriveRejectsInputsOutOfRange :
    ({ State.reset with valpol := true, redIn := 1 } : State).valpol = true ∧
      ¬ InputsInRange { State.reset with valpol := true, redIn := 1 } ∧
      ¬ InputsInRange { State.reset with valpol := true, ampIn := 0x3FF0000000000001 } ∧
      ¬ InputsInRange { State.reset with valpol := true, bpIn := 0x3EA0C6F7A0B5ED8C } := by
  decide +kernel

/-- ModWritesOneSegmentPerBit, ModFollowsItsPseudocode: DV-M3; DV-M2 with no bit; a destination that ends where BUF
ends. -/
theorem witness_ModRuns :
    ModRuns modState ∧ Memory.wf modState.buf ∧ ModRuns (withOperands 0xFFFFFFF0 0 0x3 derived) ∧
      ModRuns (withOperands 0x100 8 0x3FF00 derived) := by
  decide +kernel

/-- ModDependsOnlyOnItsInputs: the same bits at another address, to another address. -/
theorem witness_ModDependsOnlyOnItsInputs :
    ModRuns modState ∧ ModRuns (withOperands 0x108 3 0x400 { derived with buf := [(0x108, 0xBF)] }) ∧
      ∀ i < 3, Memory.bit modState.buf 0x100 i = Memory.bit [(0x108, 0xBF)] 0x108 i := by
  decide +kernel

/-- ModRaisesTheFirstError: each clause in turn. -/
theorem witness_ModRaisesTheFirstError :
    State.reset.pvalid = false ∧
      (modSourceOut.pvalid = true ∧ ¬ InBuf modSourceOut (srcA modSourceOut) (ceil8 (lenA modSourceOut))) ∧
      (modDestOut.pvalid = true ∧
        InBuf modDestOut (srcA modDestOut) (ceil8 (lenA modDestOut)) ∧
        ¬ InBuf modDestOut (dst modDestOut) (8 * (lenA modDestOut * ss modDestOut))) ∧
      (modDestOdd.pvalid = true ∧
        InBuf modDestOdd (srcA modDestOdd) (ceil8 (lenA modDestOdd)) ∧
        InBuf modDestOdd (dst modDestOdd) (8 * (lenA modDestOdd * ss modDestOdd)) ∧
        ¬ Aligned8 (dst modDestOdd) (8 * (lenA modDestOdd * ss modDestOdd))) ∧
      (modSame.pvalid = true ∧
        InBuf modSame (srcA modSame) (ceil8 (lenA modSame)) ∧
        InBuf modSame (dst modSame) (8 * (lenA modSame * ss modSame)) ∧
        Aligned8 (dst modSame) (8 * (lenA modSame * ss modSame)) ∧
        ¬ Apart (srcA modSame) (ceil8 (lenA modSame)) (dst modSame) (8 * (lenA modSame * ss modSame))) := by
  and_intros <;> decide +kernel

/-- DemodFollowsItsPseudocode: an ambiguous window under DROP; none under ABORT. -/
theorem witness_DemodFollowsItsPseudocode :
    Memory.wf (demodState 0).buf ∧ DemodStarts (demodState 0) ∧ (demodState 0).ambpol ≠ 3#2 ∧
      (loopDemod (demodState 0)).amb = 1 ∧
      Memory.wf (demodOneWindow 3).buf ∧ DemodStarts (demodOneWindow 3) ∧ (loopDemod (demodOneWindow 3)).amb = 0 := by
  decide +kernel

/-- DemodDecidesEachWindowAlone: one window, and the seven unused bits of its byte. -/
theorem witness_DemodDecidesEachWindowAlone :
    DemodStarts (demodOneWindow 0) ∧ (∀ w < 1, ¬ Ambiguous (demodOneWindow 0) w) ∧
      lenA (demodOneWindow 0) / ss (demodOneWindow 0) = 1 ∧ 7 < 8 * ceil8 1 := by
  decide +kernel

/-- DemodAbortsAtTheFirstAmbiguousWindow: window 1 of DV-Dm3. -/
theorem witness_DemodAbortsAtTheFirstAmbiguousWindow :
    DemodStarts (demodState 3) ∧ (demodState 3).ambpol = 3#2 ∧ 1 < lenA (demodState 3) / ss (demodState 3) ∧
      Ambiguous (demodState 3) 1 ∧ ∀ v < 1, ¬ Ambiguous (demodState 3) v := by
  decide +kernel

/-- DemodRaisesTheFirstError: each clause in turn. -/
theorem witness_DemodRaisesTheFirstError :
    State.reset.pvalid = false ∧
      (demodSourceOut.pvalid = true ∧ ¬ InBuf demodSourceOut (srcA demodSourceOut) (8 * lenA demodSourceOut)) ∧
      (demodSourceOdd.pvalid = true ∧
        InBuf demodSourceOdd (srcA demodSourceOdd) (8 * lenA demodSourceOdd) ∧
        ¬ Aligned8 (srcA demodSourceOdd) (8 * lenA demodSourceOdd)) ∧
      (demodDestOut.pvalid = true ∧
        InBuf demodDestOut (srcA demodDestOut) (8 * lenA demodDestOut) ∧
        Aligned8 (srcA demodDestOut) (8 * lenA demodDestOut) ∧
        ¬ InBuf demodDestOut (dst demodDestOut) (ceil8 (lenA demodDestOut / ss demodDestOut))) ∧
      (demodInside.pvalid = true ∧
        InBuf demodInside (srcA demodInside) (8 * lenA demodInside) ∧
        Aligned8 (srcA demodInside) (8 * lenA demodInside) ∧
        InBuf demodInside (dst demodInside) (ceil8 (lenA demodInside / ss demodInside)) ∧
        ¬ Apart (srcA demodInside) (8 * lenA demodInside) (dst demodInside)
          (ceil8 (lenA demodInside / ss demodInside))) := by
  and_intros <;> decide +kernel

/-- DemodThresholdIsOne: both ends of the amplitude's range. -/
theorem witness_DemodThresholdIsOne : ampInRange 1#64 = true ∧ ampInRange ampMax = true := by decide +kernel

/-- EmbedMixesThePayloadIntoTheHost, EmbedFollowsItsPseudocode: DV-E2, and DV-E6 with no payload. -/
theorem witness_EmbedRuns :
    EmbedRuns embedState 2 ∧ Memory.wf embedState.buf ∧
      EmbedRuns (withSignals 0x1000 3 8000 0xFFFFFFF8 0 8000 0 0x1200 posZero State.reset) 0 := by
  decide +kernel

/-- EmbedRaisesTheFirstError: each clause in turn. -/
theorem witness_EmbedRaisesTheFirstError :
    embedRates.operands.rateA ≠ embedRates.operands.rateB ∧
      (embedTooLong.operands.rateA = embedTooLong.operands.rateB ∧ lenA embedTooLong < lenB embedTooLong) ∧
      (embedPastEnd.operands.rateA = embedPastEnd.operands.rateB ∧
        lenB embedPastEnd ≤ lenA embedPastEnd ∧
        F64.le (F64.add (locProduct embedPastEnd) (F64.ofNat (lenB embedPastEnd)))
          (F64.ofNat (lenA embedPastEnd)) = false) ∧
      (embedBelowZero.operands.rateA = embedBelowZero.operands.rateB ∧
        lenB embedBelowZero ≤ lenA embedBelowZero ∧
        F64.le (F64.add (locProduct embedBelowZero) (F64.ofNat (lenB embedBelowZero)))
          (F64.ofNat (lenA embedBelowZero)) = true ∧
        F64.rne (locProduct embedBelowZero) < 0) ∧
      (EmbedLocates embedHostOut ∧ ¬ InBuf embedHostOut (srcA embedHostOut) (8 * lenA embedHostOut)) ∧
      (EmbedLocates embedHostOdd ∧
        InBuf embedHostOdd (srcA embedHostOdd) (8 * lenA embedHostOdd) ∧
        ¬ Aligned8 (srcA embedHostOdd) (8 * lenA embedHostOdd)) ∧
      (EmbedLocates embedPayloadOut ∧
        InBuf embedPayloadOut (srcA embedPayloadOut) (8 * lenA embedPayloadOut) ∧
        Aligned8 (srcA embedPayloadOut) (8 * lenA embedPayloadOut) ∧
        ¬ InBuf embedPayloadOut (srcB embedPayloadOut) (8 * lenB embedPayloadOut)) ∧
      (EmbedLocates embedPayloadOdd ∧
        InBuf embedPayloadOdd (srcA embedPayloadOdd) (8 * lenA embedPayloadOdd) ∧
        Aligned8 (srcA embedPayloadOdd) (8 * lenA embedPayloadOdd) ∧
        InBuf embedPayloadOdd (srcB embedPayloadOdd) (8 * lenB embedPayloadOdd) ∧
        ¬ Aligned8 (srcB embedPayloadOdd) (8 * lenB embedPayloadOdd)) ∧
      (EmbedLocates embedDestOut ∧
        InBuf embedDestOut (srcA embedDestOut) (8 * lenA embedDestOut) ∧
        Aligned8 (srcA embedDestOut) (8 * lenA embedDestOut) ∧
        InBuf embedDestOut (srcB embedDestOut) (8 * lenB embedDestOut) ∧
        Aligned8 (srcB embedDestOut) (8 * lenB embedDestOut) ∧
        ¬ InBuf embedDestOut (dst embedDestOut) (8 * lenA embedDestOut)) ∧
      (EmbedLocates embedDestOdd ∧
        InBuf embedDestOdd (srcA embedDestOdd) (8 * lenA embedDestOdd) ∧
        Aligned8 (srcA embedDestOdd) (8 * lenA embedDestOdd) ∧
        InBuf embedDestOdd (srcB embedDestOdd) (8 * lenB embedDestOdd) ∧
        Aligned8 (srcB embedDestOdd) (8 * lenB embedDestOdd) ∧
        InBuf embedDestOdd (dst embedDestOdd) (8 * lenA embedDestOdd) ∧
        ¬ Aligned8 (dst embedDestOdd) (8 * lenA embedDestOdd)) ∧
      (EmbedLocates embedInside ∧
        InBuf embedInside (srcA embedInside) (8 * lenA embedInside) ∧
        Aligned8 (srcA embedInside) (8 * lenA embedInside) ∧
        InBuf embedInside (srcB embedInside) (8 * lenB embedInside) ∧
        Aligned8 (srcB embedInside) (8 * lenB embedInside) ∧
        InBuf embedInside (dst embedInside) (8 * lenA embedInside) ∧
        Aligned8 (dst embedInside) (8 * lenA embedInside) ∧
        ¬ (Apart (srcA embedInside) (8 * lenA embedInside) (dst embedInside) (8 * lenA embedInside) ∧
          Apart (srcB embedInside) (8 * lenB embedInside) (dst embedInside) (8 * lenA embedInside))) := by
  and_intros <;> decide +kernel

/-- EmbeddedPayloadFitsTheHost: DV-E4 with LOC = 5.0 and LOC = -0.5. -/
theorem witness_EmbeddedPayloadFitsTheHost :
    capacityHolds 0x4014000000000000 1 3 8 = true ∧ location 0x4014000000000000 1 = .ok 5 ∧
      capacityHolds 0xBFE0000000000000 1 3 8 = true ∧ location 0xBFE0000000000000 1 = .ok 0 := by
  decide +kernel

/-- ExtractSubtractsTheHost, ExtractFollowsItsPseudocode: DV-X1, and no sample at the very end. -/
theorem witness_ExtractRuns :
    ExtractRuns extractState 2 ∧ Memory.wf extractState.buf ∧
      ExtractRuns (withSignals 0x1200 8 1 0x1000 8 1 0 0x1300 0x4020000000000000 State.reset) 8 := by
  decide +kernel

/-- ExtractRaisesTheFirstError: each clause in turn. -/
theorem witness_ExtractRaisesTheFirstError :
    extractRates.operands.rateA ≠ extractRates.operands.rateB ∧
      (extractLengths.operands.rateA = extractLengths.operands.rateB ∧
        extractLengths.operands.lenA ≠ extractLengths.operands.lenB) ∧
      (extractBelowZero.operands.rateA = extractBelowZero.operands.rateB ∧
        extractBelowZero.operands.lenA = extractBelowZero.operands.lenB ∧
        F64.rne (locProduct extractBelowZero) < 0) ∧
      (extractNaN.operands.rateA = extractNaN.operands.rateB ∧
        extractNaN.operands.lenA = extractNaN.operands.lenB ∧
        F64.finite (locProduct extractNaN) = false) ∧
      (extractPastEnd.operands.rateA = extractPastEnd.operands.rateB ∧
        extractPastEnd.operands.lenA = extractPastEnd.operands.lenB ∧
        F64.finite (locProduct extractPastEnd) = true ∧
        F64.rne (locProduct extractPastEnd) = ((6 : Nat) : Int) ∧
        lenA extractPastEnd < 6 + width extractPastEnd) ∧
      (ExtractLocates extractMixedOut 0 ∧
        ¬ InBuf extractMixedOut (srcA extractMixedOut) (8 * lenA extractMixedOut)) ∧
      (ExtractLocates extractMixedOdd 0 ∧
        InBuf extractMixedOdd (srcA extractMixedOdd) (8 * lenA extractMixedOdd) ∧
        ¬ Aligned8 (srcA extractMixedOdd) (8 * lenA extractMixedOdd)) ∧
      (ExtractLocates extractHostOut 0 ∧
        InBuf extractHostOut (srcA extractHostOut) (8 * lenA extractHostOut) ∧
        Aligned8 (srcA extractHostOut) (8 * lenA extractHostOut) ∧
        ¬ InBuf extractHostOut (srcB extractHostOut) (8 * lenB extractHostOut)) ∧
      (ExtractLocates extractHostOdd 0 ∧
        InBuf extractHostOdd (srcA extractHostOdd) (8 * lenA extractHostOdd) ∧
        Aligned8 (srcA extractHostOdd) (8 * lenA extractHostOdd) ∧
        InBuf extractHostOdd (srcB extractHostOdd) (8 * lenB extractHostOdd) ∧
        ¬ Aligned8 (srcB extractHostOdd) (8 * lenB extractHostOdd)) ∧
      (ExtractLocates extractDestOut 0 ∧
        InBuf extractDestOut (srcA extractDestOut) (8 * lenA extractDestOut) ∧
        Aligned8 (srcA extractDestOut) (8 * lenA extractDestOut) ∧
        InBuf extractDestOut (srcB extractDestOut) (8 * lenB extractDestOut) ∧
        Aligned8 (srcB extractDestOut) (8 * lenB extractDestOut) ∧
        ¬ InBuf extractDestOut (dst extractDestOut) (8 * width extractDestOut)) ∧
      (ExtractLocates extractDestOdd 0 ∧
        InBuf extractDestOdd (srcA extractDestOdd) (8 * lenA extractDestOdd) ∧
        Aligned8 (srcA extractDestOdd) (8 * lenA extractDestOdd) ∧
        InBuf extractDestOdd (srcB extractDestOdd) (8 * lenB extractDestOdd) ∧
        Aligned8 (srcB extractDestOdd) (8 * lenB extractDestOdd) ∧
        InBuf extractDestOdd (dst extractDestOdd) (8 * width extractDestOdd) ∧
        ¬ Aligned8 (dst extractDestOdd) (8 * width extractDestOdd)) ∧
      (ExtractLocates extractInside 0 ∧
        InBuf extractInside (srcA extractInside) (8 * lenA extractInside) ∧
        Aligned8 (srcA extractInside) (8 * lenA extractInside) ∧
        InBuf extractInside (srcB extractInside) (8 * lenB extractInside) ∧
        Aligned8 (srcB extractInside) (8 * lenB extractInside) ∧
        InBuf extractInside (dst extractInside) (8 * width extractInside) ∧
        Aligned8 (dst extractInside) (8 * width extractInside) ∧
        ¬ (Apart (srcA extractInside) (8 * lenA extractInside) (dst extractInside) (8 * width extractInside) ∧
          Apart (srcB extractInside) (8 * lenB extractInside) (dst extractInside) (8 * width extractInside))) := by
  and_intros <;> decide +kernel

/-- ExtractInvertsAnExactMix: 10.0 and 0.75. -/
theorem witness_ExtractInvertsAnExactMix :
    F64.finite 0x4024000000000000 = true ∧ F64.finite 0x3FE8000000000000 = true ∧
      F64.finite (F64.add 0x4024000000000000 0x3FE8000000000000) = true ∧
      F64.toRat (F64.add 0x4024000000000000 0x3FE8000000000000) =
        F64.toRat 0x4024000000000000 + F64.toRat 0x3FE8000000000000 := by
  decide +kernel

/-- ArithmeticIsCorrectlyRounded: two finite operands, the second not 0; an exact zero sum; equal zeros. -/
theorem witness_ArithmeticIsCorrectlyRounded :
    F64.finite one = true ∧ F64.finite two = true ∧ F64.toRat two ≠ 0 ∧
      F64.toRat one + F64.toRat 0xBFF0000000000000 = 0 ∧ F64.finite negZero = true ∧
      F64.toRat negZero = F64.toRat posZero := by
  decide +kernel

/-- SpecialOperandsFollowIEEE, ComparisonsAreIEEE, NaNResultsAreCanonical, CeilAbsAndConversionAreExact,
RneIsNearestIntegerTiesToEven. -/
theorem witness_special_operands :
    F64.isInf (F64.infinity true) = true ∧ F64.isInf (F64.infinity false) = true ∧ F64.finite one = true ∧
      F64.finite negZero = true ∧ F64.toRat negZero = 0 ∧ F64.isNaN cnan = true ∧
      F64.isNaN one = false ∧ F64.isNaN (F64.infinity true) = false ∧ F64.isNaN 0xFFF0000000000001 = true ∧ F64.finite (F64.infinity true) = false := by
  decide +kernel

/-- CosineIsCorrectlyRounded: a subnormal, the greatest finite argument, and an argument that is not finite. -/
theorem witness_CosineIsCorrectlyRounded :
    F64.finite 1#64 = true ∧ F64.finite 0x7FEFFFFFFFFFFFFF = true ∧ F64.finite (F64.infinity true) = false := by
  decide +kernel

/-- EveryStepKeepsTheInvariant: the invariant holds of a block that holds a MOD, and its step answers a next state. -/
theorem witness_EveryStepKeepsTheInvariant :
    Inv (holding 2 modState) ∧ (next? (step (holding 2 modState))).isSome = true := by
  refine ⟨?_, by decide +kernel⟩
  constructor <;> decide +kernel

/-- PowerOnMeetsTheInvariant: a BUF_INIT with a byte at each end of the least BUF. -/
theorem witness_PowerOnMeetsTheInvariant :
    Memory.wf [(0, 1), (4095, 2)] ∧
      ∀ c ∈ ([(0, 1), (4095, 2)] : Memory), c.1 < (State.afterPowerOn 0 [(0, 1), (4095, 2)]).memBytes := by
  decide +kernel

/-- EveryStepKeepsTheParameterSetWhole: the parameters and tables that vector DV-D1 prints are whole, and the step of
a MOD on them answers a next state. -/
theorem witness_EveryStepKeepsTheParameterSetWhole :
    ParamsConsistent (holding 2 modState) ∧ (next? (step (holding 2 modState))).isSome = true := by
  refine ⟨?_, by decide +kernel⟩
  constructor <;> decide +kernel

/-- MemBytesIsFixed. -/
theorem witness_MemBytesIsFixed : (next? (step State.reset)).isSome = true := by decide +kernel

/-- ReadOnlyAndReservedOffsetsIgnoreWrites: a reserved offset, an RO register, a half of an RO register. -/
theorem witness_ReadOnlyAndReservedOffsetsIgnoreWrites :
    State.reset.phase = .idle ∧ (0x030#12).toNat % 4 = 0 ∧ regAt 0x030 = none ∧ regAt 0x0C4 = some .ss ∧
      regAt 0x0DC = some (.half .tblData .hi) ∧ (∀ r ∈ allRegs, regOffset r ≠ 0x030) ∧
      (facing [.regWrite 4 0x030 7] State.reset).turns = .regWrite 4 0x030 7 :: [] := by
  decide +kernel

theorem witness_RegisterWritesReachTheirRegisterOnly :
    State.reset.phase = .idle ∧
      (Reg.width ∈ ([.redIn, .srcA, .lenA, .rateA, .srcB, .lenB, .rateB, .dst, .width] : List Reg)) ∧
      (Reg.half .mix .hi ∈ [Reg.half .ampIn .hi, Reg.half .bpIn .hi, Reg.half .mix .hi, Reg.half .loc .hi]) ∧
      (facing [.regWrite 4 (regOffset .width) 7] State.reset).turns = .regWrite 4 (regOffset .width) 7 :: [] := by
  decide +kernel

/-- ControlAndSelectWrites: ones in every reserved bit; both ends of each field. -/
theorem witness_ControlAndSelectWrites :
    (facing [.regWrite 4 0x008 0xFFFFFFFE] State.reset).phase = .idle ∧ (0xFFFFFFFE#32).getLsbD 0 = false ∧
      (facing [.regWrite 4 0x008 0xFFFFFFFE] State.reset).turns = .regWrite 4 0x008 0xFFFFFFFE :: [] ∧
      (facing [.regWrite 4 0x01C 3] State.reset).turns = .regWrite 4 0x01C 3 :: [] ∧
      (facing [.regWrite 4 0x0D0 0xFF07] State.reset).turns = .regWrite 4 0x0D0 0xFF07 :: [] := by
  decide +kernel

/-- WriteOneToClear: WARN while IDLE, INT_STATUS while IDLE and while BUSY. -/
theorem witness_WriteOneToClear :
    (facing [.regWrite 4 0x014 0x10] State.reset).phase = .idle ∧
      (facing [.regWrite 4 0x014 0x10] State.reset).turns = .regWrite 4 0x014 0x10 :: [] ∧
      (facing [.regWrite 4 0x018 2] State.reset).turns = .regWrite 4 0x018 2 :: [] ∧
      (facing [.regWrite 4 0x018 2] (holding 2 modState)).turns = .regWrite 4 0x018 2 :: [] := by
  decide +kernel

/-- BusyWritesAreDropped: a write to an operand register, to CTRL, to 0x018 and 0x01C, and a read in each phase. -/
theorem witness_BusyWritesAreDropped :
    (holding 2 modState).phase = .busy ∧ (0x100#12).toNat % 4 = 0 ∧ (0x100#12 ≠ 0x018#12 ∧ 0x100#12 ≠ 0x01C#12) ∧
      (0x018#12).toNat % 4 = 0 ∧ (0x01C#12).toNat % 4 = 0 ∧
      (facing [.regWrite 4 0x100 7] (holding 2 modState)).turns = .regWrite 4 0x100 7 :: [] ∧
      (facing [.regRead 4 0xFFC] State.reset).phase = .idle ∧ (0xFFC#12).toNat % 4 = 0 ∧
      (facing [.regRead 4 0xFFC] State.reset).turns = .regRead 4 0xFFC :: [] ∧
      (facing [.regRead 4 0x100] (holding 2 modState)).turns = .regRead 4 0x100 :: [] := by
  decide +kernel

theorem witness_SoftResetResetsTheRegisters :
    (0x00000001#32).getLsbD 0 = true ∧ (facing [.regWrite 4 0x008 1] derived).phase = .idle ∧
      (facing [.regWrite 4 0x008 1] (holding 2 modState)).phase = .busy ∧
      (facing [.regWrite 4 0x008 1] derived).turns = .regWrite 4 0x008 1 :: [] := by
  decide +kernel

/-- ResetsGiveEveryRegisterItsResetValue: both turns; IDLE, an illegal word, and each command with its checks passing
and failing. -/
theorem witness_ResetsGiveEveryRegisterItsResetValue :
    (facing [.powerOn] (holding 2 modState)).turns = .powerOn :: [] ∧
      (facing [.reset] State.reset).turns = .reset :: [] ∧ State.reset.phase = .idle ∧
      decodeWord (holding 0 derived).pending = .ok .nop ∧ decodeWord (holding 1 derived).pending = .ok .derive ∧
      decodeWord (holding 6 derived).pending = .error .reservedOpcode ∧
      (holding 2 modState).phase = .busy ∧ decodeWord (holding 2 modState).pending = .ok .mod ∧
      ModRuns (holding 2 modState) ∧ ¬ ModRuns (holding 2 State.reset) := by
  decide +kernel

/-- The same: DEMOD, EMBED and EXTRACT. -/
theorem witness_Resets_signals :
    decodeWord (holding 3 (demodState 3)).pending = .ok .demod ∧
      DemodStarts (holding 3 (demodState 3)) ∧ ¬ DemodStarts (holding 3 State.reset) ∧
      decodeWord (holding 4 embedState).pending = .ok .embed ∧ EmbedRuns (holding 4 embedState) 2 ∧
      decodeWord (holding 5 extractState).pending = .ok .extract ∧ ExtractRuns (holding 5 extractState) 2 := by
  and_intros <;> decide +kernel

/-- The same: an EMBED and an EXTRACT whose rates differ run at no offset. -/
theorem witness_Resets_no_offset :
    (¬ ∃ off, EmbedRuns (holding 4 (withSignals 0 0 1 0 0 2 0 0 posZero State.reset)) off) ∧
      ¬ ∃ off, ExtractRuns (holding 5 (withSignals 0 0 1 0 0 2 0 0 posZero State.reset)) off := by
  refine ⟨?_, ?_⟩
  · rintro ⟨off, h, -⟩
    exact absurd h (by decide +kernel)
  · rintro ⟨off, h, -⟩
    exact absurd h (by decide +kernel)

/-- HostBufAccesses: the last double word of BUF. -/
theorem witness_HostBufAccesses :
    State.reset.phase = .idle ∧ 8 ∈ [1, 2, 4, 8] ∧ 0x3FFF8 % 8 = 0 ∧ 0x3FFF8 + 8 ≤ State.reset.memBytes ∧
      (facing [.bufWrite 8 0x3FFF8 1] State.reset).turns = .bufWrite 8 0x3FFF8 1 :: [] ∧
      (facing [.bufRead 8 0x3FFF8] State.reset).turns = .bufRead 8 0x3FFF8 :: [] := by
  decide +kernel

/-- BusErrorsChangeNothing: the accesses of DV-N6, while IDLE and while BUSY, a width of 3. -/
theorem witness_BusErrorsChangeNothing :
    (2 ≠ 4 ∨ (0x008#12).toNat % 4 ≠ 0) ∧ (4 ≠ 4 ∨ (0x00A#12).toNat % 4 ≠ 0) ∧
      (facing [.regWrite 4 0x00A 1] (holding 2 modState)).phase = .busy ∧
      (facing [.regWrite 4 0x00A 1] (holding 2 modState)).turns = .regWrite 4 0x00A 1 :: [] ∧
      (facing [.regRead 2 0x008] (holding 2 modState)).turns = .regRead 2 0x008 :: [] ∧
      (facing [.regRead 2 0x008] State.reset).turns = .regRead 2 0x008 :: [] ∧ State.reset.phase = .idle ∧
      3 ∉ [1, 2, 4, 8] ∧ 0x4 % 8 ≠ 0 ∧ State.reset.memBytes < 0x40000 + 4 ∧
      (facing [.bufWrite 4 0x40000 1] State.reset).turns = .bufWrite 4 0x40000 1 :: [] := by
  decide +kernel

/-- BufAccessIsHeldWhileBusy: a write and a read in range, the last double word of BUF, and a write and a read that
get a bus error. -/
theorem witness_BufAccessIsHeldWhileBusy :
    (facing [.bufWrite 8 0x3FFF8 1] (holding 2 modState)).phase = .busy ∧
      (facing [.bufWrite 8 0x3FFF8 1] (holding 2 modState)).turns = .bufWrite 8 0x3FFF8 1 :: [] ∧
      (facing [.bufRead 8 0x3FFF8] (holding 2 modState)).turns = .bufRead 8 0x3FFF8 :: [] ∧
      8 ∈ [1, 2, 4, 8] ∧ 0x3FFF8 % 8 = 0 ∧ 0x3FFF8 + 8 ≤ (holding 2 modState).memBytes ∧
      (facing [.bufWrite 3 0 1] (holding 2 modState)).turns = .bufWrite 3 0 1 :: [] ∧ 3 ∉ [1, 2, 4, 8] ∧
      (facing [.bufRead 8 4] (holding 2 modState)).turns = .bufRead 8 4 :: [] ∧ 4 % 8 ≠ 0 ∧
      (holding 2 modState).memBytes < 0x40000 + 1 := by
  decide +kernel

/-- PseudoInstructionsDoWhatTheirExpansionsSay: the shortest and the longest expansion, a write to a read-only pair, a
sample at the end of BUF, and `wait` while IDLE and while BUSY. -/
theorem witness_PseudoInstructionsDoWhatTheirExpansionsSay :
    (facing (assemble .ack) State.reset).phase = .idle ∧
      (facing (assemble .ack) State.reset).turns = assemble .ack ++ [] ∧
      (facing (assemble (.extractWith 0 8 1 64 8 1 one 3 128)) State.reset).turns =
        assemble (.extractWith 0 8 1 64 8 1 one 3 128) ++ [] ∧
      Reg64.tblData ∉ [Reg64.ampIn, .bpIn, .mix, .loc] ∧ 0x3FFF8 % 8 = 0 ∧ 0x3FFF8 + 8 ≤ State.reset.memBytes ∧
      (facing (assemble (.wait 3)) State.reset).turns = assemble (.wait 3) ++ [] ∧
      (facing (assemble (.wait 3)) (holding 2 modState)).phase = .busy ∧
      (facing (assemble (.wait 3)) (holding 2 modState)).turns = assemble (.wait 3) ++ [] := by
  decide +kernel

end Sys2Proof.Tests
end

/-! The grid of finite binary64 values in units of 2^-1074, and what `roundUnits` does on it (R9). -/

namespace Sys2Proof.F64

open Sys2Proof.Machine

/-- The magnitude bits 62:0 of a pattern: biased exponent, then fraction. -/
def magBits (x : F64) : Nat := x.toNat % 2 ^ 63

/-- The units that magnitude bits stand for; `units x` is this function of `magBits x` (`units_eq`). -/
def magUnits (m : Nat) : Nat :=
  if m / 2 ^ 52 = 0 then m % 2 ^ 52 else (2 ^ 52 + m % 2 ^ 52) * 2 ^ (m / 2 ^ 52 - 1)

/-- The magnitude bits of the infinities, the least that stand for no finite value. -/
def infBits : Nat := 2047 * 2 ^ 52

theorem expField_eq (x : F64) : expField x = magBits x / 2 ^ 52 := by
  unfold expField magBits; omega

theorem fracField_eq (x : F64) : fracField x = magBits x % 2 ^ 52 := by
  unfold fracField magBits; omega

theorem units_eq (x : F64) : units x = magUnits (magBits x) := by
  unfold units magUnits
  rw [expField_eq, fracField_eq]

theorem magBits_lt (x : F64) : magBits x < 2 ^ 63 := Nat.mod_lt _ (by norm_num)

theorem finite_iff (x : F64) : finite x = true ↔ magBits x < infBits := by
  have := magBits_lt x
  simp only [finite, expField_eq, infBits, bne_iff_ne, ne_eq]
  omega

theorem isInf_iff (x : F64) : isInf x = true ↔ magBits x = infBits := by
  simp only [isInf, expField_eq, fracField_eq, infBits, Bool.and_eq_true, beq_iff_eq]
  omega

theorem isNaN_iff (x : F64) : isNaN x = true ↔ infBits < magBits x := by
  have := magBits_lt x
  simp only [isNaN, expField_eq, fracField_eq, infBits, Bool.and_eq_true, beq_iff_eq, bne_iff_ne, ne_eq]
  omega

theorem isNaN_eq_false_iff (x : F64) : isNaN x = false ↔ magBits x ≤ infBits := by
  rw [← Bool.not_eq_true, isNaN_iff, not_lt]

theorem finite_eq_false_iff (x : F64) : finite x = false ↔ isInf x = true ∨ isNaN x = true := by
  rw [← Bool.not_eq_true, finite_iff, isInf_iff, isNaN_iff]
  omega

theorem isNaN_of_finite {x : F64} (h : finite x = true) : isNaN x = false := by
  rw [isNaN_eq_false_iff]; exact ((finite_iff x).mp h).le

theorem isInf_of_finite {x : F64} (h : finite x = true) : isInf x = false := by
  rw [← Bool.not_eq_true, isInf_iff]; exact ((finite_iff x).mp h).ne

theorem isNaN_of_isInf {x : F64} (h : isInf x = true) : isNaN x = false := by
  rw [isNaN_eq_false_iff]; exact ((isInf_iff x).mp h).le

theorem negative_iff (x : F64) : negative x = true ↔ 2 ^ 63 ≤ x.toNat := by
  unfold negative
  rw [← BitVec.msb_eq_getLsbD_last x, BitVec.msb_eq_decide, decide_eq_true_iff]

/-- A pattern is its sign bit and its magnitude bits. -/
theorem toNat_eq (x : F64) : x.toNat = (if negative x then 2 ^ 63 else 0) + magBits x := by
  have := x.isLt
  unfold magBits
  split
  · next h => have := (negative_iff x).mp h; omega
  · next h => have := mt (negative_iff x).mpr h; omega

theorem ext_bits {x y : F64} (hs : negative x = negative y) (hm : magBits x = magBits y) : x = y := by
  apply BitVec.eq_of_toNat_eq
  rw [toNat_eq, toNat_eq y, hs, hm]

/-- The pattern with given sign and magnitude bits. -/
theorem bits_ofNat {neg : Bool} {m : Nat} (h : m < 2 ^ 63) :
    negative (BitVec.ofNat 64 ((if neg then 2 ^ 63 else 0) + m)) = neg ∧
      magBits (BitVec.ofNat 64 ((if neg then 2 ^ 63 else 0) + m)) = m := by
  constructor
  · rw [Bool.eq_iff_iff, negative_iff, BitVec.toNat_ofNat]
    cases neg <;> simp only [Bool.false_eq_true, if_false, if_true, iff_false, iff_true] <;> omega
  · unfold magBits
    rw [BitVec.toNat_ofNat]
    cases neg <;> simp only [Bool.false_eq_true, if_false, if_true] <;> omega

theorem negative_infinity (b : Bool) : negative (infinity b) = b := by cases b <;> rfl

theorem magBits_infinity (b : Bool) : magBits (infinity b) = infBits := by cases b <;> rfl

theorem eq_infinity_of_isInf {x : F64} (h : isInf x = true) : x = infinity (negative x) :=
  ext_bits (negative_infinity _).symm (((isInf_iff x).mp h).trans (magBits_infinity _).symm)

/-! The grid. -/

/-- The value of a significand `r` at place `k`; `r = 2^53` is the carry into the next exponent. -/
theorem magUnits_scaled {k r : Nat} (hr : r ≤ 2 ^ 53) (hk : k = 0 ∨ 2 ^ 52 ≤ r) :
    magUnits (k * 2 ^ 52 + r) = r * 2 ^ k := by
  unfold magUnits
  rcases Nat.lt_or_ge r (2 ^ 52) with hlow | hlow
  · obtain rfl : k = 0 := by omega
    rw [if_pos (by omega), pow_zero]; omega
  rcases Nat.lt_or_ge r (2 ^ 53) with hhigh | hhigh
  · rw [if_neg (by omega), show (k * 2 ^ 52 + r) / 2 ^ 52 - 1 = k by omega,
      show 2 ^ 52 + (k * 2 ^ 52 + r) % 2 ^ 52 = r by omega]
  · obtain rfl : r = 2 ^ 53 := by omega
    rw [if_neg (by omega), show (k * 2 ^ 52 + 2 ^ 53) / 2 ^ 52 - 1 = k + 1 by omega,
      show 2 ^ 52 + (k * 2 ^ 52 + 2 ^ 53) % 2 ^ 52 = 2 ^ 52 by omega, pow_succ]
    ring

/-- Every magnitude is a significand at a place. -/
theorem exists_scaled (m : Nat) :
    ∃ k r, m = k * 2 ^ 52 + r ∧ r < 2 ^ 53 ∧ (k = 0 ∨ 2 ^ 52 ≤ r) :=
  ⟨m / 2 ^ 52 - 1, m - (m / 2 ^ 52 - 1) * 2 ^ 52, by omega, by omega, by omega⟩

theorem magUnits_strictMono : StrictMono magUnits := by
  refine strictMono_nat_of_lt_succ fun m => ?_
  obtain ⟨k, r, rfl, hr, hk⟩ := exists_scaled m
  rw [magUnits_scaled hr.le hk, Nat.add_assoc, magUnits_scaled (r := r + 1) hr (by omega)]
  exact Nat.mul_lt_mul_of_pos_right (Nat.lt_succ_self r) (by positivity)

theorem magUnits_zero : magUnits 0 = 0 := rfl

theorem magUnits_infBits : magUnits infBits = 2 ^ 52 * 2 ^ 2046 := by
  rw [show infBits = 2046 * 2 ^ 52 + 2 ^ 52 by decide, magUnits_scaled (by norm_num) (.inr le_rfl)]

/-- The greatest finite magnitude. -/
theorem magUnits_maxFinite : magUnits (infBits - 1) = (2 ^ 53 - 1) * 2 ^ 2045 := by
  rw [show infBits - 1 = 2045 * 2 ^ 52 + (2 ^ 53 - 1) by decide, magUnits_scaled (by norm_num) (.inr (by norm_num))]

theorem units_eq_zero_iff (x : F64) : units x = 0 ↔ magBits x = 0 := by
  rw [units_eq]
  exact magUnits_strictMono.injective.eq_iff' magUnits_zero

/-- Magnitudes from place `k` on are multiples of `2^k` units. -/
theorem dvd_magUnits {k m : Nat} (h : k = 0 ∨ (k + 1) * 2 ^ 52 ≤ m) : 2 ^ k ∣ magUnits m := by
  obtain ⟨j, r, rfl, hr, hj⟩ := exists_scaled m
  rw [magUnits_scaled hr.le hj]
  exact Dvd.dvd.mul_left (pow_dvd_pow 2 (by omega)) r

/-! The nearest integer, ties to even. -/

/-- A quotient of naturals and its nearest natural, in doubled numerators. -/
theorem rneDiv_bounds {n d : Nat} (hd : 0 < d) :
    2 * n ≤ 2 * (d * rneDiv n d) + d ∧ 2 * (d * rneDiv n d) ≤ 2 * n + d ∧
      (2 * n = 2 * (d * rneDiv n d) + d ∨ 2 * (d * rneDiv n d) = 2 * n + d → rneDiv n d % 2 = 0) := by
  have hn := Nat.div_add_mod n d
  have hr := Nat.mod_lt n hd
  unfold rneDiv
  split
  · omega
  · rw [Nat.mul_add, Nat.mul_one]
    omega

/-- `rneDiv` is within one half of the quotient, and at one half only when it is even. -/
theorem rneDiv_near {K : Type*} [Field K] [LinearOrder K] [IsStrictOrderedRing K] {n d : Nat} (hd : 0 < d) :
    |(n : K) / d - rneDiv n d| ≤ 1 / 2 ∧ (|(n : K) / d - rneDiv n d| = 1 / 2 → rneDiv n d % 2 = 0) := by
  obtain ⟨hup, hlow, htie⟩ := rneDiv_bounds (n := n) hd
  have hdK : (0 : K) < d := by exact_mod_cast hd
  have e : (n : K) / d - rneDiv n d = (n - d * rneDiv n d) / d := by field_simp
  have hup' : (2 : K) * n ≤ 2 * (d * rneDiv n d) + d := by exact_mod_cast hup
  have hlow' : (2 : K) * (d * rneDiv n d) ≤ 2 * n + d := by exact_mod_cast hlow
  rw [e, abs_div, abs_of_pos hdK, div_le_iff₀ hdK, div_eq_iff hdK.ne']
  refine ⟨by rw [abs_le]; constructor <;> linarith, fun h => htie ?_⟩
  rcases eq_or_eq_neg_of_abs_eq h with h | h
  · exact .inl (by exact_mod_cast (by linarith : (2 : K) * n = 2 * (d * rneDiv n d) + d))
  · exact .inr (by exact_mod_cast (by linarith : (2 : K) * (d * rneDiv n d) = 2 * n + d))

/-- An integer within one half is a nearest one, and another is as near only at one half. -/
theorem nearest_of_half {t : ℝ} {r : Nat} (h : |t - r| ≤ 1 / 2) (heven : |t - r| = 1 / 2 → r % 2 = 0) (j : Nat) :
    |(r : ℝ) - t| ≤ |(j : ℝ) - t| ∧ (|(j : ℝ) - t| = |(r : ℝ) - t| → j = r ∨ r % 2 = 0) := by
  rcases eq_or_ne j r with rfl | hj
  · exact ⟨le_rfl, fun _ => .inl rfl⟩
  have hone : (1 : ℝ) ≤ |(j : ℝ) - r| := by
    have : 1 ≤ |(j : ℤ) - r| := Int.one_le_abs (by omega)
    exact_mod_cast this
  have htri : |(j : ℝ) - r| ≤ |(j : ℝ) - t| + |t - r| := abs_sub_le _ _ _
  rw [abs_sub_comm (r : ℝ) t]
  exact ⟨by linarith, fun he => .inr (heven (by linarith))⟩

/-! Rounding. -/

/-- The magnitude bits that `roundUnits` gives before an overflow is cut off. -/
def roundBits (n d : Nat) : Nat := ((n / d).log2 - 52) * 2 ^ 52 + rneDiv n (d * 2 ^ ((n / d).log2 - 52))

theorem roundUnits_eq (neg : Bool) (n d : Nat) :
    roundUnits neg n d = BitVec.ofNat 64 ((if neg then 2 ^ 63 else 0) + min (roundBits n d) infBits) := rfl

/-- The quotient lies in the binade of the place that is kept. -/
theorem quotient_binade {n d : Nat} :
    n / d < 2 ^ 53 * 2 ^ ((n / d).log2 - 52) ∧
      ((n / d).log2 - 52 = 0 ∨ 2 ^ 52 * 2 ^ ((n / d).log2 - 52) ≤ n / d) := by
  rw [← pow_add, ← pow_add]
  refine ⟨Nat.lt_log2_self.trans_le (Nat.pow_le_pow_right two_pos (by omega)), ?_⟩
  rcases Nat.eq_zero_or_pos ((n / d).log2 - 52) with h | h
  · exact .inl h
  · refine .inr ((Nat.pow_le_pow_right two_pos (by omega)).trans (Nat.log2_self_le ?_))
    intro h0
    simp [h0] at h

/-- The rounded significand is one that `magUnits_scaled` covers. -/
theorem rneDiv_significand {n d : Nat} :
    rneDiv n (d * 2 ^ ((n / d).log2 - 52)) ≤ 2 ^ 53 ∧
      ((n / d).log2 - 52 = 0 ∨ 2 ^ 52 ≤ rneDiv n (d * 2 ^ ((n / d).log2 - 52))) := by
  obtain ⟨hup, hlow⟩ := quotient_binade (n := n) (d := d)
  generalize (n / d).log2 - 52 = k at hup hlow ⊢
  have hdiv : n / (d * 2 ^ k) < 2 ^ 53 := by
    rw [← Nat.div_div_eq_div_mul]
    exact Nat.div_lt_of_lt_mul (by rwa [mul_comm])
  constructor
  · unfold rneDiv; split <;> omega
  · refine hlow.imp_right fun h => ?_
    have : 2 ^ 52 ≤ n / (d * 2 ^ k) := by
      rw [← Nat.div_div_eq_div_mul]
      exact (Nat.le_div_iff_mul_le (by positivity)).mpr h
    unfold rneDiv; split <;> omega

theorem magUnits_roundBits {n d : Nat} :
    magUnits (roundBits n d) = rneDiv n (d * 2 ^ ((n / d).log2 - 52)) * 2 ^ ((n / d).log2 - 52) := by
  obtain ⟨hr, hk⟩ := rneDiv_significand (n := n) (d := d)
  exact magUnits_scaled hr hk

/-- No point of the grid is nearer to the quotient than the rounded one, and one as near is equal to it or the rounded
one is even. -/
theorem roundBits_nearest {n d : Nat} (hd : 0 < d) (m : Nat) :
    |(magUnits (roundBits n d) : ℝ) - n / d| ≤ |(magUnits m : ℝ) - n / d| ∧
      (|(magUnits m : ℝ) - n / d| = |(magUnits (roundBits n d) : ℝ) - n / d| →
        m = roundBits n d ∨ roundBits n d % 2 = 0) := by
  have hM := magUnits_roundBits (n := n) (d := d)
  obtain ⟨-, hlow⟩ := quotient_binade (n := n) (d := d)
  have hbits : roundBits n d = ((n / d).log2 - 52) * 2 ^ 52 + rneDiv n (d * 2 ^ ((n / d).log2 - 52)) := rfl
  generalize (n / d).log2 - 52 = k at hM hlow hbits
  obtain ⟨hhalf, heven⟩ := rneDiv_near (K := ℝ) (n := n) (d := d * 2 ^ k) (by positivity)
  generalize rneDiv n (d * 2 ^ k) = r at hM hbits hhalf heven
  have hK : (0 : ℝ) < 2 ^ k := by positivity
  have hq : (n : ℝ) / ((d * 2 ^ k : ℕ) : ℝ) * 2 ^ k = n / d := by push_cast; field_simp
  generalize (n : ℝ) / ((d * 2 ^ k : ℕ) : ℝ) = t at hhalf heven hq
  -- multiples of `2^k` units
  have multiple : ∀ j : ℕ, |(magUnits (roundBits n d) : ℝ) - n / d| ≤ |((j * 2 ^ k : ℕ) : ℝ) - n / d| ∧
      (|((j * 2 ^ k : ℕ) : ℝ) - n / d| = |(magUnits (roundBits n d) : ℝ) - n / d| →
        j = r ∨ roundBits n d % 2 = 0) := by
    intro j
    have scale : ∀ i : ℕ, |((i * 2 ^ k : ℕ) : ℝ) - n / d| = |(i : ℝ) - t| * 2 ^ k := by
      intro i
      rw [← hq, Nat.cast_mul, Nat.cast_pow, Nat.cast_ofNat, ← sub_mul, abs_mul, abs_of_pos hK]
    obtain ⟨hle, htie⟩ := nearest_of_half hhalf heven j
    rw [hM, scale, scale]
    refine ⟨mul_le_mul_of_nonneg_right hle hK.le, fun he => ?_⟩
    exact (htie (mul_right_cancel₀ hK.ne' he)).imp_right fun h => by omega
  by_cases hm : k = 0 ∨ (k + 1) * 2 ^ 52 ≤ m
  · obtain ⟨j, hj⟩ := dvd_magUnits hm
    rw [mul_comm] at hj
    obtain ⟨hle, htie⟩ := multiple j
    rw [hj]
    exact ⟨hle, fun he => (htie he).imp_left fun h => magUnits_strictMono.injective (by rw [hj, hM, h])⟩
  · -- below the binade: the least point of the binade is nearer
    have hlt : magUnits m < 2 ^ 52 * 2 ^ k := by
      rw [← magUnits_scaled (k := k) (r := 2 ^ 52) (by norm_num) (.inr le_rfl)]
      exact magUnits_strictMono (by omega)
    have hge : ((2 ^ 52 * 2 ^ k : ℕ) : ℝ) ≤ n / d :=
      le_trans (by exact_mod_cast hlow.resolve_left (by omega)) Nat.cast_div_le
    have hlt' : (magUnits m : ℝ) < ((2 ^ 52 * 2 ^ k : ℕ) : ℝ) := by exact_mod_cast hlt
    have hstrict : |(magUnits (roundBits n d) : ℝ) - n / d| < |(magUnits m : ℝ) - n / d| := by
      refine ((multiple (2 ^ 52)).1).trans_lt ?_
      generalize ((2 ^ 52 * 2 ^ k : ℕ) : ℝ) = g at hge hlt' ⊢
      rw [abs_of_nonpos (by linarith), abs_of_nonpos (by linarith)]
      linarith
    exact ⟨hstrict.le, fun he => absurd he hstrict.ne'⟩

/-- The least number of units that rounds to an infinity. -/
def overflowUnits : ℝ := (2 ^ 54 - 1) * 2 ^ 2044

theorem maxFinite_cast : (magUnits (infBits - 1) : ℝ) = (2 ^ 54 - 2) * 2 ^ 2044 := by
  rw [magUnits_maxFinite, Nat.cast_mul, Nat.cast_pow, Nat.cast_ofNat, pow_succ _ 2044]
  generalize (2 : ℝ) ^ 2044 = g
  push_cast
  ring

theorem infBits_cast : (magUnits infBits : ℝ) = 2 ^ 54 * 2 ^ 2044 := by
  rw [magUnits_infBits, Nat.cast_mul, Nat.cast_pow, Nat.cast_pow, Nat.cast_ofNat, pow_add _ 2044 2]
  generalize (2 : ℝ) ^ 2044 = g
  ring

/-- Rounding overflows exactly from `overflowUnits` on. -/
theorem roundBits_lt_infBits_iff {n d : Nat} (hd : 0 < d) :
    roundBits n d < infBits ↔ (n : ℝ) / d < overflowUnits := by
  have hmax := maxFinite_cast
  have hinf := infBits_cast
  have hg : (0 : ℝ) < 2 ^ 2044 := by positivity
  unfold overflowUnits
  generalize (2 : ℝ) ^ 2044 = g at hmax hinf hg ⊢
  constructor
  · intro h
    by_contra hq
    rw [not_lt] at hq
    have hM : (magUnits (roundBits n d) : ℝ) ≤ magUnits (infBits - 1) := by
      exact_mod_cast magUnits_strictMono.monotone (Nat.le_sub_one_of_lt h)
    obtain ⟨hle, htie⟩ := roundBits_nearest (n := n) hd infBits
    rw [abs_of_nonpos (a := (magUnits (roundBits n d) : ℝ) - n / d) (by linarith), hinf] at hle htie
    -- the quotient is no farther from the infinities than from the greatest finite value
    have hupper : |2 ^ 54 * g - (n : ℝ) / d| ≤ -((magUnits (roundBits n d) : ℝ) - n / d) := by
      rw [abs_le]; constructor <;> linarith
    rcases htie (le_antisymm hupper hle) with he | he
    · exact absurd he h.ne'
    · have hodd : (magUnits (roundBits n d) : ℝ) = magUnits (infBits - 1) := by
        rcases abs_cases (2 ^ 54 * g - (n : ℝ) / d) with ⟨ha, -⟩ | ⟨ha, -⟩ <;> linarith
      have : roundBits n d = infBits - 1 := magUnits_strictMono.injective (by exact_mod_cast hodd)
      rw [this] at he
      exact absurd he (by decide)
  · intro hq
    by_contra h
    rw [not_lt] at h
    have hM : (magUnits infBits : ℝ) ≤ magUnits (roundBits n d) := by
      exact_mod_cast magUnits_strictMono.monotone h
    have hle := (roundBits_nearest (n := n) hd (infBits - 1)).1
    rw [abs_of_nonneg (a := (magUnits (roundBits n d) : ℝ) - n / d) (by linarith), hmax] at hle
    rcases abs_cases ((2 ^ 54 - 2) * g - (n : ℝ) / d) with ⟨ha, -⟩ | ⟨ha, -⟩ <;> linarith

end Sys2Proof.F64

/-! The value of a pattern, and that `roundUnits` rounds correctly (R9). -/

namespace Sys2Proof.F64

open Sys2Proof.Machine

theorem unitsPerOne_cast : (unitsPerOne : ℝ) = 2 ^ 1074 := by
  unfold unitsPerOne
  rw [Nat.cast_pow, Nat.cast_ofNat]

theorem unitsPerOne_cast_pos {K : Type*} [Field K] [LinearOrder K] [IsStrictOrderedRing K] : (0 : K) < unitsPerOne :=
  Nat.cast_pos.mpr unitsPerOne_pos

/-- The sign that a sign bit stands for. -/
def signOf (neg : Bool) : ℝ := if neg then -1 else 1

theorem abs_signOf (b : Bool) : |signOf b| = 1 := by cases b <;> simp [signOf]

theorem signOf_mul_self (b : Bool) : signOf b * signOf b = 1 := by cases b <;> simp [signOf]

theorem signOf_bne (a b : Bool) : signOf (a != b) = signOf a * signOf b := by
  cases a <;> cases b <;> simp [signOf]

theorem intUnits_cast (x : F64) : (intUnits x : ℝ) = signOf (negative x) * magUnits (magBits x) := by
  unfold intUnits signOf
  rw [← units_eq]
  split <;> simp

theorem toRat_cast (x : F64) : (toRat x : ℝ) = intUnits x / unitsPerOne := by
  rw [toRat, Rat.cast_div, Rat.cast_intCast, Rat.cast_natCast]

theorem toRat_mul_unitsPerOne (x : F64) : (toRat x : ℝ) * unitsPerOne = signOf (negative x) * magUnits (magBits x) := by
  rw [toRat_cast, div_mul_cancel₀ _ unitsPerOne_cast_pos.ne', intUnits_cast]

theorem toRat_eq_iff (x y : F64) : toRat x = toRat y ↔ intUnits x = intUnits y := by
  unfold toRat
  rw [div_left_inj' unitsPerOne_cast_pos.ne', Int.cast_inj]

theorem toRat_lt_iff (x y : F64) : toRat x < toRat y ↔ intUnits x < intUnits y := by
  unfold toRat
  rw [div_lt_div_iff_of_pos_right unitsPerOne_cast_pos, Int.cast_lt]

theorem toRat_le_iff (x y : F64) : toRat x ≤ toRat y ↔ intUnits x ≤ intUnits y := by
  rw [← not_lt, toRat_lt_iff, not_lt]

theorem toRat_eq_zero_iff (x : F64) : toRat x = 0 ↔ units x = 0 := by
  unfold toRat intUnits
  rw [div_eq_zero_iff, or_iff_left unitsPerOne_cast_pos.ne', Int.cast_eq_zero]
  split <;> omega

/-- A distance between values, in units. -/
theorem abs_toRat_sub_mul (x : F64) (v : ℝ) :
    |(toRat x : ℝ) - v / unitsPerOne| * unitsPerOne = |signOf (negative x) * magUnits (magBits x) - v| := by
  have hU : (0 : ℝ) < unitsPerOne := unitsPerOne_cast_pos
  rw [← toRat_mul_unitsPerOne]
  conv_lhs => rw [← abs_of_pos hU]
  rw [← abs_mul, abs_of_pos hU, sub_mul, div_mul_cancel₀ _ hU.ne']

theorem getLsbD_zero_eq_false_iff (x : F64) : x.getLsbD 0 = false ↔ magBits x % 2 = 0 := by
  have hx := toNat_eq x
  rw [BitVec.getLsbD, Nat.testBit_zero, decide_eq_false_iff_not]
  split at hx <;> omega

theorem roundUnits_of_lt {n d : Nat} (neg : Bool) (h : roundBits n d < infBits) :
    negative (roundUnits neg n d) = neg ∧ magBits (roundUnits neg n d) = roundBits n d := by
  rw [roundUnits_eq, min_eq_left h.le]
  exact bits_ofNat (h.trans (by decide))

theorem roundUnits_of_le {n d : Nat} (neg : Bool) (h : infBits ≤ roundBits n d) :
    roundUnits neg n d = infinity neg := by
  obtain ⟨hs, hm⟩ := bits_ofNat (neg := neg) (m := infBits) (by decide)
  rw [roundUnits_eq, min_eq_right h]
  exact ext_bits (hs.trans (negative_infinity _).symm) (hm.trans (magBits_infinity _).symm)

theorem negative_roundUnits (neg : Bool) (n d : Nat) : negative (roundUnits neg n d) = neg := by
  rcases lt_or_ge (roundBits n d) infBits with h | h
  · exact (roundUnits_of_lt neg h).1
  · rw [roundUnits_of_le neg h, negative_infinity]

theorem isNaN_roundUnits (neg : Bool) (n d : Nat) : isNaN (roundUnits neg n d) = false := by
  rw [isNaN_eq_false_iff]
  rcases lt_or_ge (roundBits n d) infBits with h | h
  · exact (roundUnits_of_lt neg h).2.trans_le h.le
  · rw [roundUnits_of_le neg h, magBits_infinity]

/-- Where the magnitude does not overflow, `roundUnits` gives the nearest value. -/
theorem roundUnits_nearestEven {n d : Nat} (neg : Bool) (hd : 0 < d) (h : roundBits n d < infBits) :
    NearestEven (signOf neg * (n / d) / unitsPerOne) (roundUnits neg n d) := by
  obtain ⟨hs, hm⟩ := roundUnits_of_lt neg h
  have hU : (0 : ℝ) < unitsPerOne := unitsPerOne_cast_pos
  refine ⟨(finite_iff _).mpr (hm.trans_lt h), fun y _ => ?_⟩
  rw [← mul_le_mul_iff_left₀ hU, ← mul_left_inj' hU.ne', abs_toRat_sub_mul, abs_toRat_sub_mul, hs, hm, ← mul_sub,
    abs_mul, abs_signOf, one_mul, getLsbD_zero_eq_false_iff, hm]
  clear hU
  obtain ⟨hle, htie⟩ := roundBits_nearest (n := n) hd (magBits y)
  by_cases hy : negative y = neg
  · rw [hy, ← mul_sub, abs_mul, abs_signOf, one_mul]
    refine ⟨hle, fun he => (htie he).imp_left fun hb => ?_⟩
    rw [ext_bits (hy.trans hs.symm) (hb.trans hm.symm)]
  · -- a value of the other sign is as far as zero at least
    have hopp : |signOf (negative y) * magUnits (magBits y) - signOf neg * ((n : ℝ) / d)| =
        magUnits (magBits y) + (n : ℝ) / d := by
      have hnonneg : (0 : ℝ) ≤ magUnits (magBits y) + (n : ℝ) / d := by positivity
      have hsign : signOf (negative y) = -signOf neg := by
        revert hy; cases negative y <;> cases neg <;> simp [signOf]
      rw [hsign, neg_mul, ← neg_add', ← mul_add, abs_neg, abs_mul, abs_signOf, one_mul, abs_of_nonneg hnonneg]
    obtain ⟨hzero, -⟩ := roundBits_nearest (n := n) hd 0
    have hq : (0 : ℝ) ≤ (n : ℝ) / d := by positivity
    have hy0 : (0 : ℝ) ≤ magUnits (magBits y) := Nat.cast_nonneg _
    rw [magUnits_zero, Nat.cast_zero, zero_sub, abs_neg, abs_of_nonneg hq] at hzero
    rw [hopp]
    refine ⟨by linarith, fun he => ?_⟩
    have hyz : units y = 0 := by
      rw [units_eq]; exact_mod_cast (by linarith : (magUnits (magBits y) : ℝ) = 0)
    have hy' : |(magUnits (magBits y) : ℝ) - n / d| = |(magUnits (roundBits n d) : ℝ) - n / d| := by
      rw [← he, ← units_eq, hyz, Nat.cast_zero, zero_sub, abs_neg, zero_add, abs_of_nonneg hq]
    refine (htie hy').imp_left fun hb => ?_
    have hz : units (roundUnits neg n d) = 0 := by rw [units_eq, hm, ← hb, ← units_eq, hyz]
    rw [(toRat_eq_zero_iff _).mpr hyz, (toRat_eq_zero_iff _).mpr hz]

theorem overflowBound_eq : overflowBound = overflowUnits / unitsPerOne := by
  rw [eq_div_iff unitsPerOne_cast_pos.ne', unitsPerOne_cast, overflowBound, overflowUnits, mul_assoc, ← pow_add]

theorem overflowBound_pos : 0 < overflowBound := by unfold overflowBound; positivity

/-- `roundUnits` rounds plus or minus `n / d` units to nearest, ties to even, with overflow to the infinities. -/
theorem roundUnits_roundsTo {n d : Nat} (neg : Bool) (hd : 0 < d) :
    RoundsTo (signOf neg * (n / d) / unitsPerOne) (roundUnits neg n d) := by
  have hU : (0 : ℝ) < unitsPerOne := unitsPerOne_cast_pos
  have hlt : roundBits n d < infBits ↔ (n : ℝ) / d / unitsPerOne < overflowBound := by
    rw [roundBits_lt_infBits_iff hd, overflowBound_eq, div_lt_div_iff_of_pos_right hU]
  have hnear := roundUnits_nearestEven neg hd (n := n)
  have hq : (0 : ℝ) ≤ (n : ℝ) / d / unitsPerOne :=
    div_nonneg (div_nonneg (Nat.cast_nonneg _) (Nat.cast_nonneg _)) hU.le
  have hB := overflowBound_pos
  rw [mul_div_assoc] at hnear ⊢
  generalize (n : ℝ) / d / unitsPerOne = v at hlt hnear hq ⊢
  have habs : |signOf neg * v| = v := by rw [abs_mul, abs_signOf, one_mul, abs_of_nonneg hq]
  have hover : overflowBound ≤ v → roundUnits neg n d = infinity neg := fun h =>
    roundUnits_of_le neg (not_lt.mp (mt hlt.mp (not_lt.mpr h)))
  refine ⟨fun h => hnear (hlt.mpr (habs ▸ h)), fun h => ?_, fun h => ?_⟩
  · rw [hover (h.trans ((le_abs_self _).trans habs.le))]
    cases neg with
    | false => rfl
    | true => rw [signOf, if_pos rfl] at h; linarith
  · rw [hover ((le_neg_of_le_neg h).trans ((neg_le_abs _).trans habs.le))]
    cases neg with
    | true => rfl
    | false => rw [signOf, if_neg (by decide)] at h; linarith

/-! Values that need no rounding. -/

/-- A whole number of units that is a multiple of its own last kept place is on the grid. -/
theorem magUnits_roundBits_of_dvd {n : Nat} (h : 2 ^ (n.log2 - 52) ∣ n) : magUnits (roundBits n 1) = n := by
  rw [magUnits_roundBits, Nat.div_one, one_mul]
  obtain ⟨j, hj⟩ := h
  generalize n.log2 - 52 = k at hj ⊢
  have : rneDiv n (2 ^ k) = j := by
    unfold rneDiv
    rw [hj, Nat.mul_mod_right, if_pos (.inl (by positivity)), Nat.mul_div_cancel_left _ (by positivity)]
  rw [this, hj, mul_comm]

/-- `roundUnits` of a number of units on the grid, below the infinities, is exact. -/
theorem roundUnits_exact {n : Nat} (neg : Bool) (h : 2 ^ (n.log2 - 52) ∣ n) (hlt : n < magUnits infBits) :
    finite (roundUnits neg n 1) = true ∧ intUnits (roundUnits neg n 1) = if neg then -(n : Int) else n := by
  have hM := magUnits_roundBits_of_dvd h
  have hb : roundBits n 1 < infBits := magUnits_strictMono.lt_iff_lt.mp (hM.trans_lt hlt)
  obtain ⟨hs, hm⟩ := roundUnits_of_lt neg hb
  refine ⟨(finite_iff _).mpr (hm.trans_lt hb), ?_⟩
  rw [intUnits, hs, units_eq, hm, hM]

/-- The units of a pattern are a multiple of their own last kept place. -/
theorem dvd_units (x : F64) : 2 ^ ((units x).log2 - 52) ∣ units x := by
  obtain ⟨k, r, hm, hr, hk⟩ := exists_scaled (magBits x)
  rw [units_eq, hm, magUnits_scaled hr.le hk]
  refine (pow_dvd_pow 2 ?_).trans (Dvd.intro_left _ rfl)
  rcases Nat.eq_zero_or_pos (r * 2 ^ k) with h0 | h0
  · rw [h0]; simp
  · have : (r * 2 ^ k).log2 < 53 + k := by
      rw [Nat.log2_lt h0.ne', pow_add]
      exact Nat.mul_lt_mul_of_pos_right hr (by positivity)
    omega

/-- The units of a finite pattern are below those of the infinities. -/
theorem units_lt {x : F64} (h : finite x = true) : units x < magUnits infBits := by
  rw [units_eq]; exact magUnits_strictMono ((finite_iff x).mp h)

theorem units_of_isInf {x : F64} (h : isInf x = true) : units x = magUnits infBits := by
  rw [units_eq, (isInf_iff x).mp h]

end Sys2Proof.F64

/-! The operations of R9 to R14 on patterns, and the statements about them. -/

namespace Sys2Proof.F64

open Sys2Proof.Machine

/-! The sign flip and the magnitude. -/

theorem magBits_eq_setWidth (x : F64) : magBits x = (x.setWidth 63).toNat := (BitVec.toNat_setWidth 63 x).symm

theorem magBits_neg (x : F64) : magBits (neg x) = magBits x := by
  rw [magBits_eq_setWidth, magBits_eq_setWidth, neg, BitVec.setWidth_xor,
    show (0x8000000000000000#64).setWidth 63 = 0#63 by decide, BitVec.xor_zero]

theorem negative_neg (x : F64) : negative (neg x) = !negative x := by
  simp [negative, neg]

theorem finite_neg (x : F64) : finite (neg x) = finite x := by
  rw [Bool.eq_iff_iff, finite_iff, finite_iff, magBits_neg]

theorem isInf_neg (x : F64) : isInf (neg x) = isInf x := by
  rw [Bool.eq_iff_iff, isInf_iff, isInf_iff, magBits_neg]

theorem isNaN_neg (x : F64) : isNaN (neg x) = isNaN x := by
  rw [Bool.eq_iff_iff, isNaN_iff, isNaN_iff, magBits_neg]

theorem intUnits_neg (x : F64) : intUnits (neg x) = -intUnits x := by
  unfold intUnits
  rw [negative_neg, units_eq, units_eq, magBits_neg]
  cases negative x <;> simp

theorem toRat_neg (x : F64) : toRat (neg x) = -toRat x := by
  unfold toRat
  rw [intUnits_neg, Int.cast_neg, neg_div]

/-! `+ - * /` on finite operands. -/

/-- A sum is rounded from the exact sum of units; an exact zero is a zero of the common sign. -/
theorem add_of_finite {x y : F64} (hx : finite x = true) (hy : finite y = true) :
    add x y = if intUnits x + intUnits y = 0 then zero (negative x && negative y)
      else roundUnits (decide (intUnits x + intUnits y < 0)) (intUnits x + intUnits y).natAbs 1 := by
  simp only [add, isNaN_of_finite hx, isNaN_of_finite hy, isInf_of_finite hx, isInf_of_finite hy, Bool.or_self,
    Bool.false_eq_true, if_false]

theorem mul_of_finite {x y : F64} (hx : finite x = true) (hy : finite y = true) :
    mul x y = roundUnits (negative x != negative y) (units x * units y) unitsPerOne := by
  simp only [mul, isNaN_of_finite hx, isNaN_of_finite hy, isInf_of_finite hx, isInf_of_finite hy, Bool.or_self,
    Bool.false_eq_true, if_false]

theorem div_of_finite {x y : F64} (hx : finite x = true) (hy : finite y = true) (h0 : units y ≠ 0) :
    div x y = roundUnits (negative x != negative y) (units x * unitsPerOne) (units y) := by
  simp only [div, isNaN_of_finite hx, isNaN_of_finite hy, isInf_of_finite hx, isInf_of_finite hy, Bool.or_self,
    Bool.false_eq_true, if_false, h0]

theorem signOf_mul_natAbs (z : ℤ) : signOf (decide (z < 0)) * z.natAbs = z := by
  rw [signOf, Nat.cast_natAbs, Int.cast_abs]
  rcases lt_or_ge z 0 with h | h
  · rw [decide_eq_true h, if_pos rfl, abs_of_neg (by exact_mod_cast h)]; ring
  · rw [decide_eq_false (not_lt.mpr h), if_neg (by decide), abs_of_nonneg (by exact_mod_cast h), one_mul]

theorem zero_eq_roundUnits (b : Bool) : zero b = roundUnits b 0 1 := by cases b <;> decide

theorem zero_roundsTo (b : Bool) : RoundsTo 0 (zero b) := by
  have h := roundUnits_roundsTo (n := 0) (d := 1) b Nat.one_pos
  rwa [Nat.cast_zero, zero_div, mul_zero, zero_div, ← zero_eq_roundUnits] at h

theorem add_roundsTo {x y : F64} (hx : finite x = true) (hy : finite y = true) :
    RoundsTo ((toRat x + toRat y : ℚ) : ℝ) (add x y) := by
  have hr : ((toRat x + toRat y : ℚ) : ℝ) = ((intUnits x + intUnits y : ℤ) : ℝ) / unitsPerOne := by
    rw [Rat.cast_add, toRat_cast, toRat_cast, Int.cast_add, add_div]
  rw [add_of_finite hx hy, hr]
  generalize intUnits x + intUnits y = z
  split
  · next h0 => rw [h0, Int.cast_zero, zero_div]; exact zero_roundsTo _
  · have h := roundUnits_roundsTo (n := z.natAbs) (d := 1) (decide (z < 0)) Nat.one_pos
    rwa [Nat.cast_one, div_one, signOf_mul_natAbs] at h

theorem sub_roundsTo {x y : F64} (hx : finite x = true) (hy : finite y = true) :
    RoundsTo ((toRat x - toRat y : ℚ) : ℝ) (sub x y) := by
  rw [sub_eq_add_neg, ← toRat_neg]
  exact add_roundsTo hx ((finite_neg y).trans hy)

/-- The value of a pattern as a sign and a number of units. -/
theorem toRat_cast_units (x : F64) : (toRat x : ℝ) = signOf (negative x) * units x / unitsPerOne := by
  rw [toRat_cast, intUnits_cast, units_eq]

theorem mul_roundsTo {x y : F64} (hx : finite x = true) (hy : finite y = true) :
    RoundsTo ((toRat x * toRat y : ℚ) : ℝ) (mul x y) := by
  have h := roundUnits_roundsTo (n := units x * units y) (negative x != negative y) unitsPerOne_pos
  rw [mul_of_finite hx hy, Rat.cast_mul, toRat_cast_units, toRat_cast_units]
  convert h using 1
  rw [signOf_bne, Nat.cast_mul]
  ring

theorem div_roundsTo {x y : F64} (hx : finite x = true) (hy : finite y = true) (h0 : units y ≠ 0) :
    RoundsTo ((toRat x / toRat y : ℚ) : ℝ) (div x y) := by
  have h := roundUnits_roundsTo (n := units x * unitsPerOne) (negative x != negative y) (Nat.pos_of_ne_zero h0)
  rw [div_of_finite hx hy h0, Rat.cast_div, toRat_cast_units, toRat_cast_units]
  convert h using 1
  have hU : (unitsPerOne : ℝ) ≠ 0 := unitsPerOne_cast_pos.ne'
  have hs : signOf (negative x) / signOf (negative y) = signOf (negative x) * signOf (negative y) := by
    rw [div_eq_iff (left_ne_zero_of_mul_eq_one (signOf_mul_self _)), mul_assoc, signOf_mul_self, mul_one]
  calc signOf (negative x) * units x / unitsPerOne / (signOf (negative y) * units y / unitsPerOne)
      = signOf (negative x) / signOf (negative y) * (units x / units y) := by
        rw [div_div_div_cancel_right₀ hU, mul_div_mul_comm]
    _ = signOf (negative x != negative y) * ((units x * unitsPerOne : ℕ) / units y) / unitsPerOne := by
        rw [hs, ← signOf_bne, Nat.cast_mul, mul_div_right_comm (units x : ℝ), ← mul_assoc, mul_div_cancel_right₀ _ hU]

/-- Settles O35, by `roundUnits_roundsTo` on the exact sum, product and quotient of units. -/
theorem arithmeticIsCorrectlyRounded : Obligations.ArithmeticIsCorrectlyRounded := by
  intro x y hx hy
  have sum_zero : ∀ {a b : F64}, finite a = true → finite b = true → toRat a + toRat b = 0 →
      add a b = zero (negative a && negative b) := by
    intro a b ha hb h
    rw [add_of_finite ha hb, if_pos]
    have := (toRat_eq_iff a (neg b)).mp (by rw [toRat_neg]; linarith)
    rw [this, intUnits_neg, neg_add_cancel]
  refine ⟨add_roundsTo hx hy, sub_roundsTo hx hy, mul_roundsTo hx hy,
    fun h => div_roundsTo hx hy (mt (toRat_eq_zero_iff y).mpr h), ?_, fun h => ?_, fun h => ?_, fun h => ?_⟩
  · rw [mul_of_finite hx hy, negative_roundUnits]
  · rw [div_of_finite hx hy (mt (toRat_eq_zero_iff y).mpr h), negative_roundUnits]
  · rw [sum_zero hx hy h]; rfl
  · rw [sub, sum_zero hx ((finite_neg y).trans hy) (by rw [toRat_neg, h, add_neg_cancel]), negative_neg]; rfl

/-! Infinities, zero divisors and NaNs. -/

theorem add_isInf_left {x y : F64} (hx : isInf x = true) (hy : isNaN y = false) :
    add x y = if isInf y && (negative x != negative y) then cnan else x := by
  simp only [add, hx, isNaN_of_isInf hx, hy, Bool.or_self, Bool.false_eq_true, if_false, if_true]

theorem add_isInf_right {x y : F64} (hx : finite x = true) (hy : isInf y = true) : add x y = y := by
  simp only [add, isNaN_of_finite hx, isInf_of_finite hx, hy, isNaN_of_isInf hy, Bool.or_self, Bool.false_eq_true,
    if_false, if_true]

theorem mul_isInf {x y : F64} (hx : isNaN x = false) (hy : isNaN y = false) (h : isInf x = true ∨ isInf y = true) :
    mul x y = if units x = 0 ∨ units y = 0 then cnan else infinity (negative x != negative y) := by
  have h' : (isInf x || isInf y) = true := by simpa using h
  simp only [mul, hx, hy, h', Bool.or_self, Bool.false_eq_true, if_false, if_true]

theorem div_isInf_left {x y : F64} (hx : isInf x = true) (hy : isNaN y = false) :
    div x y = if isInf y then cnan else infinity (negative x != negative y) := by
  simp only [div, hx, isNaN_of_isInf hx, hy, Bool.or_self, Bool.false_eq_true, if_false, if_true]

theorem div_isInf_right {x y : F64} (hx : finite x = true) (hy : isInf y = true) :
    div x y = zero (negative x != negative y) := by
  simp only [div, isNaN_of_finite hx, isInf_of_finite hx, hy, isNaN_of_isInf hy, Bool.or_self, Bool.false_eq_true,
    if_false, if_true]

theorem div_units_zero {x y : F64} (hx : finite x = true) (hy : finite y = true) (h0 : units y = 0) :
    div x y = if units x = 0 then cnan else infinity (negative x != negative y) := by
  simp only [div, isNaN_of_finite hx, isNaN_of_finite hy, isInf_of_finite hx, isInf_of_finite hy, h0, Bool.or_self,
    Bool.false_eq_true, if_false, if_true]

theorem units_ne_zero_of_isInf {x : F64} (h : isInf x = true) : units x ≠ 0 := by
  rw [Ne, units_eq_zero_iff, (isInf_iff x).mp h]
  decide

/-- An infinity and its sign flip, as constants. -/
theorem neg_eq_infinity_of_isInf {x : F64} (h : isInf x = true) : neg x = infinity (!negative x) := by
  rw [eq_infinity_of_isInf ((isInf_neg x).trans h), negative_neg]

/-- Settles O36, one case of the operands at a time. -/
theorem specialOperandsFollowIEEE : Obligations.SpecialOperandsFollowIEEE := by
  intro x y
  have comm : (negative y != negative x) = (negative x != negative y) := bne_comm
  refine ⟨fun hx hy => ?_, fun hx hy => ?_, fun hx hy => ?_, fun hx hy h0 => ?_⟩
  · -- an infinity and a finite value: sums
    have hyn := isNaN_of_finite hy
    have hyi := isInf_of_finite hy
    refine ⟨?_, add_isInf_right hy hx, ?_, ?_⟩
    · simp [add_isInf_left hx hyn, hyi]
    · simp [sub, add_isInf_left hx ((isNaN_neg y).trans hyn), isInf_neg, hyi]
    · rw [sub, add_isInf_right hy ((isInf_neg x).trans hx), neg_eq_infinity_of_isInf hx]
  · -- two infinities
    have hxn := isNaN_of_isInf hx
    have hyn := isNaN_of_isInf hy
    refine ⟨?_, ?_, ?_, ?_⟩
    · rw [add_isInf_left hx hyn, hy, Bool.true_and]
    · rw [sub, add_isInf_left hx ((isNaN_neg y).trans hyn), isInf_neg, hy, negative_neg]
      cases negative x <;> cases negative y <;> rfl
    · rw [mul_isInf hxn hyn (.inl hx), if_neg (by simp [units_ne_zero_of_isInf hx, units_ne_zero_of_isInf hy])]
    · rw [div_isInf_left hx hyn, hy, if_pos rfl]
  · -- an infinity and a finite value: products and quotients
    have hxn := isNaN_of_isInf hx
    have hyn := isNaN_of_finite hy
    have hx0 := units_ne_zero_of_isInf hx
    simp only [toRat_eq_zero_iff]
    refine ⟨?_, ?_, ?_, ?_⟩
    · simp only [mul_isInf hxn hyn (.inl hx), hx0, false_or]
    · simp only [mul_isInf hyn hxn (.inr hx), hx0, or_false, comm]
    · rw [div_isInf_left hx hyn, isInf_of_finite hy, if_neg (by decide)]
    · rw [div_isInf_right hy hx, comm]
  · simp only [div_units_zero hx hy ((toRat_eq_zero_iff y).mp h0), toRat_eq_zero_iff]

/-- A result that is CNAN or no NaN: R10's form. -/
def CanonicalNaN (z : F64) : Prop := isNaN z = true → z = cnan

theorem canonicalNaN_cnan : CanonicalNaN cnan := fun _ => rfl

theorem canonicalNaN_of_isNaN_eq_false {z : F64} (h : isNaN z = false) : CanonicalNaN z := fun hz => by
  rw [h] at hz; exact absurd hz (by decide)

theorem canonicalNaN_roundUnits (b : Bool) (n d : Nat) : CanonicalNaN (roundUnits b n d) :=
  canonicalNaN_of_isNaN_eq_false (isNaN_roundUnits b n d)

theorem canonicalNaN_infinity (b : Bool) : CanonicalNaN (infinity b) :=
  canonicalNaN_of_isNaN_eq_false ((isNaN_eq_false_iff _).mpr (magBits_infinity b).le)

theorem canonicalNaN_zero (b : Bool) : CanonicalNaN (zero b) := zero_eq_roundUnits b ▸ canonicalNaN_roundUnits b 0 1

/-- A choice between canonical results is canonical. -/
theorem canonicalNaN_ite {c : Prop} [Decidable c] {a b : F64} (ha : CanonicalNaN a) (hb : ¬ c → CanonicalNaN b) :
    CanonicalNaN (if c then a else b) := by
  split
  · exact ha
  · next h => exact hb h

theorem canonicalNaN_add (x y : F64) : CanonicalNaN (add x y) := by
  refine canonicalNaN_ite canonicalNaN_cnan fun hn => ?_
  rw [Bool.not_eq_true, Bool.or_eq_false_iff] at hn
  obtain ⟨hx, hy⟩ := hn
  split
  · exact canonicalNaN_ite canonicalNaN_cnan fun _ => canonicalNaN_of_isNaN_eq_false hx
  · refine canonicalNaN_ite (canonicalNaN_of_isNaN_eq_false hy) fun _ => ?_
    exact canonicalNaN_ite (canonicalNaN_zero _) fun _ => canonicalNaN_roundUnits _ _ _

theorem canonicalNaN_mul (x y : F64) : CanonicalNaN (mul x y) := by
  refine canonicalNaN_ite canonicalNaN_cnan fun _ => ?_
  split
  · exact canonicalNaN_ite canonicalNaN_cnan fun _ => canonicalNaN_infinity _
  · exact canonicalNaN_roundUnits _ _ _

theorem canonicalNaN_div (x y : F64) : CanonicalNaN (div x y) := by
  refine canonicalNaN_ite canonicalNaN_cnan fun _ => ?_
  split
  · exact canonicalNaN_ite canonicalNaN_cnan fun _ => canonicalNaN_infinity _
  · refine canonicalNaN_ite (canonicalNaN_zero _) fun _ => ?_
    split
    · exact canonicalNaN_ite canonicalNaN_cnan fun _ => canonicalNaN_infinity _
    · exact canonicalNaN_roundUnits _ _ _

theorem canonicalNaN_ceil (x : F64) : CanonicalNaN (ceil x) := by
  refine canonicalNaN_ite canonicalNaN_cnan fun hn => ?_
  refine canonicalNaN_ite (canonicalNaN_of_isNaN_eq_false (Bool.not_eq_true _ ▸ hn)) fun _ => ?_
  exact canonicalNaN_ite (canonicalNaN_roundUnits _ _ _) fun _ => canonicalNaN_roundUnits _ _ _

/-- A settled cosine is a rounded scaled integer. -/
theorem cosSettled_eq_some {prec u : Nat} {z : F64} (h : cosSettled prec u = some z) :
    ofScaled (cosScale prec u) (cosEnclosure prec u).lo = z ∧
      ofScaled (cosScale prec u) (cosEnclosure prec u).hi = z := by
  simp only [cosSettled] at h
  split at h
  · next hc => exact ⟨Option.some.inj h, hc.2.symm.trans (Option.some.inj h)⟩
  · cases h

/-- The cosine of a nonzero argument is settled by some precision. -/
theorem cosUnits_settled (u : Nat) (h : u ≠ 0) : ∃ prec, cosSettled prec u = some (cosUnits u h) := by
  unfold cosUnits
  split
  · next z hz => exact ⟨_, hz⟩
  · exact ⟨_, (Option.some_get _).symm⟩

theorem cos_of_not_finite {x : F64} (h : finite x = false) : cos x = cnan := by
  simp only [cos, h, Bool.not_false, if_true]

theorem cos_of_units_zero {x : F64} (h : finite x = true) (h0 : units x = 0) : cos x = one := by
  simp only [cos, h, h0, Bool.not_true, Bool.false_eq_true, if_false, dite_true]

theorem cos_of_units {x : F64} (h : finite x = true) (h0 : units x ≠ 0) : cos x = cosUnits (units x) h0 := by
  simp only [cos, h, h0, Bool.not_true, Bool.false_eq_true, if_false, dite_false]

theorem canonicalNaN_cos (x : F64) : CanonicalNaN (cos x) := by
  cases hx : finite x with
  | false => exact cos_of_not_finite hx ▸ canonicalNaN_cnan
  | true =>
    by_cases h0 : units x = 0
    · rw [cos_of_units_zero hx h0]
      exact canonicalNaN_of_isNaN_eq_false (by decide)
    · rw [cos_of_units hx h0]
      obtain ⟨prec, h⟩ := cosUnits_settled (units x) h0
      exact (cosSettled_eq_some h).1 ▸ canonicalNaN_roundUnits _ _ _

/-- Settles O37: each operation gives CNAN, an operand that is no NaN, or a rounded magnitude. -/
theorem naNResultsAreCanonical : Obligations.NaNResultsAreCanonical := by
  intro x y
  refine ⟨?_, fun h => ?_, fun h => ?_⟩
  · simp only [List.forall_mem_cons]
    exact ⟨canonicalNaN_add x y, canonicalNaN_add x (neg y), canonicalNaN_mul x y, canonicalNaN_div x y,
      canonicalNaN_ceil x, canonicalNaN_cos x, by simp⟩
  · have hn : (isNaN x || isNaN y) = true := by simpa using h
    have hn' : (isNaN x || isNaN (neg y)) = true := by rwa [isNaN_neg]
    simp only [List.forall_mem_cons]
    exact ⟨if_pos hn, if_pos hn', if_pos hn, if_pos hn, by simp⟩
  · exact ⟨if_pos h, cos_of_not_finite ((finite_eq_false_iff x).mpr (.inr h))⟩

end Sys2Proof.F64

/-! Comparisons (R11), DERIVE's range checks (R76), `fceil`, `fabs`, `i2f` (R12) and `rne` (R14). -/

namespace Sys2Proof.F64

open Sys2Proof.Machine

/-! Comparisons. -/

/-- Finite values lie strictly between the infinities, in units too. -/
theorem intUnits_bounds {x : F64} (h : finite x = true) :
    -(magUnits infBits : ℤ) < intUnits x ∧ intUnits x < magUnits infBits := by
  have := units_lt h
  unfold intUnits
  split <;> omega

theorem intUnits_of_isInf {x : F64} (h : isInf x = true) :
    intUnits x = if negative x then -(magUnits infBits : ℤ) else magUnits infBits := by
  rw [intUnits, units_of_isInf h]

theorem toExtended_of_isInf {x : F64} (h : isInf x = true) :
    toExtended x = if negative x then ⊥ else ((⊤ : WithTop ℚ) : WithBot (WithTop ℚ)) := by
  rw [toExtended, if_pos h]

theorem toExtended_of_finite {x : F64} (h : finite x = true) :
    toExtended x = ((toRat x : WithTop ℚ) : WithBot (WithTop ℚ)) := by
  rw [toExtended, if_neg (by simp [isInf_of_finite h])]

theorem finite_or_isInf {x : F64} (h : isNaN x = false) : finite x = true ∨ isInf x = true := by
  rw [isNaN_eq_false_iff] at h
  rw [finite_iff, isInf_iff]
  omega

theorem coe_lt_infinity (q : ℚ) :
    ((q : WithTop ℚ) : WithBot (WithTop ℚ)) < ((⊤ : WithTop ℚ) : WithBot (WithTop ℚ)) :=
  WithBot.coe_lt_coe.mpr (WithTop.coe_lt_top q)

/-- The extended values are ordered as the units are. -/
theorem toExtended_lt_iff {x y : F64} (hx : isNaN x = false) (hy : isNaN y = false) :
    toExtended x < toExtended y ↔ intUnits x < intUnits y := by
  have hP : 0 < (magUnits infBits : ℤ) := by
    have := magUnits_strictMono (show 0 < infBits by decide)
    omega
  have bounds := @intUnits_bounds
  have ofInf := @intUnits_of_isInf
  generalize (magUnits infBits : ℤ) = P at hP bounds ofInf
  rcases finite_or_isInf hx with hx | hx <;> rcases finite_or_isInf hy with hy | hy
  · rw [toExtended_of_finite hx, toExtended_of_finite hy, WithBot.coe_lt_coe, WithTop.coe_lt_coe, toRat_lt_iff]
  · obtain ⟨hlow, hup⟩ := bounds hx
    rw [toExtended_of_finite hx, toExtended_of_isInf hy, ofInf hy]
    cases negative y
    · simpa only [Bool.false_eq_true, if_false, coe_lt_infinity, true_iff] using hup
    · simpa using hlow.le
  · obtain ⟨hlow, hup⟩ := bounds hy
    rw [toExtended_of_finite hy, toExtended_of_isInf hx, ofInf hx]
    cases negative x
    · simpa using hup.le
    · simpa using hlow
  · rw [toExtended_of_isInf hx, toExtended_of_isInf hy, ofInf hx, ofInf hy]
    cases negative x <;> cases negative y <;> simp <;> omega

theorem toExtended_le_iff {x y : F64} (hx : isNaN x = false) (hy : isNaN y = false) :
    toExtended x ≤ toExtended y ↔ intUnits x ≤ intUnits y := by
  rw [← not_lt, toExtended_lt_iff hy hx, not_lt]

theorem toExtended_eq_iff {x y : F64} (hx : isNaN x = false) (hy : isNaN y = false) :
    toExtended x = toExtended y ↔ intUnits x = intUnits y := by
  rw [le_antisymm_iff, toExtended_le_iff hx hy, toExtended_le_iff hy hx, le_antisymm_iff]

theorem lt_iff_toExtended {x y : F64} (hx : isNaN x = false) (hy : isNaN y = false) :
    lt x y = true ↔ toExtended x < toExtended y := by
  simp [lt, hx, hy, toExtended_lt_iff hx hy]

theorem le_iff_toExtended {x y : F64} (hx : isNaN x = false) (hy : isNaN y = false) :
    le x y = true ↔ toExtended x ≤ toExtended y := by
  simp [le, hx, hy, toExtended_le_iff hx hy]

theorem eq_iff_toExtended {x y : F64} (hx : isNaN x = false) (hy : isNaN y = false) :
    eq x y = true ↔ toExtended x = toExtended y := by
  simp [eq, hx, hy, toExtended_eq_iff hx hy]

theorem lt_iff_toRat {x y : F64} (hx : finite x = true) (hy : finite y = true) :
    lt x y = true ↔ toRat x < toRat y := by
  simp [lt, isNaN_of_finite hx, isNaN_of_finite hy, toRat_lt_iff]

theorem le_iff_toRat {x y : F64} (hx : finite x = true) (hy : finite y = true) :
    le x y = true ↔ toRat x ≤ toRat y := by
  simp [le, isNaN_of_finite hx, isNaN_of_finite hy, toRat_le_iff]

theorem eq_iff_toRat {x y : F64} (hx : finite x = true) (hy : finite y = true) :
    eq x y = true ↔ toRat x = toRat y := by
  simp [eq, isNaN_of_finite hx, isNaN_of_finite hy, toRat_eq_iff]

theorem isInf_infinity (b : Bool) : isInf (infinity b) = true := (isInf_iff _).mpr (magBits_infinity b)

theorem isNaN_infinity (b : Bool) : isNaN (infinity b) = false := isNaN_of_isInf (isInf_infinity b)

theorem toExtended_infinity_true : toExtended (infinity true) = ⊥ := toExtended_of_isInf (isInf_infinity true)

theorem toExtended_infinity_false : toExtended (infinity false) = ((⊤ : WithTop ℚ) : WithBot (WithTop ℚ)) :=
  toExtended_of_isInf (isInf_infinity false)

/-- A NaN operand makes every comparison false (R11). -/
theorem compare_isNaN {x y : F64} (h : isNaN x = true ∨ isNaN y = true) :
    lt x y = false ∧ le x y = false ∧ gt x y = false ∧ ge x y = false ∧ eq x y = false := by
  rcases h with h | h <;> simp [lt, le, gt, ge, eq, h]

/-- Settles O38, through the order of the extended values. -/
theorem comparisonsAreIEEE : Obligations.ComparisonsAreIEEE := by
  refine ⟨fun x y hx hy => ⟨lt_iff_toExtended hx hy, le_iff_toExtended hx hy, lt_iff_toExtended hy hx,
      le_iff_toExtended hy hx, eq_iff_toExtended hx hy⟩, toExtended_infinity_true, toExtended_infinity_false,
    fun x y hx hy => ⟨lt_iff_toRat hx hy, le_iff_toRat hx hy, lt_iff_toRat hy hx, le_iff_toRat hy hx,
      eq_iff_toRat hx hy⟩, fun x hx => ?_, ?_, fun b => ?_, fun x y h => compare_isNaN h, by decide +kernel,
    finite_eq_false_iff⟩
  · have hn := isNaN_of_finite hx
    have hi := isNaN_infinity
    refine ⟨?_, ?_, ?_, ?_, ?_, ?_, ?_, fun b => ?_⟩
    · simp [lt_iff_toExtended (hi _) hn, toExtended_of_finite hx, toExtended_infinity_true]
    · rw [lt_iff_toExtended hn (hi _), toExtended_of_finite hx, toExtended_infinity_false]
      exact coe_lt_infinity _
    · simp [← Bool.not_eq_true, lt_iff_toExtended hn (hi _), toExtended_of_finite hx, toExtended_infinity_true]
    · simp [← Bool.not_eq_true, lt_iff_toExtended (hi _) hn, toExtended_of_finite hx, toExtended_infinity_false]
    · simp [← Bool.not_eq_true, le_iff_toExtended (hi _) hn, toExtended_of_finite hx, toExtended_infinity_false]
    · simp [← Bool.not_eq_true, le_iff_toExtended hn (hi _), toExtended_of_finite hx, toExtended_infinity_true]
    · rw [gt, lt_iff_toExtended hn (hi _), toExtended_of_finite hx, toExtended_infinity_false]
      exact coe_lt_infinity _
    · cases b <;> simp [← Bool.not_eq_true, eq_iff_toExtended hn (hi _), toExtended_of_finite hx,
        toExtended_infinity_true, toExtended_infinity_false]
  · simp [lt_iff_toExtended (isNaN_infinity _) (isNaN_infinity _), toExtended_infinity_true,
      toExtended_infinity_false]
  · simp [← Bool.not_eq_true, lt_iff_toExtended (isNaN_infinity _) (isNaN_infinity _),
      le_iff_toExtended (isNaN_infinity _) (isNaN_infinity _), eq_iff_toExtended (isNaN_infinity _) (isNaN_infinity _)]

/-! Range checks. -/

/-- Between two finite bounds only finite values lie. -/
theorem finite_of_between {lo x hi : F64} (hlo : finite lo = true) (hhi : finite hi = true)
    (h1 : intUnits lo ≤ intUnits x) (h2 : intUnits x ≤ intUnits hi) (hn : isNaN x = false) : finite x = true := by
  refine (finite_or_isInf hn).resolve_right fun hi' => ?_
  obtain ⟨hl, -⟩ := intUnits_bounds hlo
  obtain ⟨-, hu⟩ := intUnits_bounds hhi
  have := intUnits_of_isInf hi'
  split at this <;> omega

theorem le_and_le_iff {lo x hi : F64} (hlo : finite lo = true) (hhi : finite hi = true) :
    (le lo x && le x hi) = true ↔ finite x = true ∧ toRat lo ≤ toRat x ∧ toRat x ≤ toRat hi := by
  rw [toRat_le_iff, toRat_le_iff]
  constructor
  · intro h
    simp only [le, Bool.and_eq_true, Bool.not_eq_true', decide_eq_true_eq] at h
    obtain ⟨⟨-, h1⟩, ⟨hn, -⟩, h2⟩ := h
    exact ⟨finite_of_between hlo hhi h1 h2 hn, h1, h2⟩
  · rintro ⟨hx, h1, h2⟩
    simp [le, isNaN_of_finite hlo, isNaN_of_finite hhi, isNaN_of_finite hx, h1, h2]

theorem lt_and_le_iff {lo x hi : F64} (hlo : finite lo = true) (hhi : finite hi = true) :
    (lt lo x && le x hi) = true ↔ finite x = true ∧ toRat lo < toRat x ∧ toRat x ≤ toRat hi := by
  rw [toRat_lt_iff, toRat_le_iff]
  constructor
  · intro h
    simp only [lt, le, Bool.and_eq_true, Bool.not_eq_true', decide_eq_true_eq] at h
    obtain ⟨⟨-, h1⟩, ⟨hn, -⟩, h2⟩ := h
    exact ⟨finite_of_between hlo hhi h1.le h2 hn, h1, h2⟩
  · rintro ⟨hx, h1, h2⟩
    simp [lt, le, isNaN_of_finite hlo, isNaN_of_finite hhi, isNaN_of_finite hx, h1, h2]

theorem toRat_posZero : toRat posZero = 0 := (toRat_eq_zero_iff _).mpr (by decide)

theorem intUnits_one : intUnits one = unitsPerOne := by decide +kernel

theorem toRat_one : toRat one = 1 := by
  rw [toRat, intUnits_one, Int.cast_natCast, div_self unitsPerOne_cast_pos.ne']

theorem intUnits_twoPi : intUnits twoPi = 2 * intUnits 0x400921FB54442D18#64 := by decide +kernel

/-- Settles O15: the checks are comparisons of rational values between finite bounds. -/
theorem rangeChecksAreTheDocumentedRanges : Obligations.RangeChecksAreTheDocumentedRanges := by
  refine ⟨fun a => ?_, fun b => le_and_le_iff (by decide) (by decide), fun r => ?_, rfl, rfl, rfl, rfl, rfl, rfl, rfl,
    rfl, ?_⟩
  · have h := lt_and_le_iff (lo := posZero) (x := a) (hi := ampMax) (by decide) (by decide)
    rwa [toRat_posZero, show ampMax = one from rfl, toRat_one] at h
  · rw [redInRange, Bool.and_eq_true, decide_eq_true_iff, decide_eq_true_iff]
  · rw [toRat, toRat, intUnits_twoPi, Int.cast_mul, mul_div_assoc, Int.cast_ofNat]

/-! `fceil`, `fabs`, `i2f`. -/

theorem two_pow_add_scale (k : Nat) : 2 ^ (k + 1074) = 2 ^ k * unitsPerOne := by
  rw [pow_add, unitsPerOne]

theorem log2_lt_iff_scale {n k : Nat} (hn : n ≠ 0) : n.log2 < k + 1074 ↔ n < 2 ^ k * unitsPerOne := by
  rw [Nat.log2_lt hn, two_pow_add_scale]

theorem two_pow_le_mul {k a b : Nat} (h : k ≤ a + b) : 2 ^ k ≤ 2 ^ a * 2 ^ b :=
  (Nat.pow_le_pow_right two_pos h).trans_eq (pow_add 2 a b)

theorem scale_le_infBits {k : Nat} (h : k ≤ 1024) : 2 ^ k * unitsPerOne ≤ magUnits infBits := by
  rw [magUnits_infBits, ← two_pow_add_scale]
  exact two_pow_le_mul (by omega)

/-- A significand of at most 53 bits is on the grid at every place. -/
theorem dvd_of_significand {j : Nat} (h : j < 2 ^ 53) (e : Nat) : 2 ^ ((j * 2 ^ e).log2 - 52) ∣ j * 2 ^ e := by
  rcases Nat.eq_zero_or_pos j with rfl | h0
  · simp
  · have hlog : (j * 2 ^ e).log2 < 53 + e := by
      rw [Nat.log2_lt (by positivity), pow_add]
      exact Nat.mul_lt_mul_of_pos_right h (by positivity)
    exact Dvd.dvd.mul_left (pow_dvd_pow 2 (by omega)) j

/-- Whole values below `2^53` are on the grid. -/
theorem dvd_of_whole {j : Nat} (h : j < 2 ^ 53) : 2 ^ ((j * unitsPerOne).log2 - 52) ∣ j * unitsPerOne := by
  rw [unitsPerOne]
  exact dvd_of_significand h 1074

theorem whole_lt_infBits {j : Nat} (h : j < 2 ^ 53) : j * unitsPerOne < magUnits infBits :=
  (Nat.mul_lt_mul_of_pos_right h unitsPerOne_pos).trans_le (scale_le_infBits (by norm_num))

/-- `i2f` is exact below `2^53` (R12). -/
theorem ofNat_exact {n : Nat} (h : n < 2 ^ 53) : finite (ofNat n) = true ∧ toRat (ofNat n) = n := by
  obtain ⟨hf, hu⟩ := roundUnits_exact false (dvd_of_whole h) (whole_lt_infBits h)
  refine ⟨hf, ?_⟩
  rw [ofNat, toRat, hu, if_neg (by decide), Int.cast_natCast, Nat.cast_mul, mul_div_assoc,
    div_self unitsPerOne_cast_pos.ne', mul_one]

/-- A finite magnitude of `2^52` or more is whole. -/
theorem unitsPerOne_dvd_units {x : F64} (h : 2 ^ 52 * unitsPerOne ≤ units x) : unitsPerOne ∣ units x := by
  have hpos : units x ≠ 0 := ((Nat.mul_pos (by norm_num) unitsPerOne_pos).trans_le h).ne'
  have hlog := not_lt.mp (mt (log2_lt_iff_scale hpos).mp (not_lt.mpr h))
  exact (pow_dvd_pow 2 (Nat.le_sub_of_add_le' hlog)).trans (dvd_units x)

/-- The whole number next to a finite magnitude, on either side, is on the grid and below the infinities. -/
theorem dvd_of_next_whole {x : F64} (hx : finite x = true) {j : Nat} (hlow : units x < (j + 1) * unitsPerOne)
    (hup : j * unitsPerOne < units x + unitsPerOne) :
    2 ^ ((j * unitsPerOne).log2 - 52) ∣ j * unitsPerOne ∧ j * unitsPerOne < magUnits infBits := by
  rcases lt_or_ge (units x) (2 ^ 52 * unitsPerOne) with h | h
  · have hj : j < 2 ^ 52 + 1 := by
      refine Nat.lt_of_mul_lt_mul_right (a := unitsPerOne) (hup.trans_le ?_)
      rw [Nat.add_one_mul]
      exact Nat.add_le_add_right h.le _
    exact ⟨dvd_of_whole (by omega), whole_lt_infBits (by omega)⟩
  · obtain ⟨i, hi⟩ := unitsPerOne_dvd_units h
    have hij : i = j := by
      rw [hi, mul_comm unitsPerOne i] at hlow hup
      have h1 := Nat.lt_of_mul_lt_mul_right hlow
      have h2 : j < i + 1 := Nat.lt_of_mul_lt_mul_right (a := unitsPerOne) (by rw [Nat.add_one_mul]; exact hup)
      exact le_antisymm (Nat.le_of_lt_succ h1) (Nat.le_of_lt_succ h2)
    rw [← hij, mul_comm, ← hi]
    exact ⟨dvd_units x, units_lt hx⟩

/-- The whole number of units that `fceil` rounds. -/
def ceilWhole (x : F64) : Nat :=
  if negative x then units x / unitsPerOne else (units x + unitsPerOne - 1) / unitsPerOne

theorem ceil_of_finite {x : F64} (h : finite x = true) :
    ceil x = roundUnits (negative x) (ceilWhole x * unitsPerOne) 1 := by
  simp only [ceil, isNaN_of_finite h, isInf_of_finite h, Bool.false_eq_true, if_false, ceilWhole]
  cases hn : negative x <;> simp only [Bool.false_eq_true, if_false, if_true]

/-- The whole number is next to the magnitude, on the side that the sign asks for. -/
theorem ceilWhole_bounds (x : F64) :
    if negative x then ceilWhole x * unitsPerOne ≤ units x ∧ units x < (ceilWhole x + 1) * unitsPerOne
    else units x ≤ ceilWhole x * unitsPerOne ∧ ceilWhole x * unitsPerOne < units x + unitsPerOne := by
  have hU := unitsPerOne_pos
  unfold ceilWhole
  generalize unitsPerOne = d at hU ⊢
  split
  · exact ⟨Nat.div_mul_le_self _ _, Nat.lt_mul_of_div_lt (Nat.lt_succ_self _) hU⟩
  · have h := Nat.div_add_mod (units x + d - 1) d
    have hm := Nat.mod_lt (units x + d - 1) hU
    rw [mul_comm] at h
    omega

theorem ceil_exact {x : F64} (h : finite x = true) :
    finite (ceil x) = true ∧
      toRat (ceil x) = (if negative x then -(ceilWhole x : ℚ) else (ceilWhole x : ℚ)) := by
  have hb := ceilWhole_bounds x
  have hU := unitsPerOne_pos
  obtain ⟨hlow, hup⟩ : units x < (ceilWhole x + 1) * unitsPerOne ∧
      ceilWhole x * unitsPerOne < units x + unitsPerOne := by
    generalize unitsPerOne = d at hb hU ⊢
    rw [Nat.add_one_mul] at hb ⊢
    split at hb <;> omega
  obtain ⟨hdvd, hlt⟩ := dvd_of_next_whole h hlow hup
  obtain ⟨hf, hu⟩ := roundUnits_exact (negative x) hdvd hlt
  have hU' : (unitsPerOne : ℚ) ≠ 0 := unitsPerOne_cast_pos.ne'
  rw [ceil_of_finite h]
  refine ⟨hf, ?_⟩
  rw [toRat, hu]
  split
  · rw [Int.cast_neg, Int.cast_natCast, Nat.cast_mul, neg_div, mul_div_cancel_right₀ _ hU']
  · rw [Int.cast_natCast, Nat.cast_mul, mul_div_cancel_right₀ _ hU']

/-- The whole number of `fceil` is the ceiling of the value. -/
theorem ceil_toRat (x : F64) : (⌈toRat x⌉ : ℚ) = if negative x then -(ceilWhole x : ℚ) else (ceilWhole x : ℚ) := by
  have hb := ceilWhole_bounds x
  have hU : (0 : ℚ) < unitsPerOne := unitsPerOne_cast_pos
  have hceil : ⌈toRat x⌉ = if negative x then -(ceilWhole x : ℤ) else (ceilWhole x : ℤ) := by
    rw [Int.ceil_eq_iff, toRat, intUnits, lt_div_iff₀ hU, div_le_iff₀ hU]
    generalize unitsPerOne = d at hb ⊢
    generalize ceilWhole x = j at hb ⊢
    split at hb
    · next hn =>
      obtain ⟨h1, h2⟩ := hb
      have h1' : (j : ℚ) * d ≤ units x := by exact_mod_cast h1
      have h2' : (units x : ℚ) < (j + 1) * d := by exact_mod_cast h2
      rw [if_pos hn, if_pos hn]
      push_cast
      constructor <;> linarith
    · next hn =>
      obtain ⟨h1, h2⟩ := hb
      have h1' : (units x : ℚ) ≤ j * d := by exact_mod_cast h1
      have h2' : (j : ℚ) * d < units x + d := by exact_mod_cast h2
      rw [if_neg hn, if_neg hn]
      push_cast
      constructor <;> linarith
  rw [hceil]
  split <;> push_cast <;> rfl

theorem magBits_abs (x : F64) : magBits (abs x) = magBits x := by
  rw [magBits_eq_setWidth, magBits_eq_setWidth, abs, BitVec.setWidth_and,
    show (0x7FFFFFFFFFFFFFFF#64).setWidth 63 = BitVec.allOnes 63 by decide, BitVec.and_allOnes]

theorem abs_getLsbD (x : F64) (i : Nat) : (abs x).getLsbD i = (x.getLsbD i && decide (i < 63)) := by
  have hmask : (0x7FFFFFFFFFFFFFFF#64) = (BitVec.allOnes 63).setWidth 64 := by decide
  rw [abs, BitVec.getLsbD_and, hmask, BitVec.getLsbD_setWidth, BitVec.getLsbD_allOnes]
  rcases lt_or_ge i 63 with h | h
  · simp [h, show i < 64 by omega]
  · simp [Nat.not_lt.mpr h]

theorem negative_abs (x : F64) : negative (abs x) = false := by
  rw [negative, abs_getLsbD, decide_eq_false (by decide), Bool.and_false]

theorem toRat_abs (x : F64) : toRat (abs x) = |toRat x| := by
  have hU : (0 : ℚ) < unitsPerOne := unitsPerOne_cast_pos
  have hu : units (abs x) = units x := by rw [units_eq, magBits_abs, ← units_eq]
  rw [toRat, toRat, abs_div, abs_of_pos hU, intUnits, intUnits, negative_abs, hu]
  generalize (unitsPerOne : ℚ) = d
  cases negative x <;> simp

/-- Settles O39. -/
theorem ceilAbsAndConversionAreExact : Obligations.CeilAbsAndConversionAreExact := by
  refine ⟨fun x hx => ⟨(ceil_exact hx).1, (ceil_exact hx).2.trans (ceil_toRat x).symm, fun _ => ?_, ?_, toRat_abs x⟩,
    fun b => ?_, fun x hx => ⟨if_pos hx, ?_⟩, abs_getLsbD, fun n hn => ofNat_exact hn⟩
  · rw [ceil_of_finite hx, negative_roundUnits]
  · rw [finite_iff, magBits_abs]; exact (finite_iff x).mp hx
  · simp [ceil, isNaN_infinity, isInf_infinity]
  · rw [isNaN_iff, magBits_abs]; exact (isNaN_iff x).mp hx

/-! `rne`. -/

/-- `rne` differs from the value by at most one half, and by one half only when it is even (R14). -/
theorem rne_near (x : F64) :
    |toRat x - (rne x : ℚ)| ≤ 1 / 2 ∧ (|toRat x - (rne x : ℚ)| = 1 / 2 → rne x % 2 = 0) := by
  obtain ⟨hle, heven⟩ := rneDiv_near (K := ℚ) (n := units x) unitsPerOne_pos
  unfold toRat intUnits rne
  generalize rneDiv (units x) unitsPerOne = q at hle heven
  cases negative x with
  | false =>
    simp only [Bool.false_eq_true, if_false, Int.cast_natCast]
    exact ⟨hle, fun h => by have := heven h; omega⟩
  | true =>
    have e : ((-(units x : ℤ) : ℤ) : ℚ) / unitsPerOne - ((-(q : ℤ) : ℤ) : ℚ) =
        -((units x : ℚ) / unitsPerOne - q) := by
      rw [Int.cast_neg, Int.cast_neg, Int.cast_natCast, Int.cast_natCast, neg_div]; ring
    simp only [if_true, e, abs_neg]
    exact ⟨hle, fun h => by have := heven h; omega⟩

/-- Settles O40. -/
theorem rneIsNearestIntegerTiesToEven : Obligations.RneIsNearestIntegerTiesToEven :=
  ⟨fun x _ => rne_near x, by decide +kernel, by decide +kernel, by decide +kernel, by decide +kernel⟩

/-! The capacity test of EMBED. -/

/-- Half of 1.0 is a power of two of units. -/
theorem unitsPerOne_eq_half : ∃ k, unitsPerOne = 2 ^ k * 2 := ⟨1073, by rw [unitsPerOne, pow_succ]⟩

/-- Halves of whole numbers below `2^53` are binary64 values. -/
theorem exists_half {n : Nat} (h : n < 2 ^ 53) : ∃ y, finite y = true ∧ toRat y = n / 2 := by
  obtain ⟨k, hU⟩ := unitsPerOne_eq_half
  have hdvd := dvd_of_significand h k
  have hlt := whole_lt_infBits h
  have he : 0 < 2 ^ k := Nat.pow_pos two_pos
  generalize 2 ^ k = e at hdvd hU he
  obtain ⟨hf, hu⟩ := roundUnits_exact false hdvd
    (lt_of_le_of_lt (Nat.mul_le_mul_left n (hU ▸ Nat.le_mul_of_pos_right e two_pos)) hlt)
  refine ⟨_, hf, ?_⟩
  have he' : (e : ℚ) ≠ 0 := Nat.cast_ne_zero.mpr he.ne'
  rw [toRat, hu, if_neg (by decide), Int.cast_natCast, hU, Nat.cast_mul, Nat.cast_mul, mul_comm (n : ℚ),
    mul_div_mul_left _ _ he', Nat.cast_ofNat]

/-- Rounding does not cross a binary64 value that the exact result has reached. -/
theorem RoundsTo.toExtended_le {r : ℝ} {z y : F64} (h : RoundsTo r z) (hy : finite y = true)
    (hyr : (toRat y : ℝ) ≤ r) (hr : -overflowBound < r) : toExtended y ≤ toExtended z := by
  obtain ⟨hnear, hover, -⟩ := h
  rcases lt_or_ge r overflowBound with hlt | hge
  · obtain ⟨hz, hall⟩ := hnear (abs_lt.mpr ⟨hr, hlt⟩)
    rw [toExtended_of_finite hy, toExtended_of_finite hz, WithBot.coe_le_coe, WithTop.coe_le_coe]
    by_contra hzy
    have hzy' : (toRat z : ℝ) < toRat y := by exact_mod_cast not_le.mp hzy
    have hle := (hall y hy).1
    rw [abs_of_nonpos (by linarith), abs_of_nonpos (by linarith)] at hle
    linarith
  · rw [hover hge, toExtended_of_finite hy, toExtended_infinity_false]
    exact (coe_lt_infinity _).le

/-- Settles O30: a payload one sample too long has an exact end of half a sample past the host at least, and the
rounded end does not fall below that half. -/
theorem embeddedPayloadFitsTheHost : Obligations.EmbeddedPayloadFitsTheHost := by
  intro loc rate len cap off hlen hcap hfits hloc
  obtain ⟨hfin, hrne⟩ := location_eq_ok.mp hloc
  unfold capacityHolds at hfits
  generalize mul loc (ofNat rate) = x at hfits hfin hrne
  obtain ⟨hlenf, hlenv⟩ := ofNat_exact (n := len) (by omega)
  obtain ⟨hcapf, hcapv⟩ := ofNat_exact (n := cap) (by omega)
  obtain ⟨y, hyf, hyv⟩ := exists_half (n := 2 * cap + 1) (by omega)
  have hround := add_roundsTo hfin hlenf
  rw [hlenv] at hround
  generalize add x (ofNat len) = z at hfits hround
  by_contra hoff
  have hoff' : (cap : ℚ) + 1 ≤ off + len := by exact_mod_cast not_le.mp hoff
  have hx : (off : ℚ) - 1 / 2 ≤ toRat x := by
    have := (rne_near x).1
    rw [hrne, Int.cast_natCast, abs_le] at this
    linarith
  have hyv' : toRat y = cap + 1 / 2 := by rw [hyv]; push_cast; ring
  have hreach : toRat y ≤ toRat x + len := by linarith
  have hreach' : (toRat y : ℝ) ≤ ((toRat x + len : ℚ) : ℝ) := Rat.cast_le.mpr hreach
  have hpos : (0 : ℝ) ≤ ((toRat x + len : ℚ) : ℝ) :=
    Rat.cast_nonneg.mpr (le_trans (by rw [hyv']; positivity) hreach)
  have hyz := hround.toExtended_le hyf hreach' (by linarith [overflowBound_pos])
  have hn : isNaN z = false := by
    by_contra hn
    rw [(compare_isNaN (.inl (Bool.not_eq_false _ ▸ hn))).2.1] at hfits
    exact absurd hfits (by decide)
  have hzc := (le_iff_toExtended hn (isNaN_of_finite hcapf)).mp hfits
  have hyc := hyz.trans hzc
  rw [toExtended_of_finite hyf, toExtended_of_finite hcapf, WithBot.coe_le_coe, WithTop.coe_le_coe, hyv', hcapv] at hyc
  linarith

end Sys2Proof.F64

/-! The cosine (R13): its integer enclosure holds, and the settled rounding is the nearest value. -/

namespace Sys2Proof.F64

open Sys2Proof.Machine

/-- The two integers of an enclosure lie on either side of `x`. -/
def Holds (e : Enclosure) (x : ℝ) : Prop := (e.lo : ℝ) ≤ x ∧ x ≤ e.hi

theorem cosTerm_antitone {y : ℝ} (h0 : 0 ≤ y) (hy : y ≤ 1 / 65536) : Antitone (cosTerm y) := by
  refine antitone_nat_of_succ_le fun j => ?_
  rw [cosTerm_succ, mul_div_assoc]
  refine mul_le_of_le_one_right (cosTerm_nonneg h0 j) ((div_le_one (by positivity)).mpr ?_)
  have : (0 : ℝ) ≤ j := Nat.cast_nonneg j
  nlinarith

/-- A tail of the alternating series lies between 0 and its first term. -/
theorem cosRest_mem {y : ℝ} (h0 : 0 ≤ y) (hy : y ≤ 1 / 65536) (j : ℕ) :
    0 ≤ cosRest y j ∧ cosRest y j ≤ cosTerm y j := by
  have hsum := (cosRest_summable h0 hy j).hasSum.tendsto_sum_nat
  have hanti : Antitone fun i => cosTerm y (j + i) := fun a b h => cosTerm_antitone h0 hy (Nat.add_le_add_left h j)
  have hlow := hanti.alternating_series_le_tendsto hsum 0
  have hup := hanti.tendsto_le_alternating_series hsum 0
  simp only [Nat.mul_zero, Finset.range_zero, Finset.sum_empty, Nat.zero_add, Finset.sum_range_one, pow_zero, one_mul,
    Nat.add_zero] at hlow hup
  exact ⟨hlow, hup⟩

/-- The quotients of `cosTail` enclose the next term. -/
theorem cosTerm_succ_enclosed {p : ℕ} {y : ℝ} (h0 : 0 ≤ y) {j ylo yhi lo hi : ℕ}
    (hylo : (ylo : ℝ) ≤ 2 ^ p * y) (hyhi : 2 ^ p * y ≤ yhi) (hlo : (lo : ℝ) ≤ 2 ^ p * cosTerm y j)
    (hhi : 2 ^ p * cosTerm y j ≤ hi) :
    ((lo * ylo / ((2 * j + 1) * (2 * j + 2) * 2 ^ p) : ℕ) : ℝ) ≤ 2 ^ p * cosTerm y (j + 1) ∧
      2 ^ p * cosTerm y (j + 1) ≤ ((hi * yhi / ((2 * j + 1) * (2 * j + 2) * 2 ^ p) + 1 : ℕ) : ℝ) := by
  have hT := cosTerm_nonneg h0 j
  have hnext : 2 ^ p * cosTerm y (j + 1) =
      (2 ^ p * cosTerm y j) * (2 ^ p * y) / (((2 * j + 1) * (2 * j + 2) * 2 ^ p : ℕ) : ℝ) := by
    rw [cosTerm_succ]; push_cast; field_simp
  generalize (2 * j + 1) * (2 * j + 2) * 2 ^ p = c at hnext ⊢
  obtain ⟨-, hdown⟩ := natDiv_near (lo * ylo) c
  obtain ⟨hup, -⟩ := natDiv_near (hi * yhi) c
  rw [hnext]
  constructor
  · refine hdown.trans ?_
    rw [Nat.cast_mul]
    gcongr
  · rw [Nat.cast_add, Nat.cast_one]
    refine le_trans ?_ (sub_le_iff_le_add.mp hup)
    rw [Nat.cast_mul]
    gcongr

theorem cosTail_holds {p : ℕ} {y : ℝ} (h0 : 0 ≤ y) (hy : y ≤ 1 / 65536) {ylo yhi : ℕ}
    (hylo : (ylo : ℝ) ≤ 2 ^ p * y) (hyhi : 2 ^ p * y ≤ yhi) (n : ℕ) :
    ∀ j lo hi : ℕ, (lo : ℝ) ≤ 2 ^ p * cosTerm y j → 2 ^ p * cosTerm y j ≤ hi →
      Holds (cosTail p ylo yhi n j lo hi) (2 ^ p * cosRest y j) := by
  induction n with
  | zero =>
    intro j lo hi _ hhi
    obtain ⟨hlow, hup⟩ := cosRest_mem h0 hy j
    constructor
    · simp only [cosTail, Int.cast_zero]; positivity
    · simp only [cosTail, Int.cast_natCast]
      exact le_trans (by gcongr) hhi
  | succ n ih =>
    intro j lo hi hlo hhi
    obtain ⟨hnlo, hnhi⟩ := cosTerm_succ_enclosed h0 hylo hyhi hlo hhi
    obtain ⟨hrlo, hrhi⟩ := ih (j + 1) _ _ hnlo hnhi
    rw [cosRest_eq h0 hy j, mul_sub]
    constructor
    · simp only [cosTail, Int.cast_sub, Int.cast_natCast]; linarith
    · simp only [cosTail, Int.cast_sub, Int.cast_natCast]; linarith

/-- The least and the greatest magnitude of an enclosure. -/
theorem abs_enclosed {e : Enclosure} {x : ℝ} (h : Holds e x) :
    ((if 0 ≤ e.lo then e.lo.natAbs else if e.hi ≤ 0 then e.hi.natAbs else 0 : ℕ) : ℝ) ≤ |x| ∧
      |x| ≤ ((max e.lo.natAbs e.hi.natAbs : ℕ) : ℝ) := by
  obtain ⟨hlo, hhi⟩ := h
  constructor
  · split
    · next hpos =>
      rw [Nat.cast_natAbs, abs_of_nonneg hpos]
      exact hlo.trans (le_abs_self x)
    · split
      · next hneg =>
        rw [Nat.cast_natAbs, abs_of_nonpos hneg, Int.cast_neg]
        exact (neg_le_neg hhi).trans (neg_le_abs x)
      · rw [Nat.cast_zero]; exact abs_nonneg x
  · rw [Nat.cast_max, Nat.cast_natAbs, Nat.cast_natAbs, Int.cast_abs, Int.cast_abs]
    exact abs_le_max_abs_abs hlo hhi

theorem cosDouble_holds {p : ℕ} {e : Enclosure} {t : ℝ} (h : Holds e (2 ^ p * Real.cos t)) :
    Holds (cosDouble p e) (2 ^ p * Real.cos (2 * t)) := by
  obtain ⟨hlow, hhigh⟩ := abs_enclosed h
  have hcos : (2 : ℝ) ^ p * Real.cos (2 * t) =
      2 * (|2 ^ p * Real.cos t| * |2 ^ p * Real.cos t|) / 2 ^ p - 2 ^ p := by
    rw [Real.cos_two_mul, abs_mul_abs_self]; field_simp
  have hx := abs_nonneg ((2 : ℝ) ^ p * Real.cos t)
  rw [hcos]
  generalize |(2 : ℝ) ^ p * Real.cos t| = x at hlow hhigh hx
  constructor
  · simp only [cosDouble, Int.cast_sub, Int.cast_natCast]
    generalize (if 0 ≤ e.lo then e.lo.natAbs else if e.hi ≤ 0 then e.hi.natAbs else 0) = a at hlow ⊢
    obtain ⟨-, hdown⟩ := natDiv_near (2 * (a * a)) (2 ^ p)
    refine sub_le_sub (hdown.trans ?_) (by push_cast; exact le_rfl)
    push_cast
    gcongr
  · simp only [cosDouble, Int.cast_sub, Int.cast_natCast]
    generalize max e.lo.natAbs e.hi.natAbs = b at hhigh ⊢
    obtain ⟨hup, -⟩ := natDiv_near (2 * (b * b)) (2 ^ p)
    refine sub_le_sub ?_ (by push_cast; exact le_rfl)
    rw [Nat.cast_add, Nat.cast_one]
    refine le_trans ?_ (sub_le_iff_le_add.mp hup)
    push_cast
    gcongr

theorem cosDoubles_holds {p : ℕ} (n : ℕ) : ∀ {e : Enclosure} {t : ℝ}, Holds e (2 ^ p * Real.cos t) →
    Holds (cosDoubles p n e) (2 ^ p * Real.cos (2 ^ n * t)) := by
  induction n with
  | zero => intro e t h; simpa [cosDoubles] using h
  | succ n ih =>
    intro e t h
    rw [cosDoubles, pow_succ, mul_assoc]
    exact ih (cosDouble_holds h)

/-- The enclosure before the doublings, of an argument halved below 2^-8. -/
theorem cosStart_holds {p u w : ℕ} (hw : u.log2 + 9 ≤ w) :
    Holds (cosTail p (u * u * 2 ^ p / 2 ^ (2 * w)) (u * u * 2 ^ p / 2 ^ (2 * w) + 1) (p / 16 + 2) 0 (2 ^ p) (2 ^ p))
      (2 ^ p * Real.cos ((u : ℝ) / 2 ^ w)) := by
  have ht1 : (u : ℝ) / 2 ^ w ≤ 1 / 256 := by
    have hu : u * 2 ^ 8 ≤ 2 ^ w := by
      calc u * 2 ^ 8 ≤ 2 ^ (u.log2 + 1) * 2 ^ 8 := Nat.mul_le_mul_right _ Nat.lt_log2_self.le
        _ = 2 ^ (u.log2 + 9) := by rw [← pow_add]
        _ ≤ 2 ^ w := Nat.pow_le_pow_right two_pos hw
    have hu' : (u : ℝ) * 2 ^ 8 ≤ 2 ^ w := by exact_mod_cast hu
    rw [div_le_div_iff₀ (by positivity) (by norm_num)]
    linarith
  have ht0 : 0 ≤ (u : ℝ) / 2 ^ w := by positivity
  have hsq : ((u * u * 2 ^ p : ℕ) : ℝ) / ((2 ^ (2 * w) : ℕ) : ℝ) = 2 ^ p * ((u : ℝ) / 2 ^ w) ^ 2 := by
    rw [div_pow, ← pow_mul, mul_comm w 2]
    push_cast
    ring
  obtain ⟨hup, hdown⟩ := natDiv_near (u * u * 2 ^ p) (2 ^ (2 * w))
  rw [hsq] at hup hdown
  generalize (u : ℝ) / 2 ^ w = t at ht0 ht1 hup hdown ⊢
  have hone : 2 ^ p * cosTerm (t ^ 2) 0 = ((2 ^ p : ℕ) : ℝ) := by simp [cosTerm]
  rw [← cosRest_zero]
  refine cosTail_holds (sq_nonneg t) (by nlinarith) hdown ?_ _ 0 _ _ hone.ge hone.le
  rw [Nat.cast_add, Nat.cast_one]
  exact sub_le_iff_le_add.mp hup

/-- The enclosure holds the cosine, for every working precision. -/
theorem cosEnclosure_holds (prec u : ℕ) :
    Holds (cosEnclosure prec u) (2 ^ cosScale prec u * Real.cos ((u : ℝ) / 2 ^ 1074)) := by
  have hstart := cosStart_holds (p := cosScale prec u) (u := u) (w := 1074 + cosHalvings u)
    (by unfold cosHalvings; omega)
  have harg : (2 : ℝ) ^ cosHalvings u * ((u : ℝ) / 2 ^ (1074 + cosHalvings u)) = (u : ℝ) / 2 ^ 1074 := by
    rw [pow_add, div_mul_eq_div_div_swap, mul_div_assoc', mul_div_assoc', mul_div_cancel_left₀ _ (by positivity)]
  have h := cosDoubles_holds (cosHalvings u) hstart
  rwa [harg] at h

/-- Settles O41. -/
theorem cosineEnclosureHolds : Obligations.CosineEnclosureHolds := cosEnclosure_holds

/-- Of two numbers the lesser is as near to `t` as the greater when `t` is no more than their mean. -/
theorem abs_sub_le_abs_sub_iff {u v t : ℝ} (h : u < v) : |u - t| ≤ |v - t| ↔ 2 * t ≤ u + v := by
  rw [← sq_le_sq]
  constructor <;> intro h' <;> nlinarith

theorem abs_sub_ge_abs_sub_iff {u v t : ℝ} (h : u < v) : |v - t| ≤ |u - t| ↔ u + v ≤ 2 * t := by
  rw [← sq_le_sq]
  constructor <;> intro h' <;> nlinarith

/-- A value that is nearest to two numbers is nearest to every number between them. -/
theorem NearestEven.between {a b r : ℝ} {z : F64} (ha : NearestEven a z) (hb : NearestEven b z) (har : a ≤ r)
    (hrb : r ≤ b) : NearestEven r z := by
  refine ⟨ha.1, fun y hy => ?_⟩
  obtain ⟨hale, hatie⟩ := ha.2 y hy
  obtain ⟨hble, hbtie⟩ := hb.2 y hy
  rcases lt_trichotomy (toRat z : ℝ) (toRat y) with hlt | heq | hgt
  · rw [abs_sub_le_abs_sub_iff hlt] at hble ⊢
    refine ⟨by linarith, fun he => hbtie (le_antisymm ?_ ((abs_sub_le_abs_sub_iff hlt).mpr hble))⟩
    have := (abs_sub_ge_abs_sub_iff hlt).mp he.le
    exact (abs_sub_ge_abs_sub_iff hlt).mpr (by linarith)
  · rw [heq]
    exact ⟨le_rfl, fun _ => .inl (by exact_mod_cast heq.symm)⟩
  · rw [abs_sub_ge_abs_sub_iff hgt] at hale ⊢
    refine ⟨by linarith, fun he => hatie (le_antisymm ?_ ((abs_sub_ge_abs_sub_iff hgt).mpr hale))⟩
    have := (abs_sub_le_abs_sub_iff hgt).mp he.le
    exact (abs_sub_le_abs_sub_iff hgt).mpr (by linarith)

theorem not_finite_infinity (b : Bool) : ¬ finite (infinity b) = true := by
  rw [finite_iff, magBits_infinity]
  exact lt_irrefl _

/-- Two numbers that round alike round like every number between them. -/
theorem RoundsTo.nearestEven_between {a b r : ℝ} {z : F64} (ha : RoundsTo a z) (hb : RoundsTo b z) (har : a ≤ r)
    (hrb : r ≤ b) (hr : |r| < overflowBound) : NearestEven r z := by
  obtain ⟨hrlow, hrup⟩ := abs_lt.mp hr
  obtain ⟨hanear, -, haneg⟩ := ha
  obtain ⟨hbnear, hbpos, -⟩ := hb
  rcases lt_or_ge (-overflowBound) a with halt | hage
  · have hza := hanear (abs_lt.mpr ⟨halt, har.trans_lt hrup⟩)
    refine hza.between (hbnear (abs_lt.mpr ⟨hrlow.trans_le hrb, lt_of_not_ge fun hbge => ?_⟩)) har hrb
    exact not_finite_infinity _ (hbpos hbge ▸ hza.1)
  · exfalso
    rcases lt_or_ge b overflowBound with hblt | hbge
    · have hzb := hbnear (abs_lt.mpr ⟨hrlow.trans_le hrb, hblt⟩)
      exact not_finite_infinity _ (haneg hage ▸ hzb.1)
    · exact absurd ((haneg hage).symm.trans (hbpos hbge)) (by decide)

/-- A scaled integer rounds to the value nearest to it. -/
theorem ofScaled_roundsTo (p : ℕ) (z : ℤ) : RoundsTo ((z : ℝ) / 2 ^ p) (ofScaled p z) := by
  have h := roundUnits_roundsTo (n := z.natAbs * unitsPerOne) (d := 2 ^ p) (decide (z < 0)) (by positivity)
  have hU : (unitsPerOne : ℝ) ≠ 0 := unitsPerOne_cast_pos.ne'
  rwa [Nat.cast_mul, mul_div_right_comm (z.natAbs : ℝ), ← mul_assoc, mul_div_cancel_right₀ _ hU,
    ← mul_div_assoc, signOf_mul_natAbs, Nat.cast_pow, Nat.cast_ofNat] at h

theorem one_lt_overflowBound : 1 < overflowBound := by
  have h : (1 : ℝ) ≤ 2 ^ 970 := one_le_pow₀ (by norm_num)
  unfold overflowBound
  generalize (2 : ℝ) ^ 970 = g at h ⊢
  linarith

/-- Where a precision settles the cosine, its rounding is the nearest value. -/
theorem cosSettled_nearestEven {prec u : ℕ} {z : F64} (h : cosSettled prec u = some z) :
    NearestEven (Real.cos ((u : ℝ) / 2 ^ 1074)) z := by
  obtain ⟨hzlo, hzhi⟩ := cosSettled_eq_some h
  obtain ⟨hlo, hhi⟩ := cosEnclosure_holds prec u
  have hp : (0 : ℝ) < 2 ^ cosScale prec u := by positivity
  have hrlo := ofScaled_roundsTo (cosScale prec u) (cosEnclosure prec u).lo
  have hrhi := ofScaled_roundsTo (cosScale prec u) (cosEnclosure prec u).hi
  rw [hzlo] at hrlo
  rw [hzhi] at hrhi
  exact hrlo.nearestEven_between hrhi ((div_le_iff₀' hp).mpr hlo) ((le_div_iff₀' hp).mpr hhi)
    ((Real.abs_cos_le_one _).trans_lt one_lt_overflowBound)

theorem abs_toRat (x : F64) : |(toRat x : ℝ)| = (units x : ℝ) / 2 ^ 1074 := by
  rw [toRat_cast_units, ← unitsPerOne_cast, abs_div, abs_mul, abs_signOf, one_mul, Nat.abs_cast, Nat.abs_cast]

/-- Settles O42: an argument of no units has cosine 1, every other is settled by some precision. -/
theorem cosineIsCorrectlyRounded : Obligations.CosineIsCorrectlyRounded := by
  refine ⟨fun x hx => ?_, fun x hx => cos_of_not_finite hx⟩
  by_cases h0 : units x = 0
  · rw [cos_of_units_zero hx h0, (toRat_eq_zero_iff x).mpr h0, Rat.cast_zero, Real.cos_zero]
    refine ⟨by decide, fun y _ => ?_⟩
    rw [toRat_one, Rat.cast_one, sub_self, abs_zero]
    refine ⟨abs_nonneg _, fun he => .inl ?_⟩
    exact_mod_cast sub_eq_zero.mp (abs_eq_zero.mp he)
  · obtain ⟨prec, hsettled⟩ := cosUnits_settled (units x) h0
    rw [cos_of_units hx h0, ← Real.cos_abs, abs_toRat]
    exact cosSettled_nearestEven hsettled

end Sys2Proof.F64

/-! The stores of MOD, EMBED and EXTRACT: one store of the whole output is the loop's stores one after the other. -/

namespace Sys2Proof.Machine

open Sys2Proof.Safety

theorem sampleBytes_append (xs ys : List F64) : sampleBytes (xs ++ ys) = sampleBytes xs ++ sampleBytes ys :=
  List.flatMap_append

theorem sampleBytes_singleton (x : F64) : sampleBytes [x] = bytesLE 8 x.toNat := by simp [sampleBytes]

theorem Memory.write_nil {m : Memory} (h : Memory.wf m) (a : Nat) : Memory.write m a [] = m :=
  Memory.ext_of_read (Memory.write_wf h a []) h fun x => Memory.read_write_outside (by simp; omega)

/-- One write of two byte strings is the two writes one after the other. -/
theorem Memory.write_append {m : Memory} (h : Memory.wf m) (a : Nat) (bs cs : List Byte) :
    Memory.write m a (bs ++ cs) = Memory.write (Memory.write m a bs) (a + bs.length) cs := by
  refine Memory.ext_of_read (Memory.write_wf h _ _) (Memory.write_wf (Memory.write_wf h _ _) _ _) fun x => ?_
  rcases Nat.lt_or_ge x a with hlow | hlow
  · rw [Memory.read_write_outside (.inl hlow), Memory.read_write_outside (.inl (by omega)),
      Memory.read_write_outside (.inl hlow)]
  obtain ⟨i, rfl⟩ := Nat.exists_eq_add_of_le hlow
  rcases Nat.lt_or_ge i bs.length with hb | hb
  · rw [Memory.read_write_inside (by rw [List.length_append]; omega), List.getElem_append_left hb,
      Memory.read_write_outside (.inl (by omega)), Memory.read_write_inside hb]
  obtain ⟨j, rfl⟩ := Nat.exists_eq_add_of_le hb
  rcases Nat.lt_or_ge j cs.length with hc | hc
  · rw [Memory.read_write_inside (by rw [List.length_append]; omega), List.getElem_append_right hb,
      ← Nat.add_assoc, Memory.read_write_inside hc]
    simp
  · rw [Memory.read_write_outside (.inr (by rw [List.length_append]; omega)),
      Memory.read_write_outside (.inr (by omega)), Memory.read_write_outside (.inr (by omega))]

theorem Memory.putSamples_nil {m : Memory} (h : Memory.wf m) (a : Nat) : Memory.putSamples m a [] = m :=
  Memory.write_nil h a

/-- One sample more is one store more. -/
theorem Memory.putSamples_concat {m : Memory} (h : Memory.wf m) (a : Nat) (xs : List F64) (x : F64) :
    Memory.putSamples m a (xs ++ [x]) =
      Memory.writeLE (Memory.putSamples m a xs) (a + 8 * xs.length) 8 x.toNat := by
  rw [Memory.putSamples, sampleBytes_append, sampleBytes_singleton, Memory.write_append h, sampleBytes_length]
  rfl

theorem Memory.read_putSamples_outside {m : Memory} {a x : Nat} {xs : List F64}
    (h : x < a ∨ a + 8 * xs.length ≤ x) : Memory.read (Memory.putSamples m a xs) x = Memory.read m x :=
  Memory.read_write_outside (by rwa [sampleBytes_length])

theorem Memory.sample_putSamples_outside {m : Memory} {a x : Nat} {xs : List F64}
    (h : x + 8 ≤ a ∨ a + 8 * xs.length ≤ x) :
    Memory.sample (Memory.putSamples m a xs) x = Memory.sample m x :=
  Memory.sample_congr fun i hi => Memory.read_putSamples_outside (by omega)

theorem Memory.bit_putSamples_outside {m : Memory} {a base i : Nat} {xs : List F64}
    (h : base + i / 8 < a ∨ a + 8 * xs.length ≤ base + i / 8) :
    Memory.bit (Memory.putSamples m a xs) base i = Memory.bit m base i := by
  rw [Memory.bit, Memory.read_putSamples_outside h, Memory.bit]

/-- A loop that stores one sample after the other leaves what one store of all samples leaves, when the sample it
computes in each round is the one that the memory before the loop gives. -/
theorem Memory.foldl_putSample {m : Memory} (h : Memory.wf m) (a : Nat) (g : Memory → Nat → F64) (n : Nat)
    (hg : ∀ i < n, g (Memory.putSamples m a ((List.range i).map (g m))) i = g m i) :
    (List.range n).foldl (fun m' i => Memory.writeLE m' (a + 8 * i) 8 (g m' i).toNat) m =
      Memory.putSamples m a ((List.range n).map (g m)) := by
  induction n with
  | zero => exact (Memory.putSamples_nil h a).symm
  | succ n ih =>
    rw [List.range_succ, List.foldl_append, ih fun i hi => hg i (by omega), List.map_append, List.map_singleton,
      Memory.putSamples_concat h, List.foldl_cons, List.foldl_nil, hg n (Nat.lt_succ_self n), List.length_map,
      List.length_range]

/-- Two nested loops over `i < n` and `k < c` are one loop over `j = i * c + k`. -/
theorem foldl_range_mul {α : Type*} (f : α → Nat → Nat → α) (n c : Nat) (init : α) :
    (List.range n).foldl (fun acc i => (List.range c).foldl (fun acc k => f acc i k) acc) init =
      (List.range (n * c)).foldl (fun acc j => f acc (j / c) (j % c)) init := by
  induction n with
  | zero => simp
  | succ n ih =>
    rw [List.range_succ, List.foldl_append, ih, Nat.succ_mul, List.range_add, List.foldl_append, List.foldl_cons,
      List.foldl_nil, List.foldl_map]
    refine List.foldl_ext _ _ _ fun acc k hk => ?_
    have hk' : k < c := List.mem_range.mp hk
    rw [Nat.mul_comm n c, Nat.mul_add_div (by omega), Nat.mul_add_mod, Nat.div_eq_of_lt hk', Nat.mod_eq_of_lt hk',
      Nat.add_zero]

/-! The checks pass when the command runs. -/

theorem checkRegion_sampleRegion {s : State} {base : Word} {n : Nat} (hin : InBuf s base.toNat (8 * n))
    (hal : Aligned8 base.toNat (8 * n)) : checkRegion s.memBytes (sampleRegion base n) = none := by
  rw [checkRegion_eq_none]
  simp only [sampleRegion]
  omega

theorem checkRegion_bitRegion {s : State} {base : Word} {n : Nat} (hin : InBuf s base.toNat (ceil8 n)) :
    checkRegion s.memBytes (bitRegion base n) = none := by
  rw [checkRegion_eq_none]
  simpa only [bitRegion, Nat.mod_one, and_true] using hin

theorem regionsOverlap_of_apart {r t : Region} (h : Apart r.base r.nbytes t.base t.nbytes) :
    regionsOverlap r t = false := by
  rw [regionsOverlap_eq_false]
  omega

theorem modChecks_of_runs {s : State} (h : ModRuns s) : modChecks s = .ok (modDestination s) := by
  obtain ⟨hp, hsrc, hdst, hal, hap⟩ := h
  have hc : checkRegions s.memBytes [bitRegion s.operands.srcA s.operands.lenA.toNat] (modDestination s) = none := by
    rw [checkRegions_eq_none]
    simp only [List.forall_mem_singleton]
    exact ⟨checkRegion_bitRegion hsrc, checkRegion_sampleRegion hdst hal, regionsOverlap_of_apart hap⟩
  simp [modChecks, hp, hc]

theorem embedChecks_of_runs {s : State} {off : Nat} (h : EmbedRuns s off) :
    embedChecks s = .ok (off, embedDestination s) := by
  obtain ⟨hrate, hlen, hcap, hfin, hrne, hAin, hAal, hBin, hBal, hDin, hDal, hapA, hapB⟩ := h
  have hc : checkRegions s.memBytes
      [sampleRegion s.operands.srcA s.operands.lenA.toNat, sampleRegion s.operands.srcB s.operands.lenB.toNat]
      (embedDestination s) = none := by
    rw [checkRegions_eq_none]
    simp only [List.forall_mem_cons]
    exact ⟨⟨checkRegion_sampleRegion hAin hAal, checkRegion_sampleRegion hBin hBal, by simp⟩,
      checkRegion_sampleRegion hDin hDal, regionsOverlap_of_apart hapA, regionsOverlap_of_apart hapB, by simp⟩
  have hfits : capacityHolds s.operands.loc s.operands.rateA.toNat s.operands.lenB.toNat s.operands.lenA.toNat = true :=
    hcap
  have hloc := location_eq_ok.mpr ⟨hfin, hrne⟩
  simp only [embedChecks, hfits, hloc, hc]
  rw [if_neg (not_not.mpr hrate), if_neg (Nat.not_lt.mpr hlen), if_neg (by decide)]

theorem extractChecks_of_runs {s : State} {off : Nat} (h : ExtractRuns s off) :
    extractChecks s = .ok (off, extractDestination s) := by
  obtain ⟨hrate, hlen, hfin, hrne, hfit, hAin, hAal, hBin, hBal, hDin, hDal, hapA, hapB⟩ := h
  have hc : checkRegions s.memBytes
      [sampleRegion s.operands.srcA s.operands.lenA.toNat, sampleRegion s.operands.srcB s.operands.lenB.toNat]
      (extractDestination s) = none := by
    rw [checkRegions_eq_none]
    simp only [List.forall_mem_cons]
    exact ⟨⟨checkRegion_sampleRegion hAin hAal, checkRegion_sampleRegion hBin hBal, by simp⟩,
      checkRegion_sampleRegion hDin hDal, regionsOverlap_of_apart hapA, regionsOverlap_of_apart hapB, by simp⟩
  have hloc := location_eq_ok.mpr ⟨hfin, hrne⟩
  simp only [extractChecks, hloc, hc]
  rw [if_neg (not_not.mpr hrate), if_neg (not_not.mpr hlen), if_neg (Nat.not_lt.mpr hfit)]

/-! What the loops leave. -/

/-- The bit that MOD reads for sample `j` of `n * c` lies in its bit buffer. -/
theorem bitByte_lt_ceil8 {j n c : Nat} (h : j < n * c) : j / c / 8 < ceil8 n := by
  have : j / c < n := Nat.div_lt_of_lt_mul (by rwa [Nat.mul_comm])
  unfold ceil8
  omega

/-- The sample that round `i`, `k` of MOD's loops computes from the memory it finds; `modSample` is its value on the
memory before the loops, and `loopMod` stores it on the memory as it stands. -/
def modRound (s : State) (m : Memory) (i k : Nat) : F64 :=
  if Memory.bit m (srcA s) i then entry s.tables.ref1 k else entry s.tables.ref0 k

theorem modRound_putSamples {s : State} {j : Nat} {xs : List F64} (hxs : xs.length = j) (hj : j < lenA s * ss s)
    (hap : Apart (srcA s) (ceil8 (lenA s)) (dst s) (8 * (lenA s * ss s))) :
    modRound s (Memory.putSamples s.buf (dst s) xs) (j / ss s) (j % ss s) =
      modRound s s.buf (j / ss s) (j % ss s) := by
  have hbit := bitByte_lt_ceil8 hj
  rw [modRound, Memory.bit_putSamples_outside, modRound]
  generalize j / ss s / 8 = byte at hbit ⊢
  omega

/-- MOD's nested loops leave what its one store leaves: no store meets the bit buffer. -/
theorem loopMod_eq {s : State} (hwf : Memory.wf s.buf)
    (hap : Apart (srcA s) (ceil8 (lenA s)) (dst s) (8 * (lenA s * ss s))) :
    loopMod s = Memory.putSamples s.buf (dst s) (modOutput s) := by
  have hflat := foldl_range_mul
    (fun m i k => Memory.writeLE m (dst s + 8 * (i * ss s + k)) 8 (modRound s m i k).toNat) (lenA s) (ss s) s.buf
  simp only [Nat.div_add_mod'] at hflat
  exact hflat.trans (Memory.foldl_putSample hwf (dst s) (fun m j => modRound s m (j / ss s) (j % ss s))
    (lenA s * ss s) fun j hj => modRound_putSamples (by simp) hj hap)

/-- The sample that round `i` of EMBED's loop computes from the memory it finds; `embedSample` is its value on the
memory before the loop, and `loopEmbed` stores it on the memory as it stands. -/
def embedRound (s : State) (off : Nat) (m : Memory) (i : Nat) : F64 :=
  F64.add (if off ≤ i ∧ i < off + lenB s then Memory.sample m (srcB s + 8 * (i - off)) else posZero)
    (F64.mul s.mix (Memory.sample m (srcA s + 8 * i)))

theorem embedRound_putSamples {s : State} {off i : Nat} {xs : List F64} (hxs : xs.length = i) (hi : i < lenA s)
    (hapA : Apart (srcA s) (8 * lenA s) (dst s) (8 * lenA s))
    (hapB : Apart (srcB s) (8 * lenB s) (dst s) (8 * lenA s)) :
    embedRound s off (Memory.putSamples s.buf (dst s) xs) i = embedRound s off s.buf i := by
  have hhost : Memory.sample (Memory.putSamples s.buf (dst s) xs) (srcA s + 8 * i) =
      Memory.sample s.buf (srcA s + 8 * i) := Memory.sample_putSamples_outside (by omega)
  have hpayload : off ≤ i ∧ i < off + lenB s →
      Memory.sample (Memory.putSamples s.buf (dst s) xs) (srcB s + 8 * (i - off)) =
        Memory.sample s.buf (srcB s + 8 * (i - off)) := fun hin => Memory.sample_putSamples_outside (by omega)
  rw [embedRound, hhost, ite_congr rfl hpayload fun _ => rfl, embedRound]

/-- EMBED's loop leaves what its one store leaves: no store meets the host or the payload. -/
theorem loopEmbed_eq {s : State} {off : Nat} (hwf : Memory.wf s.buf)
    (hapA : Apart (srcA s) (8 * lenA s) (dst s) (8 * lenA s))
    (hapB : Apart (srcB s) (8 * lenB s) (dst s) (8 * lenA s)) :
    loopEmbed s off = Memory.putSamples s.buf (dst s) (embedOutput s off) :=
  Memory.foldl_putSample hwf (dst s) (embedRound s off) (lenA s) fun i hi =>
    embedRound_putSamples (by simp) hi hapA hapB

/-- The sample that round `j` of EXTRACT's loop computes from the memory it finds; `extractSample` is its value on
the memory before the loop, and `loopExtract` stores it on the memory as it stands. -/
def extractRound (s : State) (off : Nat) (m : Memory) (j : Nat) : F64 :=
  F64.sub (Memory.sample m (srcA s + 8 * (off + j))) (F64.mul s.mix (Memory.sample m (srcB s + 8 * (off + j))))

theorem extractRound_putSamples {s : State} {off j : Nat} {xs : List F64} (hxs : xs.length = j) (hj : j < width s)
    (hfitA : off + width s ≤ lenA s) (hfitB : off + width s ≤ lenB s)
    (hapA : Apart (srcA s) (8 * lenA s) (dst s) (8 * width s))
    (hapB : Apart (srcB s) (8 * lenB s) (dst s) (8 * width s)) :
    extractRound s off (Memory.putSamples s.buf (dst s) xs) j = extractRound s off s.buf j := by
  rw [extractRound, Memory.sample_putSamples_outside (by omega), Memory.sample_putSamples_outside (by omega),
    extractRound]

/-- EXTRACT's loop leaves what its one store leaves: no store meets the mix or the host. -/
theorem loopExtract_eq {s : State} {off : Nat} (hwf : Memory.wf s.buf) (hfitA : off + width s ≤ lenA s)
    (hfitB : off + width s ≤ lenB s) (hapA : Apart (srcA s) (8 * lenA s) (dst s) (8 * width s))
    (hapB : Apart (srcB s) (8 * lenB s) (dst s) (8 * width s)) :
    loopExtract s off = Memory.putSamples s.buf (dst s) (extractOutput s off) :=
  Memory.foldl_putSample hwf (dst s) (extractRound s off) (width s) fun _ hj =>
    extractRound_putSamples (by simp) hj hfitA hfitB hapA hapB

theorem execMod_of_runs {s : State} (h : ModRuns s) :
    exec .mod s = .next (complete 0#8
      { s with
        buf := Memory.putSamples s.buf (dst s) (modOutput s)
        results := { s.results with outLen := BitVec.ofNat 32 (lenA s * ss s) } }) := by
  show execMod s = _
  unfold execMod
  rw [modChecks_of_runs h]
  rfl

theorem execEmbed_of_runs {s : State} {off : Nat} (h : EmbedRuns s off) :
    exec .embed s = .next (complete 0#8
      { s with
        buf := Memory.putSamples s.buf (dst s) (embedOutput s off)
        results :=
          { s.results with
            outLen := s.operands.lenA
            descWidth := s.operands.lenB
            offset := BitVec.ofNat 32 off } }) := by
  show execEmbed s = _
  unfold execEmbed
  rw [embedChecks_of_runs h]
  rfl

theorem execExtract_of_runs {s : State} {off : Nat} (h : ExtractRuns s off) :
    exec .extract s = .next (complete 0#8
      { s with
        buf := Memory.putSamples s.buf (dst s) (extractOutput s off)
        results := { s.results with outLen := s.operands.width, offset := BitVec.ofNat 32 off } }) := by
  show execExtract s = _
  unfold execExtract
  rw [extractChecks_of_runs h]
  rfl

/-- Settles O19. -/
theorem modFollowsItsPseudocode : Obligations.ModFollowsItsPseudocode := by
  intro s hwf h
  obtain ⟨-, -, -, -, hap⟩ := id h
  rw [loopMod_eq hwf hap]
  exact execMod_of_runs h

/-- Settles O28. -/
theorem embedFollowsItsPseudocode : Obligations.EmbedFollowsItsPseudocode := by
  intro s off hwf h
  obtain ⟨-, -, -, -, -, -, -, -, -, -, -, hapA, hapB⟩ := id h
  rw [loopEmbed_eq hwf hapA hapB]
  exact execEmbed_of_runs h

/-- Settles O32. -/
theorem extractFollowsItsPseudocode : Obligations.ExtractFollowsItsPseudocode := by
  intro s off hwf h
  obtain ⟨-, hlen, -, -, hfit, -, -, -, -, -, -, hapA, hapB⟩ := id h
  rw [loopExtract_eq hwf hfit (hfit.trans_eq (congrArg BitVec.toNat hlen)) hapA hapB]
  exact execExtract_of_runs h

end Sys2Proof.Machine

/-! The block's steps and registers: every step answers, MEM_BYTES is fixed, each register write reaches its
register. -/

namespace Sys2Proof.Machine

open Sys2Proof.Safety

/-! Every command answers a next state, with MEM_BYTES as it was. -/

/-- A result that is a next state with the same MEM_BYTES parameter. -/
def Proceeds (s : State) (r : Result) : Prop := ∃ t, r = .next t ∧ t.memUnits = s.memUnits

theorem finishDemod_proceeds (d : Region) (ds : List (Option Bool)) (s : State) : Proceeds s (finishDemod d ds s) := by
  simp only [finishDemod]
  split
  · exact ⟨_, raise_eq _ _, rfl⟩
  · exact ⟨_, succeed_eq _, rfl⟩

theorem exec_proceeds (i : Instr) (s : State) : Proceeds s (exec i s) := by
  cases i with
  | nop => exact ⟨_, succeed_eq s, rfl⟩
  | derive =>
    obtain ⟨-, -, h⟩ | ⟨a, b, n, -, -, -, h⟩ := execDerive_cases (s := s) rfl
    · exact ⟨_, h, rfl⟩
    · exact ⟨_, h, rfl⟩
  | mod =>
    obtain ⟨e, -, h⟩ | ⟨d, -, h⟩ := execMod_cases (s := s) rfl
    · exact ⟨_, h, rfl⟩
    · exact ⟨_, h, rfl⟩
  | demod =>
    obtain ⟨e, -, h⟩ | ⟨d, -, h⟩ := execDemod_cases (s := s) rfl
    · exact ⟨_, h, rfl⟩
    · exact (show exec .demod s = _ from h) ▸ finishDemod_proceeds d _ s
  | embed =>
    obtain ⟨e, -, h⟩ | ⟨off, d, -, h⟩ := execEmbed_cases (s := s) rfl
    · exact ⟨_, h, rfl⟩
    · exact ⟨_, h, rfl⟩
  | extract =>
    obtain ⟨e, -, h⟩ | ⟨off, d, -, h⟩ := execExtract_cases (s := s) rfl
    · exact ⟨_, h, rfl⟩
    · exact ⟨_, h, rfl⟩

theorem engineTurn_proceeds (s : State) : Proceeds s (engineTurn s) := by
  cases hp : s.phase with
  | idle => exact ⟨s, engineTurn_idle hp, rfl⟩
  | busy =>
    rw [engineTurn_busy hp]
    cases hd : decodeWord s.pending with
    | ok i => exact runPending_ok hd ▸ exec_proceeds i s
    | error e => exact ⟨_, runPending_error hd, rfl⟩

/-! What the Host's accesses and the resets leave of the parameter. -/

@[simp] theorem writeReg64_memUnits (r : Reg64) (h : Half) (v : Word) (s : State) :
    (writeReg64 r h v s).memUnits = s.memUnits := by cases r <;> rfl

@[simp] theorem writeCtrl_memUnits (v : Word) (s : State) : (writeCtrl v s).memUnits = s.memUnits := by
  unfold writeCtrl
  split <;> rfl

@[simp] theorem writeReg_memUnits (r : Reg) (v : Word) (s : State) : (writeReg r v s).memUnits = s.memUnits := by
  cases r with
  | ctrl => exact writeCtrl_memUnits v s
  | half q h => exact writeReg64_memUnits q h v s
  | _ => rfl

@[simp] theorem writeOffset_memUnits (off : BitVec 12) (v : Word) (s : State) :
    (writeOffset off v s).memUnits = s.memUnits := by
  unfold writeOffset
  split
  · rfl
  · cases regAt off with
    | none => rfl
    | some r => exact writeReg_memUnits r v s

@[simp] theorem hostRegWrite_memUnits (width : Nat) (off : BitVec 12) (v : Word) (s : State) :
    (hostRegWrite width off v s).memUnits = s.memUnits := by
  unfold hostRegWrite
  split <;> simp

@[simp] theorem hostRegRead_memUnits (width : Nat) (off : BitVec 12) (s : State) :
    (hostRegRead width off s).memUnits = s.memUnits := by
  unfold hostRegRead
  split <;> simp

@[simp] theorem hostBufWrite_memUnits (width addr : Nat) (v : BitVec 64) (s : State) :
    (hostBufWrite width addr v s).memUnits = s.memUnits := by
  unfold hostBufWrite
  split <;> simp

@[simp] theorem hostBufRead_memUnits (width addr : Nat) (s : State) :
    (hostBufRead width addr s).memUnits = s.memUnits := by
  unfold hostBufRead
  split <;> simp

@[simp] theorem platformReset_memUnits (s : State) : (platformReset s).memUnits = s.memUnits := by
  unfold platformReset
  split <;> rfl

@[simp] theorem powerOnReset_memUnits (s : State) : (powerOnReset s).memUnits = s.memUnits := rfl

/-- Every step answers a next state and leaves the parameter MEM_BYTES as it is. -/
theorem step_proceeds (s : State) : Proceeds s (step s) := by
  obtain ⟨turns, h, -⟩ | ⟨rest, width, off, v, -, h⟩ | ⟨rest, width, off, -, h⟩ | ⟨rest, n, turns, -, h, -⟩ |
    ⟨rest, width, addr, v, -, -, h⟩ | ⟨rest, width, addr, -, -, h⟩ | ⟨rest, -, h⟩ | ⟨rest, -, h⟩ :=
    step_cases (s := s) rfl
  · obtain ⟨t, ht, hm⟩ := engineTurn_proceeds { s with turns := turns }
    exact ⟨t, h.symm.trans ht, hm⟩
  · exact ⟨_, h, hostRegWrite_memUnits _ _ _ _⟩
  · exact ⟨_, h, hostRegRead_memUnits _ _ _⟩
  · exact ⟨_, h, hostRegRead_memUnits _ _ _⟩
  · exact ⟨_, h, hostBufWrite_memUnits _ _ _ _⟩
  · exact ⟨_, h, hostBufRead_memUnits _ _ _⟩
  · exact ⟨_, h, platformReset_memUnits _⟩
  · exact ⟨_, h, powerOnReset_memUnits _⟩

/-- Settles O7. -/
theorem everyStepAnswersANextState : Obligations.EveryStepAnswersANextState := fun s =>
  let ⟨t, h, _⟩ := step_proceeds s
  ⟨t, h⟩

theorem memBytes_bounds (s : State) : s.memBytes % 8 = 0 ∧ 4096 ≤ s.memBytes ∧ s.memBytes ≤ 2 ^ 31 := by
  have := s.memUnits.isLt
  unfold State.memBytes
  unfold Config.memUnitCount at this
  omega

/-- A read at a register's offset reads that register. -/
theorem readOffset_regOffset (r : Reg) (s : State) : readOffset (regOffset r) s = readReg r s := by
  unfold readOffset
  rw [regAt_regOffset]

/-- Settles O46. -/
theorem memBytesIsFixed : Obligations.MemBytesIsFixed := by
  refine ⟨fun s t h => ?_, fun s => ?_⟩
  · obtain ⟨u, hu, hm⟩ := step_proceeds s
    rw [h, Host.Outcome.next.injEq] at hu
    rw [State.memBytes, hu, hm, State.memBytes]
  · obtain ⟨-, -, hle⟩ := memBytes_bounds s
    have hread : readOffset 0x028 s = BitVec.ofNat 32 s.memBytes := readOffset_regOffset .memsize s
    rw [hread, BitVec.toNat_ofNat]
    omega

/-! Power-on. -/

theorem zeroTables_full : zeroTables.taxis.length = ssMax ∧ zeroTables.ref1.length = ssMax ∧
    zeroTables.ref0.length = ssMax ∧ zeroTables.cref1.length = ssMax ∧ zeroTables.cref0.length = ssMax :=
  ⟨List.length_replicate, List.length_replicate, List.length_replicate, List.length_replicate, List.length_replicate⟩

theorem inv_afterPowerOn {n : Fin Config.memUnitCount} {init : Memory} (hwf : Memory.wf init)
    (hin : ∀ c ∈ init, c.1 < (State.afterPowerOn n init).memBytes) : Inv (State.afterPowerOn n init) where
  bufCanonical := hwf
  bufInRange := hin
  tablesFull := zeroTables_full
  errFlag := rfl
  errListed := List.mem_cons_self
  lastopHeld := fun h => by cases h
  paramsLegal := fun h => by cases h
  paramsAbsent := fun _ => rfl

/-- A state without a valid parameter set is consistent. -/
theorem paramsConsistent_of_pvalid_false {s : State} (h : s.pvalid = false) : ParamsConsistent s := by
  have absurd' : ∀ {P : Prop}, s.pvalid = true → P := fun hp => by rw [h] at hp; cases hp
  exact ⟨absurd', absurd', absurd', absurd', absurd', absurd', absurd', absurd', absurd', absurd', absurd', absurd'⟩

/-- Settles O44. -/
theorem powerOnMeetsTheInvariant : Obligations.PowerOnMeetsTheInvariant := fun _ _ hwf hin =>
  ⟨inv_afterPowerOn hwf hin, paramsConsistent_of_pvalid_false rfl, memBytes_bounds _⟩

/-! The plain read-write registers. -/

theorem halfOf_withHalf_same (h : Half) (v : Word) (x : F64) : halfOf h (withHalf h v x) = v := by
  cases h with
  | lo => exact BitVec.extractLsb'_append_eq_right
  | hi => exact BitVec.extractLsb'_append_eq_left

theorem halfOf_withHalf_other {h k : Half} (hne : k ≠ h) (v : Word) (x : F64) :
    halfOf k (withHalf h v x) = halfOf k x := by
  cases h with
  | lo =>
    cases k with
    | lo => exact absurd rfl hne
    | hi => exact BitVec.extractLsb'_append_eq_left
  | hi =>
    cases k with
    | lo => exact BitVec.extractLsb'_append_eq_right
    | hi => exact absurd rfl hne

/-- A register reads what the state shows, whatever turns are to come and whatever was answered. -/
theorem readReg_answer (q : Reg) (r : Reply) (s : State) : readReg q (answer r s) = readReg q s := by
  cases q with
  | half p h => cases p <;> rfl
  | _ => rfl

theorem readReg_turns (q : Reg) (ts : List Turn) (s : State) : readReg q { s with turns := ts } = readReg q s := by
  cases q with
  | half p h => cases p <;> rfl
  | _ => rfl

/-- `t` is `s` with `v` in register `r`: no other register, neither BUF nor a table, PHASE, PENDING nor the model's
lists differ. -/
structure WritesOnly (r : Reg) (v : Word) (s t : State) : Prop where
  same : readReg r t = v
  other : ∀ q, q ≠ r → readReg q t = readReg q s
  buf : t.buf = s.buf
  tables : t.tables = s.tables
  phase : t.phase = s.phase
  pending : t.pending = s.pending
  turns : t.turns = s.turns
  replies : t.replies = s.replies

/-- The 32-bit registers of R20 that a write replaces whole. -/
def plain32 : List Reg := [.redIn, .srcA, .lenA, .rateA, .srcB, .lenB, .rateB, .dst, .width]

/-- The 64-bit registers of R20 that a write replaces by halves. -/
def plain64 : List Reg64 := [.ampIn, .bpIn, .mix, .loc]

/-- Each plain 32-bit register is a field of its own. -/
theorem writeReg_plain32 {r : Reg} (hr : r ∈ plain32) (v : Word) (s : State) : WritesOnly r v s (writeReg r v s) := by
  simp only [plain32, List.mem_cons, List.not_mem_nil, or_false] at hr
  rcases hr with rfl | rfl | rfl | rfl | rfl | rfl | rfl | rfl | rfl
  all_goals
    refine ⟨rfl, fun q hq => ?_, rfl, rfl, rfl, rfl, rfl, rfl⟩
    cases q with
    | half p h => cases p <;> rfl
    | _ => first | rfl | exact absurd rfl hq

/-- Each plain 64-bit register is a field of its own. -/
theorem readReg64_writeReg64 {p : Reg64} (hp : p ∈ plain64) (h : Half) (v : Word) (s : State) :
    readReg64 p (writeReg64 p h v s) = withHalf h v (readReg64 p s) ∧
      ∀ q, q ≠ p → readReg64 q (writeReg64 p h v s) = readReg64 q s := by
  simp only [plain64, List.mem_cons, List.not_mem_nil, or_false] at hp
  rcases hp with rfl | rfl | rfl | rfl
  all_goals
    refine ⟨rfl, fun q hq => ?_⟩
    cases q <;> first | rfl | exact absurd rfl hq

theorem writeReg_plain64 {p : Reg64} (hp : p ∈ plain64) (h : Half) (v : Word) (s : State) :
    WritesOnly (.half p h) v s (writeReg (.half p h) v s) := by
  obtain ⟨hsame, hother⟩ := readReg64_writeReg64 hp h v s
  have hhalf : ∀ q k, Reg.half q k ≠ .half p h →
      readReg (.half q k) (writeReg64 p h v s) = readReg (.half q k) s := by
    intro q k hne
    rw [readReg, readReg]
    by_cases hq : q = p
    · rw [hq, hsame, halfOf_withHalf_other (fun hk => hne (by rw [hq, hk]))]
    · rw [hother q hq]
  have hread : readReg (.half p h) (writeReg64 p h v s) = v := by
    rw [readReg, hsame, halfOf_withHalf_same]
  simp only [plain64, List.mem_cons, List.not_mem_nil, or_false] at hp
  rcases hp with rfl | rfl | rfl | rfl
  all_goals
    refine ⟨hread, fun q hq => ?_, rfl, rfl, rfl, rfl, rfl, rfl⟩
    cases q with
    | half q k => exact hhalf q k hq
    | _ => rfl

/-- The step of a Host write to a plain register while IDLE. -/
theorem step_plainWrite {s : State} (hp : s.phase = .idle) {r : Reg} {v : Word} {rest : List Turn}
    (ht : s.turns = .regWrite 4 (regOffset r) v :: rest)
    (hw : ∀ u, WritesOnly r v u (writeReg r v u)) :
    ∃ t, step s = .next t ∧ readReg r t = v ∧ (∀ q, q ≠ r → readReg q t = readReg q s) ∧
      t.buf = s.buf ∧ t.tables = s.tables ∧ t.phase = .idle ∧ t.pending = s.pending ∧
      t.turns = rest ∧ t.replies = .written :: s.replies := by
  obtain ⟨hsame, hother, hbuf, htables, hphase, hpending, hturns, hreplies⟩ := hw { s with turns := rest }
  refine ⟨_, step_regWrite_idle hp ht, ?_, fun q hq => ?_, hbuf, htables, hphase.trans hp, hpending, hturns, ?_⟩
  · rw [readReg_answer, hsame]
  · rw [readReg_answer, hother q hq, readReg_turns]
  · rw [answer_replies, hreplies]

theorem setWidth_eq_zero_append {n k : Nat} (x : BitVec n) : x.setWidth (k + n) = 0#k ++ x := by
  rw [BitVec.setWidth_eq_append (Nat.le_add_left n k)]
  apply BitVec.eq_of_toNat_eq
  simp

/-- Settles O49: `readOffset_regOffset` at each offset, and `WritesOnly` for each plain register. -/
theorem registerWritesReachTheirRegisterOnly : Obligations.RegisterWritesReachTheirRegisterOnly := by
  refine ⟨fun s => ?_, fun s r v rest hp hr ht => ?_, fun s r => readOffset_regOffset r s⟩
  · have read := fun r => readOffset_regOffset r s
    exact ⟨read .id, read .version, read .ctrl, (read .errcode).trans (setWidth_eq_zero_append s.errcode),
      (read .warn).trans (setWidth_eq_zero_append s.warn),
      (read .intStatus).trans (setWidth_eq_zero_append s.intStatus),
      (read .intEnable).trans (setWidth_eq_zero_append s.intEnable), read .cmd, read .cmdcnt, read .memsize,
      read .redIn, read .red, read .ss, read .tblSel,
      read (.half .ampIn .lo), read (.half .ampIn .hi), read (.half .bpIn .lo), read (.half .bpIn .hi),
      read (.half .amp .lo), read (.half .amp .hi), read (.half .bp .lo), read (.half .bp .hi),
      read (.half .br .lo), read (.half .br .hi), read (.half .fOne .lo), read (.half .fOne .hi),
      read (.half .fZero .lo), read (.half .fZero .hi), read (.half .rp .lo), read (.half .rp .hi),
      read (.half .wOne .lo), read (.half .wOne .hi), read (.half .wZero .lo), read (.half .wZero .hi),
      read (.half .mix .lo), read (.half .mix .hi), read (.half .loc .lo), read (.half .loc .hi),
      read .srcA, read .lenA, read .rateA, read .srcB, read .lenB, read .rateB, read .dst, read .width,
      read .outLen, read .descWidth, read .offset, read .nwin, read .ambCount, read .firstAmb⟩
  · rcases hr with hr | ⟨h, hr⟩
    · exact step_plainWrite hp ht fun u => writeReg_plain32 hr v u
    · obtain ⟨p, hp64, rfl⟩ : ∃ p ∈ plain64, r = .half p h := by simpa [plain64] using hr
      exact step_plainWrite hp ht fun u => writeReg_plain64 hp64 h v u

end Sys2Proof.Machine

/-! How a command can end: its error codes, the bytes it stores, the parameter set it leaves. -/

namespace Sys2Proof.Machine

open Sys2Proof.Safety

/-! Every error that a check raises is a code that ERRCODE may hold (R101). -/

theorem errorByte_mem_errorCodes {e : ErrorCode} (h : e ≠ .missingInput) : errorByte e ∈ errorCodes := by
  cases e <;> first | exact absurd rfl h | decide

theorem checkRegion_error {n : Nat} {r : Region} {e : ErrorCode} (h : checkRegion n r = some e) :
    e ≠ .missingInput := by
  obtain ⟨-, ⟨rfl, -⟩ | ⟨rfl, -⟩⟩ := checkRegion_eq_some h <;> nofun

theorem checkEach_error {n : Nat} {rs : List Region} {e : ErrorCode} (h : checkEach n rs = some e) :
    e ≠ .missingInput := by
  induction rs with
  | nil => cases h
  | cons r rs ih =>
    unfold checkEach at h
    split at h
    · next f hf => cases h; exact checkRegion_error hf
    · exact ih h

theorem checkRegions_error {n : Nat} {srcs : List Region} {d : Region} {e : ErrorCode}
    (h : checkRegions n srcs d = some e) : e ≠ .missingInput := by
  unfold checkRegions at h
  split at h
  · next f hf => cases h; exact checkEach_error hf
  · split at h <;> cases h; nofun

theorem location_error {loc : F64} {rate : Nat} {e : ErrorCode} (h : location loc rate = .error e) :
    e ≠ .missingInput := by
  simp only [location] at h
  split_ifs at h <;> cases h <;> nofun

theorem modChecks_error {s : State} {e : ErrorCode} (h : modChecks s = .error e) : e ≠ .missingInput := by
  unfold modChecks at h
  split at h
  · cases h; nofun
  · split at h <;> cases h
    next hc => exact checkRegions_error hc

theorem demodChecks_error {s : State} {e : ErrorCode} (h : demodChecks s = .error e) : e ≠ .missingInput := by
  unfold demodChecks at h
  split at h
  · cases h; nofun
  · split at h <;> cases h
    next hc => exact checkRegions_error hc

theorem embedChecks_error {s : State} {e : ErrorCode} (h : embedChecks s = .error e) : e ≠ .missingInput := by
  simp only [embedChecks] at h
  split_ifs at h
  iterate 3 · cases h; nofun
  split at h
  · next hl => cases h; exact location_error hl
  · split at h <;> cases h
    next hc => exact checkRegions_error hc

theorem extractChecks_error {s : State} {e : ErrorCode} (h : extractChecks s = .error e) : e ≠ .missingInput := by
  simp only [extractChecks] at h
  split_ifs at h
  iterate 2 · cases h; nofun
  split at h
  · next hl => cases h; exact location_error hl
  · split_ifs at h
    · cases h; nofun
    · split at h <;> cases h
      next hc => exact checkRegions_error hc

/-! Where the checks pass, the destination lies in BUF (R56). -/

theorem inBuf_mono {s : State} {a k n : Nat} (h : InBuf s a n) (hk : k ≤ n) : InBuf s a k := by omega

theorem checkRegions_inBuf {s : State} {srcs : List Region} {d : Region}
    (h : checkRegions s.memBytes srcs d = none) : InBuf s d.base d.nbytes :=
  (checkRegion_eq_none.mp (checkRegions_eq_none.mp h).2.1).imp_right And.left

theorem modChecks_inBuf {s : State} {d : Region} (h : modChecks s = .ok d) :
    InBuf s d.base (8 * (lenA s * ss s)) := by
  obtain ⟨-, rfl, hc⟩ := modChecks_ok h
  exact checkRegions_inBuf hc

theorem demodChecks_inBuf {s : State} {d : Region} (h : demodChecks s = .ok d) :
    InBuf s d.base (ceil8 (demodWindows s)) := by
  obtain ⟨-, rfl, hc⟩ := demodChecks_ok h
  exact checkRegions_inBuf hc

theorem embedChecks_inBuf {s : State} {off : Nat} {d : Region} (h : embedChecks s = .ok (off, d)) :
    InBuf s d.base (8 * lenA s) := by
  obtain ⟨-, -, -, -, rfl, hc⟩ := embedChecks_ok h
  exact checkRegions_inBuf hc

theorem extractChecks_inBuf {s : State} {off : Nat} {d : Region} (h : extractChecks s = .ok (off, d)) :
    InBuf s d.base (8 * width s) := by
  obtain ⟨-, -, -, -, rfl, hc⟩ := extractChecks_ok h
  exact checkRegions_inBuf hc

/-! What the commands store. -/

theorem sampleBytes_map_range_length (f : Nat → F64) (n : Nat) :
    (sampleBytes ((List.range n).map f)).length = 8 * n := by simp

/-- No window puts more than one bit into the output (R92). -/
theorem windowBits_length_le (amb : BitVec 2) (d : Option Bool) : (windowBits amb d).length ≤ 1 := by
  cases d with
  | some b => exact Nat.le_refl 1
  | none => simp only [windowBits]; split_ifs <;> simp

theorem demodBits_length_le (amb : BitVec 2) (ds : List (Option Bool)) : (demodBits amb ds).length ≤ ds.length := by
  induction ds with
  | nil => exact Nat.le_refl 0
  | cons d ds ih =>
    have hd := windowBits_length_le amb d
    simp only [demodBits, List.flatMap_cons, List.length_append, List.length_cons] at ih ⊢
    omega

theorem packBits_demodBits_length_le (s : State) :
    (packBits (demodBits s.ambpol (demodDecisions s))).length ≤ ceil8 (demodWindows s) := by
  have hbits := demodBits_length_le s.ambpol (demodDecisions s)
  simp only [demodDecisions, List.length_map, List.length_range] at hbits
  simp only [packBits, List.length_map, List.length_range, ceil8]
  exact Nat.div_le_div_right (Nat.add_le_add_right hbits 7)

/-! What DERIVE works with: the inputs or the defaults of R15, all in their ranges. -/

theorem ampInRange_input (a : F64) : ampInRange (if ampInRange a then a else defAmp) = true := by
  split
  · assumption
  · decide +kernel

theorem bpInRange_input (b : F64) : bpInRange (if bpInRange b then b else defBp) = true := by
  split
  · assumption
  · decide +kernel

theorem redInRange_iff (r : Word) : redInRange r = true ↔ 2 ≤ r.toNat ∧ r.toNat ≤ 100 := by
  have := r.isLt
  simp only [redInRange, Bool.and_eq_true, decide_eq_true_eq, BitVec.toInt]
  split <;> omega

theorem red_input_bounds (r : Word) :
    2 ≤ (if redInRange r then r.toNat else defRed) ∧ (if redInRange r then r.toNat else defRed) ≤ 100 := by
  split
  · next h => exact (redInRange_iff r).mp h
  · decide

/-! The ends of a command. -/

/-- How command `i` can leave the state `s`. -/
inductive CommandEnd (s : State) : Instr → State → Prop where
  /-- nothing but the completion is written: NOP, and every error but ALIGNMENT_LOSS (R100, R102) -/
  | plain (i : Instr) {c : BitVec 8} (hc : c ∈ errorCodes) : CommandEnd s i (complete c s)
  /-- ALIGNMENT_LOSS keeps FIRST_AMB and WARN.AMBIG (R102) -/
  | alignmentLoss (w : BitVec 5) (r : Results) :
      CommandEnd s .demod (complete (errorByte .alignmentLoss) { s with warn := w, results := r })
  /-- DERIVE writes a parameter set from inputs in range, and its warnings (R75) -/
  | derived {a b : F64} {n : Nat} (w : BitVec 5) (ha : ampInRange a = true) (hb : bpInRange b = true)
      (hlo : 2 ≤ n) (hhi : n ≤ 100) :
      CommandEnd s .derive (complete 0#8
        { s with
          warn := w
          params := deriveParams a b n
          tables := deriveTables (deriveParams a b n) (2 * n) s.tables
          pvalid := true })
  /-- the other commands store bytes inside BUF and write results and warnings (R83, R87, R95, R97) -/
  | stored {i : Instr} (hi : i ≠ .derive) {a : Nat} {bs : List Byte} (hin : InBuf s a bs.length)
      (w : BitVec 5) (r : Results) :
      CommandEnd s i (complete 0#8 { s with warn := w, buf := Memory.write s.buf a bs, results := r })

theorem CommandEnd.failed {s : State} (i : Instr) {e : ErrorCode} (he : e ≠ .missingInput) :
    CommandEnd s i (complete (errorByte e) s) :=
  .plain i (errorByte_mem_errorCodes he)

theorem finishDemod_commandEnd {s t : State} {d : Region} (hin : InBuf s d.base (ceil8 (demodWindows s)))
    (h : finishDemod d (demodDecisions s) s = .next t) : CommandEnd s .demod t := by
  simp only [finishDemod] at h
  split at h
  · cases h
    exact .alignmentLoss _ _
  · cases h
    exact .stored (by decide) (inBuf_mono hin (packBits_demodBits_length_le s)) _ _

/-- Every command ends in one of these ways. -/
theorem exec_commandEnd {i : Instr} {s t : State} (h : exec i s = .next t) : CommandEnd s i t := by
  cases i with
  | nop =>
    cases h
    exact .plain _ (by decide)
  | derive =>
    obtain ⟨-, -, ht⟩ | ⟨a, b, n, rfl, rfl, rfl, ht⟩ := execDerive_cases h
    · cases ht
      exact .plain _ (by decide)
    · cases ht
      exact .derived _ (ampInRange_input _) (bpInRange_input _) (red_input_bounds _).1 (red_input_bounds _).2
  | mod =>
    obtain ⟨e, he, ht⟩ | ⟨d, hd, ht⟩ := execMod_cases h
    · cases ht
      exact .failed _ (modChecks_error he)
    · cases ht
      exact .stored (by decide) (sampleBytes_map_range_length _ _ ▸ modChecks_inBuf hd) _ _
  | demod =>
    obtain ⟨e, he, ht⟩ | ⟨d, hd, ht⟩ := execDemod_cases h
    · cases ht
      exact .failed _ (demodChecks_error he)
    · exact finishDemod_commandEnd (demodChecks_inBuf hd) ht.symm
  | embed =>
    obtain ⟨e, he, ht⟩ | ⟨off, d, hd, ht⟩ := execEmbed_cases h
    · cases ht
      exact .failed _ (embedChecks_error he)
    · cases ht
      exact .stored (by decide) (sampleBytes_map_range_length _ _ ▸ embedChecks_inBuf hd) _ _
  | extract =>
    obtain ⟨e, he, ht⟩ | ⟨off, d, hd, ht⟩ := execExtract_cases h
    · cases ht
      exact .failed _ (extractChecks_error he)
    · cases ht
      exact .stored (by decide) (sampleBytes_map_range_length _ _ ▸ extractChecks_inBuf hd) _ _

/-- Settles O10: no end of a command touches these fields. -/
theorem commandsLeaveTheirInputsAlone : Obligations.CommandsLeaveTheirInputsAlone := by
  intro i s t h
  cases exec_commandEnd h <;>
    exact ⟨rfl, rfl, rfl, rfl, rfl, rfl, rfl, rfl, rfl, rfl, rfl, rfl, rfl, rfl, rfl, rfl⟩

/-- Settles O12: only the end `derived` touches the parameter set, and it is none of the ends that store bytes. -/
theorem onlyDeriveWritesTheParameterSet : Obligations.OnlyDeriveWritesTheParameterSet := by
  refine ⟨fun i s t hi h => ?_, fun s t h => ?_⟩
  · cases exec_commandEnd h with
    | derived => exact absurd rfl hi
    | plain | alignmentLoss | stored => exact ⟨rfl, rfl, rfl⟩
  · cases exec_commandEnd h with
    | stored hi => exact absurd rfl hi
    | plain | derived => exact ⟨fun _ => rfl, rfl⟩

/-! The invariant, update by update. `Inv` speaks of BUF, the tables, the parameter set, ERRCODE and the held command:
an update of other fields keeps each clause as it is. -/

theorem inv_turns {s : State} (h : Inv s) (ts : List Turn) : Inv { s with turns := ts } := { h with }

theorem inv_answer {s : State} (h : Inv s) (r : Reply) : Inv (answer r s) := { h with }

theorem inv_warn {s : State} (h : Inv s) (w : BitVec 5) : Inv { s with warn := w } := { h with }

theorem inv_results {s : State} (h : Inv s) (r : Results) : Inv { s with results := r } := { h with }

theorem inv_accept {s : State} (h : Inv s) (v : Word) : Inv (accept v s) := { h with lastopHeld := fun _ => rfl }

/-- A completion sets the error flag with its code, and holds no command. -/
theorem inv_complete {s : State} (h : Inv s) {c : BitVec 8} (hc : c ∈ errorCodes) : Inv (complete c s) :=
  { h with errFlag := rfl, errListed := hc, lastopHeld := nofun }

theorem Memory.write_inRange {m : Memory} {n a : Nat} {bs : List Byte} (hm : ∀ c ∈ m, c.1 < n)
    (hin : bs.length = 0 ∨ a + bs.length ≤ n) : ∀ c ∈ Memory.write m a bs, c.1 < n := by
  intro c hc
  rcases Memory.mem_write hc with hc | hc
  · exact hm c hc
  · omega

/-- A store inside BUF keeps BUF canonical and within MEM_BYTES (R49). -/
theorem inv_write {s : State} (h : Inv s) {a : Nat} {bs : List Byte} (hin : InBuf s a bs.length) :
    Inv { s with buf := Memory.write s.buf a bs } :=
  { h with
    bufCanonical := Memory.write_wf h.bufCanonical a bs
    bufInRange := Memory.write_inRange h.bufInRange hin }

/-- All five tables have SS_MAX entries (R39). -/
def TablesFull (t : Tables) : Prop :=
  t.taxis.length = ssMax ∧ t.ref1.length = ssMax ∧ t.ref0.length = ssMax ∧ t.cref1.length = ssMax ∧
    t.cref0.length = ssMax

theorem fillTable_length_ssMax {n : Nat} (hn : n ≤ ssMax) (f : Nat → F64) {old : List F64}
    (h : old.length = ssMax) : (fillTable n f old).length = ssMax :=
  (fillTable_length (hn.trans_eq h.symm)).trans h

theorem deriveTables_full {n : Nat} (hn : n ≤ ssMax) (p : Params) {old : Tables} (h : TablesFull old) :
    TablesFull (deriveTables p n old) := by
  obtain ⟨htaxis, href1, href0, hcref1, hcref0⟩ := h
  exact ⟨fillTable_length_ssMax hn _ htaxis, fillTable_length_ssMax hn _ href1, fillTable_length_ssMax hn _ href0,
    fillTable_length_ssMax hn _ hcref1, fillTable_length_ssMax hn _ hcref0⟩

theorem unspecifiedTable_length (n t : Nat) : (unspecifiedTable n t).length = ssMax := by simp [unspecifiedTable]

theorem unspecifiedTables_full (n : Nat) : TablesFull (unspecifiedTables n) :=
  ⟨unspecifiedTable_length n 0, unspecifiedTable_length n 1, unspecifiedTable_length n 2, unspecifiedTable_length n 3,
    unspecifiedTable_length n 4⟩

/-- A parameter set derived from inputs in range is in range, with SS = 2 RED (R76, R78), and fits the tables. -/
theorem inv_derived {s : State} (h : Inv s) {a b : F64} {n : Nat} (ha : ampInRange a = true)
    (hb : bpInRange b = true) (hlo : 2 ≤ n) (hhi : n ≤ 100) :
    Inv { s with
      params := deriveParams a b n
      tables := deriveTables (deriveParams a b n) (2 * n) s.tables
      pvalid := true } := by
  have hred : (deriveParams a b n).red.toNat = n := Nat.mod_eq_of_lt (by omega)
  have hss : (deriveParams a b n).ss.toNat = 2 * n := Nat.mod_eq_of_lt (by omega)
  have hrange : redInRange (deriveParams a b n).red = true := (redInRange_iff _).mpr (by omega)
  exact
    { h with
      tablesFull := deriveTables_full (show 2 * n ≤ 200 by omega) _ h.tablesFull
      paramsLegal := fun _ => ⟨ha, hb, hrange, hss.trans (by rw [hred])⟩
      paramsAbsent := nofun }

/-! The invariant after the Engine's step. -/

theorem inv_commandEnd {i : Instr} {s t : State} (h : Inv s) (he : CommandEnd s i t) : Inv t := by
  cases he with
  | plain _ hc => exact inv_complete h hc
  | alignmentLoss w r => exact inv_complete (inv_results (inv_warn h w) r) (by decide)
  | derived w ha hb hlo hhi => exact inv_complete (inv_derived (inv_warn h w) ha hb hlo hhi) (by decide)
  | stored _ hin w r => exact inv_complete (inv_results (inv_warn (inv_write h hin) w) r) (by decide)

theorem inv_engineTurn {s t : State} (h : Inv s) (ht : engineTurn s = .next t) : Inv t := by
  cases hp : s.phase with
  | idle =>
    rw [engineTurn_idle hp] at ht
    cases ht
    exact h
  | busy =>
    rw [engineTurn_busy hp] at ht
    cases hd : decodeWord s.pending with
    | ok i => exact inv_commandEnd h (exec_commandEnd ((runPending_ok hd).symm.trans ht))
    | error e =>
      rw [runPending_error hd] at ht
      cases ht
      exact inv_complete h (by decide)

/-! The invariant after a reset. -/

/-- The registers' reset values meet every clause about them (R118). -/
theorem inv_resetRegisters {s : State} (h : Inv s) : Inv (resetRegisters s) :=
  { h with
    errFlag := rfl
    errListed := List.mem_cons_self
    lastopHeld := nofun
    paramsLegal := nofun
    paramsAbsent := fun _ => rfl }

theorem inv_resetCore {s : State} (h : Inv s) : Inv (resetCore s) :=
  { inv_resetRegisters h with tablesFull := unspecifiedTables_full s.resets, lastopHeld := nofun }

theorem passedRegion_eq_some {r : Except ErrorCode Region} {d : Region} (h : passedRegion r = some d) : r = .ok d := by
  cases r <;> cases h; rfl

theorem passedPlan_eq_some {r : Except ErrorCode (Nat × Region)} {d : Region} (h : passedPlan r = some d) :
    ∃ off, r = .ok (off, d) := by
  cases r <;> cases h; exact ⟨_, rfl⟩

/-- The destination that a reset abandons lies in BUF: its checks would have passed (R120). -/
theorem heldDestination_inBuf {s : State} {d : Region} (h : heldDestination s = some d) :
    InBuf s d.base d.nbytes := by
  unfold heldDestination at h
  split at h
  iterate 3 cases h
  · obtain ⟨-, rfl, hc⟩ := modChecks_ok (passedRegion_eq_some h)
    exact checkRegions_inBuf hc
  · obtain ⟨-, rfl, hc⟩ := demodChecks_ok (passedRegion_eq_some h)
    exact checkRegions_inBuf hc
  · obtain ⟨off, hok⟩ := passedPlan_eq_some h
    obtain ⟨-, -, -, -, rfl, hc⟩ := embedChecks_ok hok
    exact checkRegions_inBuf hc
  · obtain ⟨off, hok⟩ := passedPlan_eq_some h
    obtain ⟨-, -, -, -, rfl, hc⟩ := extractChecks_ok hok
    exact checkRegions_inBuf hc

theorem abandonedRegion_inBuf {s : State} {r : Region} (h : abandonedRegion s = some r) :
    InBuf s r.base r.nbytes := by
  unfold abandonedRegion at h
  split at h
  · cases h
  · exact heldDestination_inBuf h

theorem inv_platformReset {s : State} (h : Inv s) : Inv (platformReset s) := by
  unfold platformReset
  split
  · exact inv_resetCore h
  · next r hr =>
    have hin : InBuf s r.base r.nbytes := abandonedRegion_inBuf hr
    refine inv_write (inv_resetCore h) ?_
    rw [List.length_map, List.length_range]
    exact hin

theorem inv_powerOnReset {s : State} (h : Inv s) : Inv (powerOnReset s) :=
  inv_write (inv_resetCore h) (.inr (by rw [List.length_map, List.length_range, Nat.zero_add]; rfl))

/-! The invariant after a Host access. -/

theorem inv_writeReg {s : State} (h : Inv s) (r : Reg) (v : Word) : Inv (writeReg r v s) := by
  cases r with
  | ctrl =>
    simp only [writeReg, writeCtrl]
    split
    · exact inv_resetRegisters h
    · exact { h with }
  | cmd => exact inv_accept h v
  | half q k => cases q <;> exact { h with }
  | _ => exact { h with }

theorem inv_hostRegWrite {s : State} (h : Inv s) (width : Nat) (off : BitVec 12) (v : Word) :
    Inv (hostRegWrite width off v s) := by
  unfold hostRegWrite
  split
  · refine inv_answer ?_ _
    unfold writeOffset
    split
    · exact inv_warn h _
    · cases regAt off with
      | some r => exact inv_writeReg h r v
      | none => exact h
  · exact inv_answer h _

theorem inv_hostRegRead {s : State} (h : Inv s) (width : Nat) (off : BitVec 12) :
    Inv (hostRegRead width off s) := by
  unfold hostRegRead
  split <;> exact inv_answer h _

theorem bufAccessOk_inRange {n width addr : Nat} (h : bufAccessOk n width addr = true) : addr + width ≤ n := by
  simp only [bufAccessOk, Bool.and_eq_true, decide_eq_true_eq] at h
  exact h.2

theorem inv_hostBufWrite {s : State} (h : Inv s) (width addr : Nat) (v : BitVec 64) :
    Inv (hostBufWrite width addr v s) := by
  unfold hostBufWrite
  split
  · next hok =>
    refine inv_answer (inv_write h (.inr ?_)) _
    rw [bytesLE_length]
    exact bufAccessOk_inRange hok
  · exact inv_answer h _

theorem inv_hostBufRead {s : State} (h : Inv s) (width addr : Nat) : Inv (hostBufRead width addr s) := by
  unfold hostBufRead
  split <;> exact inv_answer h _

/-- Settles O43: each case of `step_cases` is an update that keeps the invariant. -/
theorem everyStepKeepsTheInvariant : Obligations.EveryStepKeepsTheInvariant := by
  intro s t h hstep
  obtain ⟨turns, ht, -⟩ | ⟨rest, width, off, v, -, ht⟩ | ⟨rest, width, off, -, ht⟩ | ⟨rest, n, turns, -, ht, -⟩ |
    ⟨rest, width, addr, v, -, -, ht⟩ | ⟨rest, width, addr, -, -, ht⟩ | ⟨rest, -, ht⟩ | ⟨rest, -, ht⟩ :=
    step_cases hstep
  · exact inv_engineTurn (inv_turns h turns) ht
  all_goals cases ht
  · exact inv_hostRegWrite (inv_turns h _) _ _ _
  · exact inv_hostRegRead (inv_turns h _) _ _
  · exact inv_hostRegRead (inv_turns h _) _ _
  · exact inv_hostBufWrite (inv_turns h _) _ _ _
  · exact inv_hostBufRead (inv_turns h _) _ _
  · exact inv_platformReset (inv_turns h _)
  · exact inv_powerOnReset (inv_turns h _)

end Sys2Proof.Machine

/-! One step of the block: the Engine with the word it holds, a Host access to a register, an access answered with a
bus error. -/

namespace Sys2Proof.Machine

/-! The Engine's step. -/

/-- The turns that leave a BUSY Engine the step without being used up: none, a held BUF access, and a loop of STATUS
reads that has used up its reads (R57, R132). -/
inductive WaitsForEngine : List Turn → Prop where
  | none : WaitsForEngine []
  | bufWrite (width addr : Nat) (v : BitVec 64) (rest : List Turn) : WaitsForEngine (.bufWrite width addr v :: rest)
  | bufRead (width addr : Nat) (rest : List Turn) : WaitsForEngine (.bufRead width addr :: rest)
  | pollStatus (rest : List Turn) : WaitsForEngine (.pollStatus 0 :: rest)

/-- The Engine's step while the turns wait for it. -/
theorem step_waiting {s : State} (hp : s.phase = .busy) (h : WaitsForEngine s.turns) : step s = runPending s := by
  rw [← engineTurn_busy hp, step, nextTurn]
  cases h' : s.turns with
  | nil => rfl
  | cons turn rest =>
    rw [h'] at h
    cases h with
    | bufWrite | bufRead => simp only [bufTurn, hp]
    | pollStatus => exact pollTurn_waits hp rest

/-- The Engine's own turn is used up. -/
theorem step_engine {s : State} (hp : s.phase = .busy) {rest : List Turn} (ht : s.turns = .engine :: rest) :
    step s = runPending { s with turns := rest } := by
  simp only [step, nextTurn, ht]
  exact engineTurn_busy hp

/-- Settles O4. -/
theorem stepRunsTheHeldCommand : Obligations.StepRunsTheHeldCommand := by
  refine ⟨fun s i hp hd => ?_, fun s nbits w i hd => ?_⟩
  · have waiting : WaitsForEngine s.turns → step s = exec i s := fun h =>
      (step_waiting hp h).trans (runPending_ok hd)
    exact ⟨fun ht => waiting (ht ▸ .none),
      fun rest ht => (step_engine hp ht).trans (runPending_ok (s := { s with turns := rest }) hd),
      fun _ _ _ _ ht => waiting (ht ▸ .bufWrite ..), fun _ _ _ ht => waiting (ht ▸ .bufRead ..),
      fun _ ht => waiting (ht ▸ .pollStatus _)⟩
  · rw [step_withFetchWord]
    unfold decodeTableWord at hd
    split at hd
    · next j hj =>
      cases hd
      exact runPending_ok hj
    · cases hd

/-- A word with a reserved bit set or a reserved opcode does not decode (R67). -/
theorem decodeWord_illegal {v : Word} (h : v.extractLsb' 8 24 ≠ 0#24 ∨ 5 < (v.extractLsb' 0 8).toNat) :
    ∃ e, decodeWord v = .error e := by
  unfold decodeWord
  split
  · exact ⟨_, rfl⟩
  · next hr =>
    have hop := h.resolve_left hr
    split
    iterate 6 omega
    exact ⟨_, rfl⟩

/-- The completion of an illegal word (R68). -/
theorem complete_illegal (s : State) :
    complete 0x10#8 s =
      { s with
        phase := .idle
        errcode := 0x10#8
        err := true
        intStatus := s.intStatus ||| 0b11#2
        cmdcnt := s.cmdcnt + 1 } := by
  have hint : completedInt s.intStatus true = s.intStatus ||| 0b11#2 := BitVec.or_assoc _ _ _
  rw [← hint]
  rfl

/-- The Engine's turn with an illegal word held. -/
theorem step_engine_illegal {s : State} (hp : s.phase = .busy) {rest : List Turn} (ht : s.turns = .engine :: rest)
    {e : DecodeError} (hd : decodeWord s.pending = .error e) :
    step s = .next (complete 0x10#8 { s with turns := rest }) :=
  (step_engine hp ht).trans (runPending_error (s := { s with turns := rest }) hd)

/-! The Host's accesses to a register. -/

theorem regAccessOk_aligned {off : BitVec 12} (h : off.toNat % 4 = 0) : regAccessOk 4 off = true := by
  simp [regAccessOk, h]

theorem regAccessOk_bad {width : Nat} {off : BitVec 12} (h : width ≠ 4 ∨ off.toNat % 4 ≠ 0) :
    ¬ regAccessOk width off = true := by
  rcases h with h | h <;> simp [regAccessOk, h]

/-- The step of a 32-bit Host write at a multiple of 4, in every phase (R23). -/
theorem step_regWrite {s : State} {off : BitVec 12} (ha : off.toNat % 4 = 0) {v : Word} {rest : List Turn}
    (ht : s.turns = .regWrite 4 off v :: rest) :
    step s = .next (answer .written (writeOffset off v { s with turns := rest })) := by
  simp only [step, nextTurn, ht, hostRegWrite, regAccessOk_aligned ha, if_true]

/-- The register at an offset has that offset. -/
theorem regOffset_of_regAt {off : BitVec 12} {r : Reg} (h : regAt off = some r) : regOffset r = off :=
  eq_of_beq (List.find?_some (p := fun r => regOffset r == off) h)

theorem regAt_reserved {off : BitVec 12} (h : ∀ r ∈ allRegs, regOffset r ≠ off) : regAt off = none :=
  List.find?_eq_none.mpr fun r hr he => h r hr (eq_of_beq he)

/-- Settles O5. -/
theorem commandWriteIsAccepted : Obligations.CommandWriteIsAccepted := by
  intro s v rest hp ht
  rw [step_regWrite_idle (r := .cmd) hp ht]
  rfl

/-- Settles O6: the word is accepted, it does not decode, and the Engine completes it with ILLEGAL_CMD. -/
theorem illegalWordCompletesWithIllegalCmd : Obligations.IllegalWordCompletesWithIllegalCmd := by
  refine ⟨fun s v rest hp ht hv => ?_, fun s e hp hd => ?_⟩
  · obtain ⟨e, hd⟩ := decodeWord_illegal hv
    refine ⟨_, commandWriteIsAccepted s v _ hp ht, ?_⟩
    refine Eq.trans (step_engine_illegal rfl rfl hd) ?_
    rw [complete_illegal]
  · have waiting : WaitsForEngine s.turns → step s = .next (complete 0x10#8 s) := fun h =>
      (step_waiting hp h).trans (runPending_error hd)
    rw [complete_illegal] at waiting
    refine ⟨fun ht => waiting (ht ▸ .none), fun rest ht => ?_, fun _ _ _ _ ht => waiting (ht ▸ .bufWrite ..),
      fun _ _ _ ht => waiting (ht ▸ .bufRead ..), fun _ ht => waiting (ht ▸ .pollStatus _)⟩
    rw [step_engine_illegal hp ht hd, complete_illegal]

/-! Writes that change nothing, and writes while BUSY. -/

/-- The 32-bit registers of R20 that ignore writes. -/
def readOnly32 : List Reg :=
  [.id, .version, .status, .errcode, .cmdcnt, .memsize, .red, .ss, .outLen, .descWidth, .offset, .nwin, .ambCount,
    .firstAmb]

/-- The 64-bit registers of R20 that ignore writes. -/
def readOnly64 : List Reg64 := [.amp, .bp, .br, .fOne, .fZero, .rp, .wOne, .wZero, .tblData]

theorem writeReg_readOnly32 {r : Reg} (h : r ∈ readOnly32) (v : Word) (s : State) : writeReg r v s = s := by
  unfold readOnly32 at h
  fin_cases h <;> rfl

theorem writeReg_readOnly64 {r : Reg64} (h : r ∈ readOnly64) (k : Half) (v : Word) (s : State) :
    writeReg (.half r k) v s = s := by
  unfold readOnly64 at h
  fin_cases h <;> rfl

/-- Settles O48. -/
theorem readOnlyAndReservedOffsetsIgnoreWrites : Obligations.ReadOnlyAndReservedOffsetsIgnoreWrites := by
  refine ⟨fun s off v rest hp ha hoff ht => ?_, fun s off h => ?_, fun s => ?_⟩
  · have ignored : writeOffset off v { s with turns := rest } = { s with turns := rest } := by
      rw [writeOffset_idle (s := { s with turns := rest }) hp]
      rcases hoff with hnone | h32 | ⟨k, h64⟩
      · rw [hnone]
      · obtain ⟨r, hr, hat⟩ := List.mem_map.mp (show regAt off ∈ readOnly32.map some from h32)
        rw [← hat]
        exact writeReg_readOnly32 hr v _
      · obtain ⟨r, hr, hat⟩ := List.mem_map.mp (show regAt off ∈ readOnly64.map (fun r => some (.half r k)) from h64)
        rw [← hat]
        exact writeReg_readOnly64 hr k v _
    rw [step_regWrite ha ht, ignored]
    rfl
  · rw [readOffset, regAt_reserved h]
  · exact ⟨readOffset_regOffset .cmd s, readOffset_regOffset .id s, readOffset_regOffset .version s⟩

/-- INT_STATUS and INT_ENABLE take writes in every phase (R24). -/
theorem writeOffset_writable {r : Reg} (h : writableWhileBusy (some r) = true) (v : Word) (s : State) :
    writeOffset (regOffset r) v s = writeReg r v s := by
  simp only [writeOffset, regAt_regOffset, h, Bool.true_eq_false, and_false, if_false]

theorem not_writableWhileBusy {off : BitVec 12} (h1 : off ≠ 0x018) (h2 : off ≠ 0x01C) :
    writableWhileBusy (regAt off) = false := by
  rw [writableWhileBusy, Bool.or_eq_false_iff, beq_eq_false_iff_ne, beq_eq_false_iff_ne]
  exact ⟨fun h => h1 (regOffset_of_regAt h).symm, fun h => h2 (regOffset_of_regAt h).symm⟩

/-- The step of an aligned Host write while BUSY to a place that takes none then (R24). -/
theorem step_regWrite_dropped {s : State} (hp : s.phase = .busy) {off : BitVec 12} (ha : off.toNat % 4 = 0)
    (h1 : off ≠ 0x018) (h2 : off ≠ 0x01C) {v : Word} {rest : List Turn} (ht : s.turns = .regWrite 4 off v :: rest) :
    step s = .next { s with warn := s.warn ||| 0b10000#5, turns := rest, replies := .written :: s.replies } := by
  rw [step_regWrite ha ht, writeOffset_busy_dropped (s := { s with turns := rest }) hp (not_writableWhileBusy h1 h2)]
  rfl

/-- The step of a Host write to INT_STATUS or INT_ENABLE, in every phase (R24). -/
theorem step_regWrite_writable {s : State} {r : Reg} (h : writableWhileBusy (some r) = true) {v : Word}
    {rest : List Turn} (ht : s.turns = .regWrite 4 (regOffset r) v :: rest) :
    step s = .next (answer .written (writeReg r v { s with turns := rest })) := by
  rw [← writeOffset_writable h]
  simp only [step, nextTurn, ht, hostRegWrite, regAccessOk_regOffset, if_true]

theorem readOffset_turns (off : BitVec 12) (ts : List Turn) (s : State) :
    readOffset off { s with turns := ts } = readOffset off s := by
  unfold readOffset
  cases regAt off with
  | none => rfl
  | some r => exact readReg_turns r ts s

/-- Settles O52. -/
theorem busyWritesAreDropped : Obligations.BusyWritesAreDropped := by
  refine ⟨fun s off v rest hp ha ht => ⟨fun h1 h2 => step_regWrite_dropped hp ha h1 h2 ht, ?_, ?_⟩,
    fun s off rest ha ht => ?_⟩
  · rintro rfl
    rw [step_regWrite_writable (r := .intStatus) rfl ht, ← BitVec.setWidth_eq_extractLsb' (by decide)]
    rfl
  · rintro rfl
    rw [step_regWrite_writable (r := .intEnable) rfl ht, ← BitVec.setWidth_eq_extractLsb' (by decide)]
    rfl
  · simp only [step, nextTurn, ht, hostRegRead, regAccessOk_aligned ha, if_true, readOffset_turns]
    rfl

/-- Settles O55. -/
theorem softResetResetsTheRegisters : Obligations.SoftResetResetsTheRegisters := by
  intro s v rest hv ht
  refine ⟨fun hp => ?_, fun hp => step_regWrite_dropped hp (by decide) (by decide) (by decide) ht⟩
  rw [step_regWrite_idle (r := .ctrl) hp ht, writeReg, writeCtrl, if_pos hv]
  rfl

/-! Accesses answered with a bus error. -/

theorem bufAccessOk_bad {n width addr : Nat} (h : width ∉ [1, 2, 4, 8] ∨ addr % width ≠ 0 ∨ n < addr + width) :
    ¬ bufAccessOk n width addr = true := by
  simp only [bufAccessOk, Bool.and_eq_true, Bool.or_eq_true, beq_iff_eq, decide_eq_true_eq]
  rintro ⟨⟨hw, ha⟩, hr⟩
  rcases h with h | h | h
  · exact h (by simpa [or_assoc] using hw)
  · exact h ha
  · omega

/-- While IDLE a BUF access takes its turn (R57). -/
theorem bufTurn_idle {s : State} (h : s.phase = .idle) (rest : List Turn) (act : State → State) :
    bufTurn rest act s = .next (act { s with turns := rest }) := by
  unfold bufTurn; rw [h]

/-- Settles O58. -/
theorem busErrorsChangeNothing : Obligations.BusErrorsChangeNothing := by
  refine ⟨fun s n off v rest hbad ht => ?_, fun s n a v rest hp hbad ht => ?_⟩
  · have hok := regAccessOk_bad hbad
    rcases ht with ht | ht
    · rw [step, nextTurn, ht]
      simp only [hostRegWrite, if_neg hok]
      rfl
    · rw [step, nextTurn, ht]
      simp only [hostRegRead, if_neg hok]
      rfl
  · have hok : ¬ bufAccessOk { s with turns := rest }.memBytes n a = true := bufAccessOk_bad hbad
    rcases ht with ht | ht
    · rw [step, nextTurn, ht]
      simp only [bufTurn_idle hp, hostBufWrite, if_neg hok]
      rfl
    · rw [step, nextTurn, ht]
      simp only [bufTurn_idle hp, hostBufRead, if_neg hok]
      rfl

end Sys2Proof.Machine

/-! What single registers show: reset values, CTRL, INT_ENABLE, TBL_SEL, WARN, INT_STATUS, STATUS, TBL_DATA, IRQ. -/

namespace Sys2Proof.Machine

open Sys2Proof.Safety

/-- The registers of R20 whose reset value is 0. -/
def zeroAtReset : List Reg :=
  [.ctrl, .status, .errcode, .warn, .intStatus, .intEnable, .cmd, .cmdcnt, .half .amp .lo, .half .amp .hi,
    .half .bp .lo, .half .bp .hi, .half .br .lo, .half .br .hi, .half .fOne .lo, .half .fOne .hi, .half .fZero .lo,
    .half .fZero .hi, .half .rp .lo, .half .rp .hi, .half .wOne .lo, .half .wOne .hi, .half .wZero .lo,
    .half .wZero .hi, .red, .ss, .tblSel, .half .tblData .lo, .half .tblData .hi, .srcA, .lenA, .rateA, .srcB, .lenB,
    .rateB, .dst, .width, .half .loc .lo, .half .loc .hi, .outLen, .descWidth, .offset, .nwin, .ambCount]

theorem readReg_zeroAtReset : ∀ r ∈ zeroAtReset, readReg r State.reset = 0#32 := by decide

/-- Only MEMSIZE shows which MEM_BYTES the block has, and no register shows BUF. -/
theorem readReg_afterPowerOn {r : Reg} (h : r ≠ .memsize) (n : Fin Config.memUnitCount) (init : Memory) :
    readReg r (State.afterPowerOn n init) = readReg r State.reset := by
  cases r with
  | memsize => exact absurd rfl h
  | half p k => cases p <;> rfl
  | _ => rfl

/-- With no bit of INT_STATUS set, IRQ is low (R33). -/
theorem irq_of_intStatus_zero {s : State} (h : s.intStatus = 0#2) : s.irq = false := by
  simp [State.irq, h]

/-- Settles O47. -/
theorem resetValuesOfEveryRegister : Obligations.ResetValuesOfEveryRegister := by
  intro n init s
  have read {r : Reg} (h : r ≠ .memsize) : readOffset (regOffset r) s = readReg r State.reset :=
    (readOffset_regOffset r s).trans (readReg_afterPowerOn h n init)
  have half (p : Reg64) (k : Half) : readOffset (regOffset (.half p k)) s = halfOf k (readReg64 p State.reset) :=
    read nofun
  refine ⟨read (r := .id) nofun, read (r := .version) nofun, readOffset_regOffset .memsize s,
    half .ampIn .lo, half .ampIn .hi, half .bpIn .lo, half .bpIn .hi, read (r := .redIn) nofun,
    half .mix .lo, half .mix .hi, read (r := .firstAmb) nofun, fun off hoff => ?_, rfl, rfl,
    irq_of_intStatus_zero rfl⟩
  obtain ⟨r, hr, rfl⟩ := List.mem_map.mp (show off ∈ zeroAtReset.map regOffset from hoff)
  rw [read (by rintro rfl; exact absurd hr (by decide))]
  exact readReg_zeroAtReset r hr

/-! The fields of a written word, put back in place, are the word with its reserved bits 0. -/

theorem ctrlFields_eq_and (v : Word) :
    0#28 ++ BitVec.ofBool (v.getLsbD 3) ++ v.extractLsb' 1 2 ++ 0#1 = v &&& 0x0000000E#32 := by
  refine BitVec.eq_of_getLsbD_eq fun i hi => ?_
  simp only [BitVec.getLsbD_append, BitVec.getLsbD_and, BitVec.getLsbD_extractLsb']
  interval_cases i <;> simp

theorem setWidth_two_eq_and (v : Word) : (v.extractLsb' 0 2).setWidth 32 = v &&& 0x00000003#32 := by
  refine BitVec.eq_of_getLsbD_eq fun i hi => ?_
  interval_cases i <;> simp

theorem tblSelFields_eq_and (v : Word) :
    0#16 ++ v.extractLsb' 8 8 ++ 0#5 ++ v.extractLsb' 0 3 = v &&& 0x0000FF07#32 := by
  refine BitVec.eq_of_getLsbD_eq fun i hi => ?_
  simp only [BitVec.getLsbD_append, BitVec.getLsbD_and, BitVec.getLsbD_extractLsb']
  interval_cases i <;> simp

/-- Settles O50. -/
theorem controlAndSelectWrites : Obligations.ControlAndSelectWrites := by
  intro s v rest hp
  refine ⟨fun hsrst ht => ⟨_, ?_, rfl, ?_⟩, fun ht => ⟨_, ?_, rfl, ?_⟩, fun ht => ⟨_, ?_, rfl, ?_⟩⟩
  · rw [step_regWrite_idle (r := .ctrl) hp ht, writeReg, writeCtrl, if_neg (by rw [hsrst]; nofun)]
    rfl
  · exact (readOffset_regOffset .ctrl _).trans (ctrlFields_eq_and v)
  · rw [step_regWrite_idle (r := .intEnable) hp ht, ← BitVec.setWidth_eq_extractLsb' (by decide)]
    rfl
  · exact (readOffset_regOffset .intEnable _).trans (setWidth_two_eq_and v)
  · rw [step_regWrite_idle (r := .tblSel) hp ht, ← BitVec.setWidth_eq_extractLsb' (by decide)]
    rfl
  · exact (readOffset_regOffset .tblSel _).trans (tblSelFields_eq_and v)

/-- Writing ones clears exactly the bits written (R20). -/
theorem getLsbD_and_not_setWidth {n i : Nat} (hi : i < n) (x : BitVec n) (v : Word) :
    (x &&& ~~~(v.setWidth n)).getLsbD i = (x.getLsbD i && !v.getLsbD i) := by
  simp [hi]

/-- Settles O51. -/
theorem writeOneToClear : Obligations.WriteOneToClear := by
  refine ⟨fun s v rest hp ht => ⟨_, step_regWrite_idle (r := .warn) hp ht, rfl, fun i hi => ?_⟩,
    fun s v rest ht => ⟨_, step_regWrite_writable (r := .intStatus) rfl ht, rfl, fun i hi => ?_⟩⟩
  · exact getLsbD_and_not_setWidth hi s.warn v
  · exact getLsbD_and_not_setWidth hi s.intStatus v

/-- The table that TSEL selects (R40). -/
theorem selectedTable_eq (s : State) :
    selectedTable s =
      if s.tsel.toNat ≤ 4 then
        some (if s.tsel = 0#3 then s.tables.taxis else if s.tsel = 1#3 then s.tables.ref1
          else if s.tsel = 2#3 then s.tables.ref0 else if s.tsel = 3#3 then s.tables.cref1 else s.tables.cref0)
      else none := by
  have hsel : ∀ b : BitVec 3, b = 0 ∨ b = 1 ∨ b = 2 ∨ b = 3 ∨ b = 4 ∨ b = 5 ∨ b = 6 ∨ b = 7 := by decide
  unfold selectedTable
  rcases hsel s.tsel with h | h | h | h | h | h | h | h <;> rw [h] <;> rfl

/-- Settles O53. -/
theorem tableWindowShowsTheSelectedEntry : Obligations.TableWindowShowsTheSelectedEntry := by
  intro s table x
  have hx : tableData s = x := by
    rw [tableData, selectedTable_eq]
    by_cases hsel : s.tsel.toNat ≤ 4
    · simp [hsel, x, table, entry, posZero]
    · simp [hsel, x, posZero]
  exact ⟨hx ▸ readOffset_regOffset (.half .tblData .lo) s, hx ▸ readOffset_regOffset (.half .tblData .hi) s⟩

/-- The bits of STATUS (R28). -/
theorem statusWord_getLsbD (s : State) (i : Nat) :
    s.statusWord.getLsbD i =
      if i = 0 then s.phase == .busy else if i = 1 then s.pvalid else if i = 2 then s.err
      else if i < 8 then false else s.lastop.getLsbD (i - 8) := by
  simp only [State.statusWord, BitVec.getLsbD_append, BitVec.getLsbD_ofBool, BitVec.getLsbD_zero]
  grind

/-- Settles O54. -/
theorem statusAndIrqShowTheEngine : Obligations.StatusAndIrqShowTheEngine := by
  refine ⟨fun s => ?_, fun s => ?_, fun s => ?_⟩
  · have hread : readOffset 0x00C s = s.statusWord := readOffset_regOffset .status s
    rw [hread]
    have hbusy : s.statusWord.getLsbD 0 = (s.phase == .busy) := statusWord_getLsbD s 0
    refine ⟨by rw [hbusy, beq_iff_eq], statusWord_getLsbD s 1, statusWord_getLsbD s 2, ?_, ?_, ?_⟩
    all_goals
      refine BitVec.eq_of_getLsbD_eq fun i hi => ?_
      rw [BitVec.getLsbD_extractLsb', statusWord_getLsbD]
      grind
  · have hstatus : readOffset 0x018 s = s.intStatus.setWidth 32 := readOffset_regOffset .intStatus s
    have henable : readOffset 0x01C s = s.intEnable.setWidth 32 := readOffset_regOffset .intEnable s
    rw [hstatus, henable]
    simp [State.irq]
  · have hack : writeOffset 0x018 0x3#32 s = acknowledge 0x3#32 s := writeOffset_writable (r := .intStatus) rfl _ s
    rw [hack]
    exact irq_of_intStatus_zero (by simp)

end Sys2Proof.Machine

/-! The first failing check of a command decides its error code (R56, R105). -/

namespace Sys2Proof.Machine

open Sys2Proof.Safety

/-! One region after the other. -/

theorem checkEach_cons (n : Nat) (r : Region) (rs : List Region) :
    checkEach n (r :: rs) = (checkRegion n r).or (checkEach n rs) := by
  rw [checkEach]
  cases checkRegion n r <;> rfl

/-- The regions in turn, then the overlap of a source with the destination. -/
theorem checkRegions_eq_or (n : Nat) (srcs : List Region) (d : Region) :
    checkRegions n srcs d =
      (checkEach n (srcs ++ [d])).or (if srcs.any (fun r => regionsOverlap r d) then some .overlap else none) := by
  rw [checkRegions]
  cases checkEach n (srcs ++ [d]) <;> rfl

theorem checkRegion_outside {s : State} {r : Region} (h : ¬ InBuf s r.base r.nbytes) :
    checkRegion s.memBytes r = some .addrRange := by
  rw [not_or, not_le] at h
  obtain ⟨hne, hout⟩ := h
  rw [checkRegion, if_neg hne, if_pos hout]

theorem checkRegion_misaligned {s : State} {r : Region} (hin : InBuf s r.base r.nbytes)
    (hal : ¬ (r.nbytes = 0 ∨ r.base % r.align = 0)) : checkRegion s.memBytes r = some .addrAlign := by
  rw [not_or] at hal
  obtain ⟨hne, hmod⟩ := hal
  rw [checkRegion, if_neg hne, if_neg (not_lt.mpr (hin.resolve_left hne)), if_pos hmod]

theorem regionsOverlap_iff_not_apart {r t : Region} :
    regionsOverlap r t = true ↔ ¬ Apart r.base r.nbytes t.base t.nbytes := by
  rw [← Bool.not_eq_false, regionsOverlap_eq_false]
  exact not_congr or_left_comm

section
variable {s : State} {fails : BitVec 8 → Prop} {rest : Prop}

/-- The two checks of a sample buffer, range before alignment, then the checks after them. -/
theorem sampleRegion_errors_in_order {base : Word} {n : Nat}
    (hbad : ∀ e, checkRegion s.memBytes (sampleRegion base n) = some e → fails (errorByte e))
    (hgood : checkRegion s.memBytes (sampleRegion base n) = none → rest) :
    (¬ InBuf s base.toNat (8 * n) → fails 0x12#8) ∧
      (InBuf s base.toNat (8 * n) →
        (¬ Aligned8 base.toNat (8 * n) → fails 0x13#8) ∧ (Aligned8 base.toNat (8 * n) → rest)) :=
  ⟨fun hout => hbad .addrRange (checkRegion_outside hout), fun hin =>
    ⟨fun hmis => hbad .addrAlign (checkRegion_misaligned hin hmis),
      fun hal => hgood (checkRegion_sampleRegion hin hal)⟩⟩

/-- The one check of a bit buffer, its range, then the checks after it. -/
theorem bitRegion_errors_in_order {base : Word} {n : Nat}
    (hbad : ∀ e, checkRegion s.memBytes (bitRegion base n) = some e → fails (errorByte e))
    (hgood : checkRegion s.memBytes (bitRegion base n) = none → rest) :
    (¬ InBuf s base.toNat (ceil8 n) → fails 0x12#8) ∧ (InBuf s base.toNat (ceil8 n) → rest) :=
  ⟨fun hout => hbad .addrRange (checkRegion_outside hout), fun hin => hgood (checkRegion_bitRegion hin)⟩

/-- The checks of a bit buffer and a destination of samples, as MOD makes them. -/
theorem bitSource_errors_in_order {a d : Word} {k n : Nat}
    (h : ∀ e, checkRegions s.memBytes [bitRegion a k] (sampleRegion d n) = some e → fails (errorByte e)) :
    (¬ InBuf s a.toNat (ceil8 k) → fails 0x12#8) ∧
      (InBuf s a.toNat (ceil8 k) →
        (¬ InBuf s d.toNat (8 * n) → fails 0x12#8) ∧
        (InBuf s d.toNat (8 * n) →
          (¬ Aligned8 d.toNat (8 * n) → fails 0x13#8) ∧
          (Aligned8 d.toNat (8 * n) → ¬ Apart a.toNat (ceil8 k) d.toNat (8 * n) → fails 0x14#8))) := by
  simp only [checkRegions_eq_or, List.cons_append, List.nil_append, checkEach_cons] at h
  refine bitRegion_errors_in_order (fun e ha => h e (by simp [ha])) fun ha =>
    sampleRegion_errors_in_order (fun e hd => h e (by simp [ha, hd])) fun hd hshared => h .overlap ?_
  have hoverlap : regionsOverlap (bitRegion a k) (sampleRegion d n) = true := regionsOverlap_iff_not_apart.mpr hshared
  simp [ha, hd, hoverlap, checkEach]

/-- The checks of a sample buffer and a destination of bits, as DEMOD makes them. -/
theorem sampleSource_errors_in_order {a d : Word} {k n : Nat}
    (h : ∀ e, checkRegions s.memBytes [sampleRegion a k] (bitRegion d n) = some e → fails (errorByte e)) :
    (¬ InBuf s a.toNat (8 * k) → fails 0x12#8) ∧
      (InBuf s a.toNat (8 * k) →
        (¬ Aligned8 a.toNat (8 * k) → fails 0x13#8) ∧
        (Aligned8 a.toNat (8 * k) →
          (¬ InBuf s d.toNat (ceil8 n) → fails 0x12#8) ∧
          (InBuf s d.toNat (ceil8 n) → ¬ Apart a.toNat (8 * k) d.toNat (ceil8 n) → fails 0x14#8))) := by
  simp only [checkRegions_eq_or, List.cons_append, List.nil_append, checkEach_cons] at h
  refine sampleRegion_errors_in_order (fun e ha => h e (by simp [ha])) fun ha =>
    bitRegion_errors_in_order (fun e hd => h e (by simp [ha, hd])) fun hd hshared => h .overlap ?_
  have hoverlap : regionsOverlap (sampleRegion a k) (bitRegion d n) = true := regionsOverlap_iff_not_apart.mpr hshared
  simp [ha, hd, hoverlap, checkEach]

/-- The checks of two sample buffers and a destination, as EMBED and EXTRACT make them. -/
theorem twoSources_errors_in_order {a b d : Word} {k l n : Nat}
    (h : ∀ e, checkRegions s.memBytes [sampleRegion a k, sampleRegion b l] (sampleRegion d n) = some e →
      fails (errorByte e)) :
    (¬ InBuf s a.toNat (8 * k) → fails 0x12#8) ∧
      (InBuf s a.toNat (8 * k) →
        (¬ Aligned8 a.toNat (8 * k) → fails 0x13#8) ∧
        (Aligned8 a.toNat (8 * k) →
          (¬ InBuf s b.toNat (8 * l) → fails 0x12#8) ∧
          (InBuf s b.toNat (8 * l) →
            (¬ Aligned8 b.toNat (8 * l) → fails 0x13#8) ∧
            (Aligned8 b.toNat (8 * l) →
              (¬ InBuf s d.toNat (8 * n) → fails 0x12#8) ∧
              (InBuf s d.toNat (8 * n) →
                (¬ Aligned8 d.toNat (8 * n) → fails 0x13#8) ∧
                (Aligned8 d.toNat (8 * n) →
                  ¬ (Apart a.toNat (8 * k) d.toNat (8 * n) ∧ Apart b.toNat (8 * l) d.toNat (8 * n)) →
                  fails 0x14#8)))))) := by
  simp only [checkRegions_eq_or, List.cons_append, List.nil_append, checkEach_cons] at h
  refine sampleRegion_errors_in_order (fun e ha => h e (by simp [ha])) fun ha =>
    sampleRegion_errors_in_order (fun e hb => h e (by simp [ha, hb])) fun hb =>
    sampleRegion_errors_in_order (fun e hd => h e (by simp [ha, hb, hd])) fun hd hshared =>
    h .overlap ?_
  have hoverlap : regionsOverlap (sampleRegion a k) (sampleRegion d n) = true ∨
      regionsOverlap (sampleRegion b l) (sampleRegion d n) = true :=
    (not_and_or.mp hshared).imp regionsOverlap_iff_not_apart.mpr regionsOverlap_iff_not_apart.mpr
  simp [ha, hb, hd, hoverlap, checkEach]

end

/-! MOD. -/

theorem exec_mod_of_error {s : State} {e : ErrorCode} (h : modChecks s = .error e) :
    exec .mod s = .next (complete (errorByte e) s) := by
  rw [exec, execMod, h]
  exact raise_eq e s

theorem modChecks_of_not_pvalid {s : State} (h : s.pvalid = false) : modChecks s = .error .noParams := by
  simp [modChecks, h]

theorem modChecks_of_regions {s : State} (hp : s.pvalid = true) {e : ErrorCode}
    (h : checkRegions s.memBytes [bitRegion s.operands.srcA (lenA s)] (modDestination s) = some e) :
    modChecks s = .error e := by
  simp [modChecks, hp, h]

/-- Settles O21: NO_PARAMS, then the regions in the order of `bitSource_errors_in_order`. -/
theorem modRaisesTheFirstError : Obligations.ModRaisesTheFirstError := fun s =>
  ⟨fun hp => exec_mod_of_error (modChecks_of_not_pvalid hp), fun hp =>
    bitSource_errors_in_order (fails := fun code => exec .mod s = .next (complete code s)) fun _ hreg =>
      exec_mod_of_error (modChecks_of_regions hp hreg)⟩

/-! DEMOD. -/

theorem exec_demod_of_error {s : State} {e : ErrorCode} (h : demodChecks s = .error e) :
    exec .demod s = .next (complete (errorByte e) s) := by
  rw [exec, execDemod, h]
  exact raise_eq e s

theorem demodChecks_of_not_pvalid {s : State} (h : s.pvalid = false) : demodChecks s = .error .noParams := by
  simp [demodChecks, h]

theorem demodChecks_of_regions {s : State} (hp : s.pvalid = true) {e : ErrorCode}
    (h : checkRegions s.memBytes [sampleRegion s.operands.srcA (lenA s)] (demodDestination s) = some e) :
    demodChecks s = .error e := by
  simp [demodChecks, hp, h]

/-- Settles O25: NO_PARAMS, then the regions in the order of `sampleSource_errors_in_order`. -/
theorem demodRaisesTheFirstError : Obligations.DemodRaisesTheFirstError := fun s =>
  ⟨fun hp => exec_demod_of_error (demodChecks_of_not_pvalid hp), fun hp =>
    sampleSource_errors_in_order (fails := fun code => exec .demod s = .next (complete code s)) fun _ hreg =>
      exec_demod_of_error (demodChecks_of_regions hp hreg)⟩

/-! EMBED and EXTRACT. -/

/-- A product that is not finite or rounds below 0 is no location (R94). -/
theorem location_of_invalid {loc : F64} {rate : Nat}
    (h : F64.finite (F64.mul loc (F64.ofNat rate)) = false ∨ F64.rne (F64.mul loc (F64.ofNat rate)) < 0) :
    location loc rate = .error .locationInvalid := by
  unfold location
  rcases h with h | h <;> simp [h]

theorem exec_embed_of_error {s : State} {e : ErrorCode} (h : embedChecks s = .error e) :
    exec .embed s = .next (complete (errorByte e) s) := by
  rw [exec, execEmbed, h]
  exact raise_eq e s

/-- Settles O29: rates, capacity and location in turn, then the regions in the order of `twoSources_errors_in_order`. -/
theorem embedRaisesTheFirstError : Obligations.EmbedRaisesTheFirstError := by
  intro s fails
  have raises : ∀ {e}, embedChecks s = .error e → fails (errorByte e) := exec_embed_of_error
  refine ⟨fun hrate => raises (e := .channelMismatch) ?_, fun hrate =>
    ⟨fun hlen => raises (e := .capacityExceeded) ?_, fun hlen =>
    ⟨fun hcap => raises (e := .capacityExceeded) ?_, fun hcap =>
    ⟨fun hloc => raises (e := .locationInvalid) ?_, fun ⟨hfin, hnn⟩ =>
    twoSources_errors_in_order fun e hreg => raises ?_⟩⟩⟩⟩
  · simp [embedChecks, hrate]
  · simp [embedChecks, ← hrate, hlen]
  · have hfits : capacityHolds s.operands.loc s.operands.rateA.toNat (lenB s) (lenA s) = false := hcap
    simp [embedChecks, ← hrate, Nat.not_lt.mpr hlen, hfits]
  all_goals
    have hfits : capacityHolds s.operands.loc s.operands.rateA.toNat (lenB s) (lenA s) = true := hcap
  · simp [embedChecks, ← hrate, Nat.not_lt.mpr hlen, hfits, location_of_invalid hloc]
  · have hloc := location_eq_ok.mpr ⟨hfin, (Int.toNat_of_nonneg hnn).symm⟩
    simp [embedChecks, ← hrate, Nat.not_lt.mpr hlen, hfits, hloc, embedDestination, hreg]

theorem exec_extract_of_error {s : State} {e : ErrorCode} (h : extractChecks s = .error e) :
    exec .extract s = .next (complete (errorByte e) s) := by
  rw [exec, execExtract, h]
  exact raise_eq e s

/-- Settles O33: rates, lengths, location and capacity in turn, then the regions in the order of
`twoSources_errors_in_order`. -/
theorem extractRaisesTheFirstError : Obligations.ExtractRaisesTheFirstError := by
  intro s fails
  have raises : ∀ {e}, extractChecks s = .error e → fails (errorByte e) := exec_extract_of_error
  refine ⟨fun hrate => raises (e := .channelMismatch) ?_, fun hrate =>
    ⟨fun hlen => raises (e := .lengthMismatch) ?_, fun hlen =>
    ⟨fun hloc => raises (e := .locationInvalid) ?_, fun off hfin hrne =>
    ⟨fun hfit => raises (e := .capacityExceeded) ?_, fun hfit =>
    twoSources_errors_in_order fun e hreg => raises ?_⟩⟩⟩⟩
  · simp [extractChecks, hrate]
  · simp [extractChecks, ← hrate, hlen]
  · simp [extractChecks, ← hrate, ← hlen, location_of_invalid hloc]
  all_goals have hloc := location_eq_ok.mpr ⟨hfin, hrne⟩
  · simp [extractChecks, ← hrate, ← hlen, hloc, hfit]
  · have hsame : lenB s = lenA s := congrArg BitVec.toNat hlen.symm
    rw [hsame] at hreg
    simp [extractChecks, ← hrate, ← hlen, hloc, Nat.not_lt.mpr hfit, extractDestination, hreg]

end Sys2Proof.Machine

/-! Little-endian accesses to BUF, and the Host's accesses while IDLE and while BUSY (R52, R53, R57). -/

namespace Sys2Proof.Machine

/-! Byte order. -/

theorem bytesLE_getElem {n v j : Nat} (h : j < (bytesLE n v).length) :
    (bytesLE n v)[j] = BitVec.ofNat 8 (v / 256 ^ j) := by
  induction n generalizing v j with
  | zero => simp at h
  | succ n ih =>
    cases j with
    | zero => simp [bytesLE]
    | succ j => simp only [bytesLE, List.getElem_cons_succ, ih, Nat.div_div_eq_div_mul, Nat.pow_succ']

/-- Byte `j` of a stored number (R52). -/
theorem Memory.read_writeLE_inside {m : Memory} {a n j : Nat} (h : j < n) (v : BitVec 64) :
    Memory.read (Memory.writeLE m a n v.toNat) (a + j) = v.extractLsb' (8 * j) 8 := by
  rw [Memory.writeLE, Memory.read_write_inside (by rwa [bytesLE_length]), bytesLE_getElem]
  apply BitVec.eq_of_toNat_eq
  rw [BitVec.toNat_ofNat, BitVec.extractLsb'_toNat, Nat.shiftRight_eq_div_pow, Nat.pow_mul]

theorem Memory.read_writeLE_outside {m : Memory} {a n v x : Nat} (h : x < a ∨ a + n ≤ x) :
    Memory.read (Memory.writeLE m a n v) x = Memory.read m x :=
  Memory.read_write_outside (by rwa [bytesLE_length])

theorem Memory.readLE_lt (m : Memory) (a n : Nat) : Memory.readLE m a n < 256 ^ n := by
  induction n generalizing a with
  | zero => simp [Memory.readLE]
  | succ n ih =>
    have hbyte := (Memory.read m a).isLt
    have htail := ih (a + 1)
    rw [Memory.readLE, Nat.pow_succ']
    omega

/-- The last byte read is the most significant one. -/
theorem Memory.readLE_succ_last (m : Memory) (a n : Nat) :
    Memory.readLE m a (n + 1) = Memory.readLE m a n + (Memory.read m (a + n)).toNat * 2 ^ (8 * n) := by
  induction n generalizing a with
  | zero => simp [Memory.readLE]
  | succ n ih =>
    rw [Memory.readLE, ih (a + 1), Memory.readLE, Nat.add_right_comm a 1 n, Nat.mul_succ 8 n, Nat.pow_add]
    simp only [Nat.add_assoc]
    ring

/-- A little-endian read is the sum of its bytes, each times its place value (R52). -/
theorem Memory.readLE_eq_foldl (m : Memory) (a n : Nat) :
    Memory.readLE m a n =
      (List.range n).foldl (fun acc j => acc + (Memory.read m (a + j)).toNat * 2 ^ (8 * j)) 0 := by
  induction n with
  | zero => rfl
  | succ n ih => rw [Memory.readLE_succ_last, List.range_succ, List.foldl_concat, ← ih]

/-! The accesses that the block performs while IDLE. -/

theorem bufAccessOk_good {m n a : Nat} (hn : n ∈ [1, 2, 4, 8]) (ha : a % n = 0) (hr : a + n ≤ m) :
    bufAccessOk m n a = true := by
  simp only [List.mem_cons, List.not_mem_nil, or_false] at hn
  simp [bufAccessOk, ha, hr, or_assoc, hn]

theorem step_bufWrite_idle {s : State} (hp : s.phase = .idle) {n a : Nat} {v : BitVec 64} {rest : List Turn}
    (ht : s.turns = .bufWrite n a v :: rest) (hok : bufAccessOk s.memBytes n a = true) :
    step s = .next
      (answer .written { s with buf := Memory.writeLE s.buf a n v.toNat, turns := rest }) := by
  have hok' : bufAccessOk { s with turns := rest }.memBytes n a = true := hok
  simp only [step, nextTurn, ht, bufTurn_idle hp, hostBufWrite, hok', if_true]

theorem step_bufRead_idle {s : State} (hp : s.phase = .idle) {n a : Nat} {rest : List Turn}
    (ht : s.turns = .bufRead n a :: rest) (hok : bufAccessOk s.memBytes n a = true) :
    step s = .next (answer (.bufData (BitVec.ofNat 64 (Memory.readLE s.buf a n))) { s with turns := rest }) := by
  have hok' : bufAccessOk { s with turns := rest }.memBytes n a = true := hok
  simp only [step, nextTurn, ht, bufTurn_idle hp, hostBufRead, hok', if_true]

/-- Settles O57: the store and the load of an access that the block performs. -/
theorem hostBufAccesses : Obligations.HostBufAccesses := by
  intro s n a v rest hp hn ha hr
  have hok := bufAccessOk_good hn ha hr
  refine ⟨fun ht => ⟨_, step_bufWrite_idle hp ht hok, rfl, fun j hj => Memory.read_writeLE_inside hj v,
    fun x hx => Memory.read_writeLE_outside hx, ?_⟩, fun ht => ⟨_, step_bufRead_idle hp ht hok, ?_⟩⟩
  · rw [answer_buf, Memory.readLE_writeLE, Nat.pow_mul]
  · have hwidth : 256 ^ n ≤ 2 ^ 64 := by
      simp only [List.mem_cons, List.not_mem_nil, or_false] at hn
      rcases hn with rfl | rfl | rfl | rfl <;> norm_num
    rw [BitVec.toNat_ofNat, Nat.mod_eq_of_lt ((Memory.readLE_lt _ _ _).trans_le hwidth), Memory.readLE_eq_foldl]

/-! The access that is held while BUSY. -/

/-- What every completion does, whatever the command: the block is IDLE, the command is counted, and the turns, the
replies and MEM_BYTES are as they were (R103). -/
structure Completes (s t : State) : Prop where
  phase : t.phase = .idle
  turns : t.turns = s.turns
  replies : t.replies = s.replies
  memBytes : t.memBytes = s.memBytes
  cmdcnt : t.cmdcnt = s.cmdcnt + 1

theorem CommandEnd.completes {s t : State} {i : Instr} (h : CommandEnd s i t) : Completes s t := by
  cases h <;> exact ⟨rfl, rfl, rfl, rfl, rfl⟩

theorem runPending_completes {s t : State} (h : runPending s = .next t) : Completes s t := by
  cases hd : decodeWord s.pending with
  | ok i => exact (exec_commandEnd ((runPending_ok hd).symm.trans h)).completes
  | error e =>
    cases (runPending_error hd).symm.trans h
    exact ⟨rfl, rfl, rfl, rfl, rfl⟩

/-- Settles O59: the step is the completion, which leaves the access at the head; the next step is that access while
IDLE. -/
theorem bufAccessIsHeldWhileBusy : Obligations.BufAccessIsHeldWhileBusy := by
  intro s hp hheld
  have hwaits : WaitsForEngine s.turns := by
    obtain ⟨rest, n, a, v, ht⟩ | ⟨rest, n, a, ht⟩ := hheld <;> rw [ht]
    exacts [.bufWrite .., .bufRead ..]
  obtain ⟨t, hst⟩ := everyStepAnswersANextState s
  obtain ⟨u, htu⟩ := everyStepAnswersANextState t
  have hrun : runPending s = .next t := (step_waiting hp hwaits).symm.trans hst
  obtain ⟨hidle, hturns, hreplies, hmem, hcnt⟩ := runPending_completes hrun
  have hu : ∀ {w}, step t = .next w → u = w := fun h => by cases htu.symm.trans h; rfl
  refine ⟨t, u, hst, fun i hd => (runPending_ok hd).symm.trans hrun, hidle, hturns, hreplies, hmem, hcnt, htu, ?_⟩
  rw [← hmem, ← hreplies, ← hturns]
  refine ⟨fun rest n a v ht => ⟨fun hn ha hr => ?_, fun hbad => ?_⟩,
    fun rest n a ht => ⟨fun hn ha hr => ?_, fun hbad => ?_⟩⟩
  · obtain ⟨w, hw, hframe, hin, hout, -⟩ := (hostBufAccesses t n a v rest hidle hn ha hr).1 ht
    cases hu hw
    exact ⟨hframe, hin, hout⟩
  · exact hu (busErrorsChangeNothing.2 t n a v rest hidle hbad (.inl ht))
  · obtain ⟨x, hw, hx⟩ := (hostBufAccesses t n a 0 rest hidle hn ha hr).2 ht
    exact ⟨x, hu hw, hx⟩
  · exact hu (busErrorsChangeNothing.2 t n a 0 rest hidle hbad (.inr ht))

end Sys2Proof.Machine

/-! DEMOD without an ambiguous window (R55, R87 to R92): each window's bit, and where it lies in the packed output. -/

namespace Sys2Proof.Machine

open Sys2Proof.Safety

/-! The packed bits in BUF. -/

/-- The byte that the first `n` rounds of `packByte`'s loop build: bit `7 - q` is set for each `q < n` with `f q`. -/
theorem packRounds_getLsbD (f : Nat → Bool) {n q : Nat} (hn : n ≤ 8) (hq : q < 8) :
    ((List.range n).foldl (fun byte q => if f q then byte ||| (1#8 <<< (7 - q)) else byte) 0#8).getLsbD (7 - q) =
      (decide (q < n) && f q) := by
  induction n with
  | zero => simp
  | succ n ih =>
    have hbit : (1#8 <<< (7 - n)).getLsbD (7 - q) = decide (q = n) := by
      rw [← BitVec.twoPow_eq, BitVec.getLsbD_twoPow]
      simp only [← Bool.decide_and, decide_eq_decide]
      omega
    rw [List.range_succ, List.foldl_concat]
    by_cases hqn : q = n
    · subst hqn
      cases hf : f q <;> simp [hf, hbit, ih (by omega)]
    · have hlt : q < n + 1 ↔ q < n := by omega
      cases hf : f n <;> simp [hbit, ih (by omega), hqn, hlt]

/-- Bit `q` of byte `j`, the most significant first (R55). -/
theorem packByte_getLsbD (bits : List Bool) (j : Nat) {q : Nat} (hq : q < 8) :
    (packByte bits j).getLsbD (7 - q) = bits.getD (8 * j + q) false := by
  rw [packByte, packRounds_getLsbD (fun q => bits.getD (8 * j + q) false) (Nat.le_refl 8) hq, decide_eq_true hq,
    Bool.true_and]

@[simp] theorem packBits_length (bits : List Bool) : (packBits bits).length = ceil8 bits.length := by simp [packBits]

/-- A bit of the stored output is the bit of the string, or 0 past its end (R55, R87). -/
theorem Memory.bit_write_packBits {m : Memory} {a i : Nat} {bits : List Bool} (h : i < 8 * ceil8 bits.length) :
    Memory.bit (Memory.write m a (packBits bits)) a i = bits.getD i false := by
  have hbyte : i / 8 < (packBits bits).length := by rw [packBits_length]; omega
  rw [Memory.bit, Memory.read_write_inside hbyte]
  simp only [packBits, List.getElem_map, List.getElem_range]
  rw [packByte_getLsbD bits _ (Nat.mod_lt i (by decide)), Nat.div_add_mod]

/-! The decision on a window. -/

/-- The trapezoid sum is R89's loop. -/
theorem trapz_eq_loopTrapz (s : State) (y c : List F64) : trapz s.tables.taxis (ss s) y c = loopTrapz s y c := by
  simp only [trapz, loopTrapz, List.range'_eq_map_range, List.foldl_map, Nat.add_comm 1]
  rfl

/-- The bit of a window that is not ambiguous: the one-tone test (R91). -/
def oneToneBit (s : State) (w : Nat) : Bool := F64.gt (statOne s w) (F64.div s.params.amp two)

theorem decideWindow_eq (s : State) (w : Nat) :
    decideWindow s (demodWindow s w) =
      if oneToneBit s w then some true
      else if F64.gt (statZero s w) (F64.div s.params.amp two) then some false else none := by
  simp only [decideWindow, trapz_eq_loopTrapz]
  rfl

theorem decideWindow_of_not_ambiguous {s : State} {w : Nat} (h : ¬ Ambiguous s w) :
    decideWindow s (demodWindow s w) = some (oneToneBit s w) := by
  rw [decideWindow_eq]
  cases hone : oneToneBit s w with
  | true => rfl
  | false =>
    have hzero : F64.gt (statZero s w) (F64.div s.params.amp two) = true := by
      rw [← Bool.not_eq_false]
      exact fun hz => h ⟨hone, hz⟩
    simp [hzero]

/-- The output bits of DEMOD when no window is ambiguous. -/
def oneToneBits (s : State) : List Bool := (List.range (lenA s / ss s)).map (oneToneBit s)

@[simp] theorem oneToneBits_length (s : State) : (oneToneBits s).length = lenA s / ss s := by simp [oneToneBits]

theorem demodDecisions_of_not_ambiguous {s : State} (h : ∀ w < lenA s / ss s, ¬ Ambiguous s w) :
    demodDecisions s = (oneToneBits s).map some := by
  rw [demodDecisions, oneToneBits, List.map_map]
  exact List.map_congr_left fun w hw => decideWindow_of_not_ambiguous (h w (List.mem_range.mp hw))

/-! The end of DEMOD when every window has its bit. -/

theorem demodBits_map_some (ambpol : BitVec 2) (bits : List Bool) : demodBits ambpol (bits.map some) = bits := by
  induction bits with
  | nil => rfl
  | cons b bits ih => exact congrArg (b :: ·) ih

theorem firstAmbiguous_map_some (bits : List Bool) : firstAmbiguous (bits.map some) = none := by
  simp [firstAmbiguous, List.findIdx?_eq_none_iff]

theorem ambiguousCount_map_some (bits : List Bool) : ambiguousCount (bits.map some) = 0 := by
  simp [ambiguousCount, List.countP_eq_zero]

theorem finishDemod_map_some (d : Region) (bits : List Bool) (s : State) :
    finishDemod d (bits.map some) s = .next (complete 0#8
      { s with
        buf := Memory.write s.buf d.base (packBits bits)
        results :=
          { s.results with
            outLen := BitVec.ofNat 32 bits.length
            nwin := BitVec.ofNat 32 bits.length
            ambCount := 0
            firstAmb := 0xFFFFFFFF } }) := by
  simp only [finishDemod, firstAmbiguous_map_some, ambiguousCount_map_some, demodBits_map_some, List.length_map]
  simp [ambiguityWarning, succeed_eq, firstAmbWord, noWindow]

theorem demodChecks_of_starts {s : State} (h : DemodStarts s) : demodChecks s = .ok (demodDestination s) := by
  obtain ⟨hp, hsrc, hal, hdst, hap⟩ := h
  have hc : checkRegions s.memBytes [sampleRegion s.operands.srcA s.operands.lenA.toNat] (demodDestination s) =
      none := by
    rw [checkRegions_eq_none]
    simp only [List.forall_mem_singleton]
    exact ⟨checkRegion_sampleRegion hsrc hal, checkRegion_bitRegion hdst, regionsOverlap_of_apart hap⟩
  simp [demodChecks, hp, hc]

theorem exec_demod_of_not_ambiguous {s : State} (h : DemodStarts s) (hw : ∀ w < lenA s / ss s, ¬ Ambiguous s w) :
    exec .demod s = .next (complete 0#8
      { s with
        buf := Memory.write s.buf (dst s) (packBits (oneToneBits s))
        results :=
          { s.results with
            outLen := BitVec.ofNat 32 (lenA s / ss s)
            nwin := BitVec.ofNat 32 (lenA s / ss s)
            ambCount := 0
            firstAmb := 0xFFFFFFFF } }) := by
  have hfinish := finishDemod_map_some (demodDestination s) (oneToneBits s) s
  rw [oneToneBits_length] at hfinish
  rw [exec, execDemod, demodChecks_of_starts h, demodDecisions_of_not_ambiguous hw]
  exact hfinish

/-- Settles O23: DEMOD stores the packed one-tone bits and nothing else. -/
theorem demodDecidesEachWindowAlone : Obligations.DemodDecidesEachWindowAlone := by
  intro s h hw
  have hbit : ∀ {w}, w < 8 * ceil8 (lenA s / ss s) →
      Memory.bit (Memory.write s.buf (dst s) (packBits (oneToneBits s))) (dst s) w =
        (oneToneBits s).getD w false := fun h => Memory.bit_write_packBits (by rwa [oneToneBits_length])
  refine ⟨_, exec_demod_of_not_ambiguous h hw, fun w hlt => ?_, fun w hge hlt => ?_, fun a ha => ?_, rfl⟩
  · rw [complete_buf, hbit (by unfold ceil8; omega)]
    simp [oneToneBits, hlt, oneToneBit]
  · rw [complete_buf, hbit hlt]
    simp [oneToneBits, hge]
  · exact Memory.read_write_outside (by rwa [packBits_length, oneToneBits_length])

end Sys2Proof.Machine

/-! The decoder and the encoder (R64, R66, R67): a word is its opcode byte and its reserved bits. -/

namespace Sys2Proof

/-- A word is fixed by its two fields (R64). -/
theorem word_ext {v w : Word} (hreserved : v.extractLsb' 8 24 = w.extractLsb' 8 24)
    (hop : v.extractLsb' 0 8 = w.extractLsb' 0 8) : v = w := by
  have hhigh := congrArg BitVec.toNat hreserved
  have hlow := congrArg BitVec.toNat hop
  simp only [BitVec.extractLsb'_toNat, Nat.shiftRight_eq_div_pow] at hhigh hlow
  apply BitVec.eq_of_toNat_eq
  omega

theorem roundTrip (i : Instr) : Laws.RoundTrip.Statement i := by
  cases i with
  | nop => exact Laws.RoundTrip.nop
  | derive => exact Laws.RoundTrip.derive
  | mod => exact Laws.RoundTrip.mod
  | demod => exact Laws.RoundTrip.demod
  | embed => exact Laws.RoundTrip.embed
  | extract => exact Laws.RoundTrip.extract

theorem decodeWord_encode (i : Instr) : decodeWord (encode i) = .ok i := by
  obtain ⟨-, -, hdecode⟩ := roundTrip i
  exact hdecode

theorem wellFormedWord_encode (i : Instr) : wellFormedWord (encode i) = true := by
  obtain ⟨-, hwf, -⟩ := roundTrip i
  exact hwf

/-- A word whose reserved bits are 0 and whose opcode is a command's is that command's word. -/
theorem eq_encode_of_fields {v : Word} {i : Instr} (hreserved : v.extractLsb' 8 24 = 0#24)
    (hop : v.extractLsb' 0 8 = (encode i).extractLsb' 0 8) : v = encode i := by
  have hzero : (encode i).extractLsb' 8 24 = 0#24 := by cases i <;> rfl
  exact word_ext (hreserved.trans hzero.symm) hop

/-- The opcodes of R66 are the bytes up to 5. -/
theorem opcode_of_le_five {op : BitVec 8} (h : op.toNat ≤ 5) : ∃ i, op = (encode i).extractLsb' 0 8 := by
  have known : ∀ n : Fin 6, ∃ i, BitVec.ofNat 8 n = (encode i).extractLsb' 0 8 := by
    intro n
    fin_cases n
    exacts [⟨.nop, rfl⟩, ⟨.derive, rfl⟩, ⟨.mod, rfl⟩, ⟨.demod, rfl⟩, ⟨.embed, rfl⟩, ⟨.extract, rfl⟩]
  obtain ⟨i, hi⟩ := known ⟨op.toNat, by omega⟩
  exact ⟨i, by rw [← hi, BitVec.ofNat_toNat, BitVec.setWidth_eq]⟩

theorem wellFormedWord_iff (v : Word) :
    wellFormedWord v = true ↔ v.extractLsb' 8 24 = 0#24 ∧ (v.extractLsb' 0 8).toNat ≤ 5 := by
  rw [wellFormedWord, Bool.and_eq_true, reservedClear, beq_iff_eq, opcodeKnown, decide_eq_true_iff, BitVec.le_def]
  rfl

/-- The checks accept exactly the words of the six commands. -/
theorem wellFormedWord_iff_encode (v : Word) : wellFormedWord v = true ↔ ∃ i, v = encode i := by
  constructor
  · intro h
    obtain ⟨hreserved, hop⟩ := (wellFormedWord_iff v).mp h
    obtain ⟨i, hi⟩ := opcode_of_le_five hop
    exact ⟨i, eq_encode_of_fields hreserved hi⟩
  · rintro ⟨i, rfl⟩
    exact wellFormedWord_encode i

theorem wellFormedWord_of_decodeWord {v : Word} {i : Instr} (h : decodeWord v = .ok i) : wellFormedWord v = true := by
  rw [wellFormedWord_iff]
  by_contra hn
  obtain ⟨e, he⟩ := Machine.decodeWord_illegal (v := v) (by
    rw [not_and_or, not_le] at hn
    exact hn)
  cases h.symm.trans he

theorem decodeWord_eq_ok_iff (i : Instr) (v : Word) : decodeWord v = .ok i ↔ v = encode i := by
  constructor
  · intro h
    obtain ⟨j, rfl⟩ := (wellFormedWord_iff_encode v).mp (wellFormedWord_of_decodeWord h)
    cases (decodeWord_encode j).symm.trans h
    rfl
  · rintro rfl
    exact decodeWord_encode i

/-- Settles O1: the words of R66's table are `encode`'s, and the vector words are evaluated. -/
theorem commandWordsDecode : Obligations.CommandWordsDecode :=
  ⟨decodeWord_encode .nop, decodeWord_encode .derive, decodeWord_encode .mod, decodeWord_encode .demod,
    decodeWord_encode .embed, decodeWord_encode .extract, rfl, rfl, rfl, rfl, rfl⟩

/-- Settles O2: a word with a command's fields is that command's word, and every other word is illegal. -/
theorem decodeIsTheOpcodeMap : Obligations.DecodeIsTheOpcodeMap := by
  intro v
  refine ⟨fun h => Machine.decodeWord_illegal (.inl h), fun hreserved => ?_⟩
  have command : ∀ i, v.extractLsb' 0 8 = (encode i).extractLsb' 0 8 → decodeWord v = .ok i := fun i hop =>
    (decodeWord_eq_ok_iff i v).mpr (eq_encode_of_fields hreserved hop)
  exact ⟨command .nop, command .derive, command .mod, command .demod, command .embed, command .extract,
    fun h => Machine.decodeWord_illegal (.inr h)⟩

/-- Settles O3: `decodeWord_eq_ok_iff`, and the checks accept exactly the same words. -/
theorem onlyItsOwnWordDecodesToACommand : Obligations.OnlyItsOwnWordDecodesToACommand := by
  refine ⟨decodeWord_eq_ok_iff, fun v => ?_⟩
  rw [wellFormedWord_iff_encode]
  exact exists_congr fun i => (decodeWord_eq_ok_iff i v).symm

end Sys2Proof

/-! MOD's output as a function of its inputs alone (R86). -/

namespace Sys2Proof.Machine

open Sys2Proof.Safety

@[simp] theorem modOutput_length (s : State) : (modOutput s).length = lenA s * ss s := by simp [modOutput]

theorem sample_putSamples_modOutput {s : State} {j : Nat} (hj : j < lenA s * ss s) :
    Memory.sample (Memory.putSamples s.buf (dst s) (modOutput s)) (dst s + 8 * j) = modSample s j := by
  rw [Memory.sample_putSamples (by rwa [modOutput_length])]
  simp [modOutput]

/-- A sample of MOD's output reads SS, the tone tables and one bit of the bit buffer (R84, R85). -/
theorem modSample_congr {s u : State} {j : Nat} (hss : s.params.ss = u.params.ss)
    (h1 : s.tables.ref1 = u.tables.ref1) (h0 : s.tables.ref0 = u.tables.ref0)
    (hbit : Memory.bit s.buf s.operands.srcA.toNat (j / u.params.ss.toNat) =
      Memory.bit u.buf u.operands.srcA.toNat (j / u.params.ss.toNat)) :
    modSample s j = modSample u j := by
  rw [modSample, modSample, hss, hbit, h1, h0]

/-- Settles O20: sample `j` is `modSample` in both runs, and it reads the same bit and the same table entry. -/
theorem modDependsOnlyOnItsInputs : Obligations.ModDependsOnlyOnItsInputs := by
  intro s u hs hu hlen hss h1 h0 hbits
  have hcount : lenA s * ss s = lenA u * ss u := by
    simp only [lenA, ss, hlen, hss]
  refine ⟨_, _, execMod_of_runs hs, execMod_of_runs hu, congrArg (BitVec.ofNat 32) hcount, fun j hj => ?_⟩
  have hbit := hbits (j / ss s) (Nat.div_lt_of_lt_mul (by rwa [Nat.mul_comm]))
  rw [complete_buf, complete_buf, sample_putSamples_modOutput hj, sample_putSamples_modOutput (hcount ▸ hj)]
  exact modSample_congr hss h1 h0 (hss ▸ hbit)

end Sys2Proof.Machine

/-! The pseudo-instructions as the accesses that R74 gives for them: runs of register writes by an IDLE block, one
store to BUF, and the loop over STATUS. -/

namespace Sys2Proof.Machine

/-! Runs of register writes. -/

/-- A state with other turns to come and other answers given: the model's own lists, of which no access to a register
takes notice. -/
def State.withLists (s : State) (ts : List Turn) (rs : List Reply) : State := { s with turns := ts, replies := rs }

theorem State.withLists_self {s : State} {ts : List Turn} (h : s.turns = ts) : s.withLists ts s.replies = s := by
  rw [← h]
  rfl

theorem readOffset_withLists (off : BitVec 12) (s : State) (ts : List Turn) (rs : List Reply) :
    readOffset off (s.withLists ts rs) = readOffset off s := by
  unfold readOffset
  cases regAt off with
  | none => rfl
  | some r =>
    cases r with
    | half p h => cases p <;> rfl
    | _ => rfl

theorem writeReg_withLists (r : Reg) (v : Word) (s : State) (ts : List Turn) (rs : List Reply) :
    writeReg r v (s.withLists ts rs) = (writeReg r v s).withLists ts rs := by
  cases r with
  | half p h => cases p <;> rfl
  | ctrl =>
    simp only [writeReg, writeCtrl]
    split <;> rfl
  | _ => rfl

/-- No register write but a command takes an IDLE block out of IDLE (R47). -/
theorem writeReg_idle {r : Reg} (hr : r ≠ .cmd) (v : Word) {s : State} (hp : s.phase = .idle) :
    (writeReg r v s).phase = .idle := by
  cases r with
  | cmd => exact absurd rfl hr
  | half p h => cases p <;> exact hp
  | ctrl =>
    simp only [writeReg, writeCtrl]
    split
    · rfl
    · exact hp
  | _ => exact hp

/-- `Writes ts s t`: the accesses `ts` write registers, of which only the last may be CMD, and take an IDLE block from
`s` to `t`, the model's lists aside (`Writes.run`). -/
inductive Writes : List Turn → State → State → Prop where
  | done {s : State} : Writes [] s s
  | command {s : State} (i : Instr) : Writes [asmWr .cmd (encode i)] s (accept (encode i) s)
  | cons {s t : State} {r : Reg} {v : Word} {ts : List Turn} (h : Writes ts (writeReg r v s) t)
      (hr : r ≠ .cmd := by nofun) : Writes (asmWr r v :: ts) s t

theorem replicate_succ_append {α : Type*} (n : Nat) (x : α) (xs : List α) :
    List.replicate n x ++ x :: xs = List.replicate (n + 1) x ++ xs := by
  rw [List.replicate_succ', List.append_assoc, List.singleton_append]

theorem step_asmWr {s : State} (hp : s.phase = .idle) (r : Reg) (v : Word) (ts : List Turn) (rs : List Reply) :
    step (s.withLists (asmWr r v :: ts) rs) = .next ((writeReg r v s).withLists ts (.written :: rs)) :=
  (step_regWrite_idle (s := s.withLists (asmWr r v :: ts) rs) hp rfl).trans
    (congrArg (fun u => Host.Outcome.next (answer .written u)) (writeReg_withLists r v s ts rs))

/-- One step for each write, each answered on the bus. -/
theorem Writes.run_withLists {ts : List Turn} {s t : State} (h : Writes ts s t) (hp : s.phase = .idle)
    (rest : List Turn) (rs : List Reply) :
    Host.Core.run Sys2Proof.core ts.length (s.withLists (ts ++ rest) rs) =
      .next (t.withLists rest (List.replicate ts.length .written ++ rs)) := by
  induction h generalizing rs with
  | done => rfl
  | command i => exact run_succ (step_asmWr hp .cmd (encode i) rest rs) 0
  | @cons s t r v ts _ hr ih =>
    have hreplies := replicate_succ_append ts.length Reply.written rs
    exact (run_succ (step_asmWr hp r v (ts ++ rest) rs) _).trans
      ((ih (writeReg_idle hr v hp) _).trans (by rw [hreplies, List.length_cons]))

theorem Writes.run {ts rest : List Turn} {s t : State} {n : Nat} (h : Writes ts s t) (hp : s.phase = .idle)
    (hn : ts.length = n) (ht : s.turns = ts ++ rest) :
    Host.Core.run Sys2Proof.core n s = .next (t.withLists rest (List.replicate n .written ++ s.replies)) := by
  have hrun := h.run_withLists hp rest s.replies
  rwa [State.withLists_self ht, hn] at hrun

/-! The state that a statement's writes leave. -/

theorem withHalf_halves (x y : F64) : withHalf .hi (halfOf .hi x) (withHalf .lo (halfOf .lo x) y) = x := by
  have hlow : (withHalf .lo (halfOf .lo x) y).extractLsb' 0 32 = x.extractLsb' 0 32 :=
    halfOf_withHalf_same .lo (halfOf .lo x) y
  refine (congrArg (halfOf .hi x ++ ·) hlow).trans ?_
  exact (BitVec.extractLsb'_append_extractLsb'_eq_extractLsb' (x := x) rfl).trans BitVec.extractLsb'_eq_self

/-- A 64-bit register with both halves written: the read-write ones hold the value, the others ignore it (R20). -/
def setReg64 (r : Reg64) (x : F64) (s : State) : State :=
  match r with
  | .ampIn => { s with ampIn := x }
  | .bpIn => { s with bpIn := x }
  | .mix => { s with mix := x }
  | .loc => { s with operands := { s.operands with loc := x } }
  | _ => s

theorem writeReg_halves (r : Reg64) (x : F64) (s : State) :
    writeReg (.half r .hi) (halfOf .hi x) (writeReg (.half r .lo) (halfOf .lo x) s) = setReg64 r x s := by
  cases r with
  | ampIn => exact congrArg (fun y => { s with ampIn := y }) (withHalf_halves x s.ampIn)
  | bpIn => exact congrArg (fun y => { s with bpIn := y }) (withHalf_halves x s.bpIn)
  | mix => exact congrArg (fun y => { s with mix := y }) (withHalf_halves x s.mix)
  | loc =>
    exact congrArg (fun y => { s with operands := { s.operands with loc := y } }) (withHalf_halves x s.operands.loc)
  | _ => rfl

theorem setReg64_readOnly {r : Reg64} (h : r ∉ [Reg64.ampIn, .bpIn, .mix, .loc]) (x : F64) (s : State) :
    setReg64 r x s = s := by
  cases r with
  | ampIn | bpIn | mix | loc => simp at h
  | _ => rfl

/-- The two accesses of `wrf` (R74). -/
theorem Writes.wrf {s t : State} {r : Reg64} {x : F64} {ts : List Turn} (h : Writes ts (setReg64 r x s) t) :
    Writes (asmWr (.half r .lo) (halfOf .lo x) :: asmWr (.half r .hi) (halfOf .hi x) :: ts) s t :=
  .cons (.cons (writeReg_halves r x s ▸ h))

/-- Acceptance of a command's word, by its opcode (R47, R66). -/
theorem accept_encode (i : Instr) (s : State) :
    accept (encode i) s =
      { s with
        pending := ((encode i).extractLsb' 0 8).setWidth 32
        lastop := (encode i).extractLsb' 0 8
        phase := .busy } := by
  cases i <;> rfl

/-! CTRL, INT_STATUS and WARN. -/

theorem policyWord_fields : ∀ (amb : BitVec 2) (val : BitVec 1),
    (0#28 ++ val ++ amb ++ 0#1 : Word).getLsbD 0 = false ∧ (0#28 ++ val ++ amb ++ 0#1 : Word).extractLsb' 1 2 = amb ∧
      (0#28 ++ val ++ amb ++ 0#1 : Word).getLsbD 3 = val.getLsbD 0 := by
  decide

theorem writeReg_policy (amb : BitVec 2) (val : BitVec 1) (s : State) :
    writeReg .ctrl (0#28 ++ val ++ amb ++ 0#1) s = { s with ambpol := amb, valpol := val.getLsbD 0 } := by
  obtain ⟨hsrst, hamb, hval⟩ := policyWord_fields amb val
  rw [writeReg, writeCtrl, hsrst, hamb, hval]
  rfl

theorem writeReg_ack (s : State) : writeReg .intStatus 0x3 s = { s with intStatus := 0 } :=
  congrArg (fun w => { s with intStatus := w }) (BitVec.and_zero (x := s.intStatus))

theorem writeReg_clrwarn (s : State) : writeReg .warn 0x1F s = { s with warn := 0 } :=
  congrArg (fun w => { s with warn := w }) (BitVec.and_zero (x := s.warn))

theorem writeReg_srst (s : State) : writeReg .ctrl 0x1 s = resetRegisters s := by
  rw [writeReg, writeCtrl, if_pos (by decide)]

/-! The accesses of each command (R74). -/

theorem writes_run (s : State) (i : Instr) :
    Writes (assemble (.run i)) s
      { s with
        pending := ((encode i).extractLsb' 0 8).setWidth 32
        lastop := (encode i).extractLsb' 0 8
        phase := .busy } := by
  rw [← accept_encode]
  exact .command i

theorem writes_deriveWith (s : State) (a bp : F64) (r : Word) :
    Writes (assemble (.deriveWith a bp r)) s (accept (encode .derive) { s with ampIn := a, bpIn := bp, redIn := r }) :=
  .wrf (.wrf (.cons (.command .derive)))

theorem writes_modWith (s : State) (src nbits d : Word) :
    Writes (assemble (.modWith src nbits d)) s
      (accept (encode .mod) { s with operands := { s.operands with srcA := src, lenA := nbits, dst := d } }) :=
  .cons (.cons (.cons (.command .mod)))

theorem writes_demodWith (s : State) (src nsamp d : Word) :
    Writes (assemble (.demodWith src nsamp d)) s
      (accept (encode .demod) { s with operands := { s.operands with srcA := src, lenA := nsamp, dst := d } }) :=
  .cons (.cons (.cons (.command .demod)))

theorem writes_embedWith (s : State) (h hlen hrate p plen prate : Word) (loc : F64) (d : Word) :
    Writes (assemble (.embedWith h hlen hrate p plen prate loc d)) s
      (accept (encode .embed)
        { s with
          operands :=
            { srcA := h, lenA := hlen, rateA := hrate, srcB := p, lenB := plen, rateB := prate, dst := d
              width := s.operands.width, loc := loc } }) := by
  refine .cons (.cons (.cons (.cons (.cons (.cons (.wrf (.cons ?_)))))))
  simp only [writeReg, setReg64]
  exact .command .embed

theorem writes_extractWith (s : State) (m mlen mrate h hlen hrate : Word) (loc : F64) (w d : Word) :
    Writes (assemble (.extractWith m mlen mrate h hlen hrate loc w d)) s
      (accept (encode .extract)
        { s with
          operands :=
            { srcA := m, lenA := mlen, rateA := mrate, srcB := h, lenB := hlen, rateB := hrate, dst := d
              width := w, loc := loc } }) := by
  refine .cons (.cons (.cons (.cons (.cons (.cons (.wrf (.cons (.cons ?_))))))))
  simp only [writeReg, setReg64]
  exact .command .extract

/-! The other statements that write registers (R74). -/

theorem writes_wrf (s : State) (r : Reg64) (x : F64) : Writes (assemble (.wrf r x)) s (setReg64 r x s) := .wrf .done

theorem writes_wrf_readOnly (s : State) {r : Reg64} (h : r ∉ [Reg64.ampIn, .bpIn, .mix, .loc]) (x : F64) :
    Writes (assemble (.wrf r x)) s s := by
  have written := writes_wrf s r x
  rwa [setReg64_readOnly h] at written

theorem writes_policy (s : State) (amb : BitVec 2) (val : BitVec 1) :
    Writes (assemble (.policy amb val)) s { s with ambpol := amb, valpol := val.getLsbD 0 } :=
  .cons (writeReg_policy amb val s ▸ .done)

theorem writes_ack (s : State) : Writes (assemble .ack) s { s with intStatus := 0 } := .cons (writeReg_ack s ▸ .done)

theorem writes_clrwarn (s : State) : Writes (assemble .clrwarn) s { s with warn := 0 } :=
  .cons (writeReg_clrwarn s ▸ .done)

theorem writes_srst (s : State) : Writes (assemble .srst) s (resetRegisters s) := .cons (writeReg_srst s ▸ .done)

/-! The store to BUF. -/

theorem Memory.sample_writeLE (m : Memory) (a : Nat) (x : F64) :
    Memory.sample (Memory.writeLE m a 8 x.toNat) a = x := by
  rw [Memory.sample, Memory.readLE_writeLE, Nat.mod_eq_of_lt (show x.toNat < 256 ^ 8 from x.isLt),
    BitVec.ofNat_toNat, BitVec.setWidth_eq]

/-- `bwf` (R74). -/
theorem run_bwf {s : State} (hp : s.phase = .idle) {addr : Nat} {x : F64} {rest : List Turn} (hal : addr % 8 = 0)
    (hin : addr + 8 ≤ s.memBytes) (ht : s.turns = assemble (.bwf addr x) ++ rest) :
    Host.Core.run Sys2Proof.core 1 s =
      .next
        (State.withLists { s with buf := Memory.writeLE s.buf addr 8 x.toNat } rest (.written :: s.replies)) :=
  run_succ (step_bufWrite_idle hp ht (bufAccessOk_good (by simp) hal hin)) 0

/-! The loop over STATUS. -/

theorem hostRegRead_status (s : State) (ts : List Turn) (rs : List Reply) :
    hostRegRead 4 (regOffset .status) (s.withLists ts rs) =
      s.withLists ts (.regData (readOffset 0x00C s) :: rs) := by
  rw [hostRegRead, regAccessOk_regOffset, if_pos rfl, readOffset_withLists]
  rfl

/-- A block that is not BUSY ends the loop at its next read (R74). -/
theorem poll_ends {s : State} (hp : s.phase = .idle) {n : Nat} {rest : List Turn}
    (ht : s.turns = .pollStatus n :: rest) :
    (readOffset 0x00C s).getLsbD 0 = false ∧
      step s = .next (s.withLists rest (.regData (readOffset 0x00C s) :: s.replies)) := by
  have hbit : (readOffset 0x00C s).getLsbD 0 = decide (s.phase = .busy) := readOffset_status_bit s
  have hstep : step s = pollTurn n rest s := by rw [step, nextTurn, ht]
  refine ⟨by rw [hbit, hp]; rfl, hstep.trans ?_⟩
  exact (pollTurn_idle hp n rest).trans (congrArg _ (hostRegRead_status s rest s.replies))

/-- The reads of the loop before the Engine's step, each of which shows the same BUSY block (R74, R132). -/
theorem run_poll_busy {s : State} (hp : s.phase = .busy) (n k : Nat) (rest : List Turn) (rs : List Reply) :
    Host.Core.run Sys2Proof.core (n + k) (s.withLists (.pollStatus n :: rest) rs) =
      Host.Core.run Sys2Proof.core k
        (s.withLists (.pollStatus 0 :: rest) (List.replicate n (.regData (readOffset 0x00C s)) ++ rs)) := by
  induction n generalizing rs with
  | zero => rw [Nat.zero_add]; rfl
  | succ n ih =>
    have hstep : step (s.withLists (.pollStatus (n + 1) :: rest) rs) =
        .next (s.withLists (.pollStatus n :: rest) (.regData (readOffset 0x00C s) :: rs)) :=
      (pollTurn_busy (s := s.withLists (.pollStatus (n + 1) :: rest) rs) hp n rest).trans
        (congrArg _ (hostRegRead_status s _ rs))
    rw [Nat.succ_add, ← replicate_succ_append]
    exact (run_succ hstep _).trans (ih _)

/-- `wait` on a BUSY block: its reads, then the step in which the Engine completes its command. -/
theorem run_poll_completes {s : State} (hp : s.phase = .busy) {n : Nat} {rest : List Turn}
    (ht : s.turns = .pollStatus n :: rest) :
    ∃ t, Host.Core.run Sys2Proof.core (n + 1) s = .next t ∧
      Completes
        (s.withLists (.pollStatus 0 :: rest) (List.replicate n (.regData (readOffset 0x00C s)) ++ s.replies)) t := by
  have hrun := run_poll_busy hp n 1 rest s.replies
  rw [State.withLists_self ht] at hrun
  generalize hu : s.withLists _ _ = u at hrun ⊢
  obtain ⟨t, hstep, -⟩ := step_proceeds u
  have hpending : step u = runPending u := by
    subst hu
    exact step_waiting hp (.pollStatus rest)
  exact ⟨t, hrun.trans (run_succ hstep 0), runPending_completes (hpending.symm.trans hstep)⟩

/-- Settles O60: the writes of each expansion as `Writes`, the store as the step of a BUF access, `wait` as the loop
over STATUS. -/
theorem pseudoInstructionsDoWhatTheirExpansionsSay : Obligations.PseudoInstructionsDoWhatTheirExpansionsSay := by
  refine ⟨fun s rest hp => ?_, fun s n rest hp ht => ?_⟩
  · exact ⟨fun a bp r => (writes_deriveWith s a bp r).run hp rfl,
      fun src nbits d => (writes_modWith s src nbits d).run hp rfl,
      fun src nsamp d => (writes_demodWith s src nsamp d).run hp rfl,
      fun h hlen hrate p plen prate loc d => (writes_embedWith s h hlen hrate p plen prate loc d).run hp rfl,
      fun m mlen mrate h hlen hrate loc w d =>
        (writes_extractWith s m mlen mrate h hlen hrate loc w d).run hp rfl,
      fun i => (writes_run s i).run hp rfl,
      fun x => ⟨(writes_wrf s .ampIn x).run hp rfl, (writes_wrf s .bpIn x).run hp rfl,
        (writes_wrf s .mix x).run hp rfl, (writes_wrf s .loc x).run hp rfl⟩,
      fun r x hr => (writes_wrf_readOnly s hr x).run hp rfl,
      fun addr x hal hin => ⟨_, run_bwf hp hal hin, Memory.sample_writeLE s.buf addr x,
        fun b hb => Memory.read_writeLE_outside hb⟩,
      fun amb val => (writes_policy s amb val).run hp rfl, (writes_ack s).run hp rfl,
      (writes_clrwarn s).run hp rfl, (writes_srst s).run hp rfl, fun n ht => poll_ends hp ht⟩
  · obtain ⟨t, hrun, hphase, hturns, hreplies, -, hcmdcnt⟩ := run_poll_completes hp ht
    have hbit : (readOffset 0x00C s).getLsbD 0 = decide (s.phase = .busy) := readOffset_status_bit s
    exact ⟨t, hrun, hbit.trans (decide_eq_true hp), hcmdcnt, hturns, hreplies, poll_ends hphase hturns⟩

end Sys2Proof.Machine

/-! DERIVE (R75 to R81): what it writes, and that no step leaves a mixture of two parameter sets. -/

namespace Sys2Proof.Machine

open Sys2Proof.Safety

/-! The parameter set that DERIVE writes. -/

theorem deriveParams_red_toNat {n : Nat} (hn : n ≤ 100) (a b : F64) : (deriveParams a b n).red.toNat = n :=
  Nat.mod_eq_of_lt (by omega)

theorem deriveParams_ss_toNat {n : Nat} (hn : n ≤ 100) (a b : F64) : (deriveParams a b n).ss.toNat = 2 * n :=
  Nat.mod_eq_of_lt (by omega)

theorem entry_of_getElem? {t : List F64} {k : Nat} {x : F64} (h : t[k]? = some x) : entry t k = x := by
  rw [entry, List.getD_eq_getElem?_getD, h, Option.getD_some]

theorem fillTable_getElem?_rest {n k : Nat} (h : n ≤ k) (f : Nat → F64) (old : List F64) :
    (fillTable n f old)[k]? = old[k]? := by
  rw [fillTable, List.getElem?_append_right (by simpa using h), List.getElem?_drop, List.length_map,
    List.length_range, Nat.add_sub_cancel' h]

section
variable (p : Params) {n k : Nat} (old : Tables)

theorem deriveTables_taxis (h : k < n) : (deriveTables p n old).taxis[k]? = some (taxisEntry p k) :=
  fillTable_getElem? h

theorem deriveTables_cref1 (h : k < n) : (deriveTables p n old).cref1[k]? = some (crefEntry p p.wOne k) :=
  fillTable_getElem? h

theorem deriveTables_cref0 (h : k < n) : (deriveTables p n old).cref0[k]? = some (crefEntry p p.wZero k) :=
  fillTable_getElem? h

/-- The REF entries are the amplitude times the CREF entries (R80). -/
theorem deriveTables_ref1 (h : k < n) :
    (deriveTables p n old).ref1[k]? = some (F64.mul p.amp (entry (deriveTables p n old).cref1 k)) := by
  rw [entry_of_getElem? (deriveTables_cref1 p old h)]
  exact fillTable_getElem? h

theorem deriveTables_ref0 (h : k < n) :
    (deriveTables p n old).ref0[k]? = some (F64.mul p.amp (entry (deriveTables p n old).cref0 k)) := by
  rw [entry_of_getElem? (deriveTables_cref0 p old h)]
  exact fillTable_getElem? h

end

/-- `s` with the parameter set of amplitude `a`, bit period `b` and redundancy `n` in force (R77 to R81). -/
def withParameterSet (a b : F64) (n : Nat) (s : State) : State :=
  { s with
    params := deriveParams a b n
    tables := deriveTables (deriveParams a b n) (2 * n) s.tables
    pvalid := true }

/-- A parameter set that DERIVE has written is whole (R77 to R81). -/
theorem paramsConsistent_withParameterSet (a b : F64) {n : Nat} (hn : n ≤ 100) (s : State) :
    ParamsConsistent (withParameterSet a b n s) := by
  have hred : (withParameterSet a b n s).params.red.toNat = n := deriveParams_red_toNat hn a b
  have hss : (withParameterSet a b n s).params.ss.toNat = 2 * n := deriveParams_ss_toNat hn a b
  constructor
  case br | wOne | wZero => exact fun _ => rfl
  case fOne | fZero | rp => exact fun _ => by rw [hred]; rfl
  case ss => exact fun _ => hss.trans (by rw [hred])
  all_goals
    intro _ k hk
    rw [hss] at hk
  case taxis => exact deriveTables_taxis _ _ hk
  case cref1 => exact deriveTables_cref1 _ _ hk
  case cref0 => exact deriveTables_cref0 _ _ hk
  case ref1 => exact deriveTables_ref1 _ _ hk
  case ref0 => exact deriveTables_ref0 _ _ hk

/-! What a step does to the parameter set: it leaves it, it drops it, or it puts a whole new one in its place. -/

/-- `t` has the parameter registers, the tables and PVALID of `s`. -/
def SameParameterSet (s t : State) : Prop := t.params = s.params ∧ t.tables = s.tables ∧ t.pvalid = s.pvalid

/-- `ParamsConsistent` speaks of the parameter registers, the tables and PVALID only. -/
theorem paramsConsistent_of_same {s t : State} (hs : ParamsConsistent s) (h : SameParameterSet s t) :
    ParamsConsistent t := by
  obtain ⟨hparams, htables, hpvalid⟩ := h
  cases t
  subst hparams htables hpvalid
  exact { hs with }

theorem paramsConsistent_commandEnd {i : Instr} {s t : State} (h : ParamsConsistent s) (he : CommandEnd s i t) :
    ParamsConsistent t := by
  cases he with
  | plain | alignmentLoss | stored => exact paramsConsistent_of_same h ⟨rfl, rfl, rfl⟩
  | @derived a b n w _ _ _ hhi =>
    exact paramsConsistent_of_same (paramsConsistent_withParameterSet a b hhi s) ⟨rfl, rfl, rfl⟩

theorem paramsConsistent_engineTurn {s t : State} (h : ParamsConsistent s) (ht : engineTurn s = .next t) :
    ParamsConsistent t := by
  cases hp : s.phase with
  | idle =>
    rw [engineTurn_idle hp] at ht
    cases ht
    exact h
  | busy =>
    rw [engineTurn_busy hp] at ht
    cases hd : decodeWord s.pending with
    | ok i => exact paramsConsistent_commandEnd h (exec_commandEnd ((runPending_ok hd).symm.trans ht))
    | error e =>
      rw [runPending_error hd] at ht
      cases ht
      exact paramsConsistent_of_same h ⟨rfl, rfl, rfl⟩

/-- The derived registers and PVALID are read-only, so a register write leaves the parameter set, unless it is the soft
reset, which drops it (R20, R121). -/
theorem writeReg_parameterSet (r : Reg) (v : Word) (s : State) :
    SameParameterSet s (writeReg r v s) ∨ (writeReg r v s).pvalid = false := by
  cases r with
  | ctrl =>
    simp only [writeReg, writeCtrl]
    split
    · exact .inr rfl
    · exact .inl ⟨rfl, rfl, rfl⟩
  | half q k => cases q <;> exact .inl ⟨rfl, rfl, rfl⟩
  | _ => exact .inl ⟨rfl, rfl, rfl⟩

theorem paramsConsistent_writeOffset {s : State} (h : ParamsConsistent s) (off : BitVec 12) (v : Word) :
    ParamsConsistent (writeOffset off v s) := by
  unfold writeOffset
  split
  · exact paramsConsistent_of_same h ⟨rfl, rfl, rfl⟩
  · cases regAt off with
    | none => exact h
    | some r =>
      obtain hsame | hdropped := writeReg_parameterSet r v s
      · exact paramsConsistent_of_same h hsame
      · exact paramsConsistent_of_pvalid_false hdropped

theorem paramsConsistent_hostRegWrite {s : State} (h : ParamsConsistent s) (width : Nat) (off : BitVec 12) (v : Word) :
    ParamsConsistent (hostRegWrite width off v s) := by
  unfold hostRegWrite
  split
  · exact paramsConsistent_of_same (paramsConsistent_writeOffset h off v) ⟨rfl, rfl, rfl⟩
  · exact paramsConsistent_of_same h ⟨rfl, rfl, rfl⟩

theorem hostRegRead_parameterSet (width : Nat) (off : BitVec 12) (s : State) :
    SameParameterSet s (hostRegRead width off s) := by
  unfold hostRegRead
  split <;> exact ⟨rfl, rfl, rfl⟩

theorem hostBufWrite_parameterSet (width addr : Nat) (v : BitVec 64) (s : State) :
    SameParameterSet s (hostBufWrite width addr v s) := by
  unfold hostBufWrite
  split <;> exact ⟨rfl, rfl, rfl⟩

theorem hostBufRead_parameterSet (width addr : Nat) (s : State) :
    SameParameterSet s (hostBufRead width addr s) := by
  unfold hostBufRead
  split <;> exact ⟨rfl, rfl, rfl⟩

theorem platformReset_pvalid (s : State) : (platformReset s).pvalid = false := by
  unfold platformReset
  split <;> rfl

/-- Settles O45: each case of `step_cases` leaves the parameter set, drops it, or is a DERIVE that writes all of it. -/
theorem everyStepKeepsTheParameterSetWhole : Obligations.EveryStepKeepsTheParameterSetWhole := by
  intro s t hs hstep
  have h : ∀ turns, ParamsConsistent { s with turns := turns } := fun _ => { hs with }
  obtain ⟨turns, ht, -⟩ | ⟨rest, width, off, v, -, ht⟩ | ⟨rest, width, off, -, ht⟩ | ⟨rest, n, turns, -, ht, -⟩ |
    ⟨rest, width, addr, v, -, -, ht⟩ | ⟨rest, width, addr, -, -, ht⟩ | ⟨rest, -, ht⟩ | ⟨rest, -, ht⟩ :=
    step_cases hstep
  · exact paramsConsistent_engineTurn (h turns) ht
  all_goals cases ht
  · exact paramsConsistent_hostRegWrite (h rest) width off v
  · exact paramsConsistent_of_same (h rest) (hostRegRead_parameterSet _ _ _)
  · exact paramsConsistent_of_same (h turns) (hostRegRead_parameterSet _ _ _)
  · exact paramsConsistent_of_same (h rest) (hostBufWrite_parameterSet _ _ _ _)
  · exact paramsConsistent_of_same (h rest) (hostBufRead_parameterSet _ _ _)
  · exact paramsConsistent_of_pvalid_false (platformReset_pvalid _)
  · exact paramsConsistent_of_pvalid_false rfl

/-! DERIVE's two ends (R75). -/

theorem inputsInRange_iff (s : State) :
    (ampInRange s.ampIn && bpInRange s.bpIn && redInRange s.redIn) = true ↔ InputsInRange s := by
  rw [Bool.and_eq_true, Bool.and_eq_true, and_assoc]

theorem execDerive_rejects {s : State} (hv : s.valpol = true) (h : ¬ InputsInRange s) :
    execDerive s = .next (complete 0x01#8 s) := by
  rw [← inputsInRange_iff, Bool.not_eq_true] at h
  unfold execDerive
  simp only [h, hv, Bool.not_false, Bool.and_self, if_true]
  rfl

/-- Settles O14. -/
theorem deriveRejectsInputsOutOfRange : Obligations.DeriveRejectsInputsOutOfRange := fun _ => execDerive_rejects

/-- The amplitude, bit period and redundancy that DERIVE works with (R75). -/
def usedAmp (s : State) : F64 := if ampInRange s.ampIn then s.ampIn else defAmp
def usedBp (s : State) : F64 := if bpInRange s.bpIn then s.bpIn else defBp
def usedRed (s : State) : Nat := if redInRange s.redIn then s.redIn.toNat else defRed

theorem usedRed_bounds (s : State) : 2 ≤ usedRed s ∧ usedRed s ≤ 100 := red_input_bounds s.redIn

/-- The state in which a DERIVE that runs completes with code 0. -/
def derived (s : State) : State :=
  { withParameterSet (usedAmp s) (usedBp s) (usedRed s) s with
    warn := s.warn ||| substitutionWarnings (ampInRange s.ampIn) (bpInRange s.bpIn) (redInRange s.redIn) }

theorem or_substitutionWarnings (w : BitVec 5) (va vb vr : Bool) :
    w ||| substitutionWarnings va vb vr =
      w ||| (if va then 0#5 else warnAmpSub) ||| (if vb then 0#5 else warnBpSub) |||
        (if vr then 0#5 else warnRedSub) := by
  rw [substitutionWarnings, ← BitVec.or_assoc, ← BitVec.or_assoc]

/-- DERIVE raises CONFIG_RANGE or runs. -/
theorem execDerive_eq (s : State) :
    execDerive s = .next (complete 0x01#8 s) ∨ execDerive s = .next (complete 0#8 (derived s)) := by
  obtain ⟨-, -, h⟩ | ⟨a, b, n, rfl, rfl, rfl, h⟩ := execDerive_cases (s := s) rfl
  · exact .inl h
  · exact .inr h

theorem execDerive_runs {s : State} (h : DeriveRuns s) : execDerive s = .next (complete 0#8 (derived s)) := by
  obtain ⟨hv, hout, -⟩ | ⟨a, b, n, rfl, rfl, rfl, hr⟩ := execDerive_cases (s := s) rfl
  · obtain hsub | hin := h
    · rw [hsub] at hv
      cases hv
    · rw [(inputsInRange_iff s).mpr hin] at hout
      cases hout
  · exact hr

/-- Settles O13. -/
theorem deriveWritesTheParameterSet : Obligations.DeriveWritesTheParameterSet := by
  intro s hs
  have hn := (usedRed_bounds s).2
  refine ⟨_, execDerive_runs hs, ⟨rfl, rfl, rfl, rfl, rfl, rfl, rfl, rfl, deriveParams_red_toNat hn _ _,
    deriveParams_ss_toNat hn _ _, fun k hk => ?_, fun k hk => ?_⟩, ?_, rfl⟩
  · exact ⟨deriveTables_taxis _ _ hk, deriveTables_cref1 _ _ hk, deriveTables_cref0 _ _ hk,
      deriveTables_ref1 _ _ hk, deriveTables_ref0 _ _ hk⟩
  · have rest := fun f old (_ : k < old.length) => fillTable_getElem?_rest hk f old
    exact ⟨rest _ _, rest _ _, rest _ _, rest _ _, rest _ _⟩
  · exact or_substitutionWarnings s.warn _ _ _

end Sys2Proof.Machine

/-! Results that need no rounding, and a bound on those that do (R9): halving, doubling, a factor of 1.0 or +0.0. -/

namespace Sys2Proof.F64

open Sys2Proof.Machine

/-- A finite pattern is its sign bit and its value. -/
theorem eq_of_toRat_eq {x y : F64} (hs : negative x = negative y) (h : toRat x = toRat y) : x = y := by
  refine ext_bits hs (magUnits_strictMono.injective ?_)
  rw [toRat_eq_iff, intUnits, intUnits, hs] at h
  rw [← units_eq, ← units_eq]
  split at h <;> omega

theorem abs_toRat_lt_overflowBound {x : F64} (h : finite x = true) : |(toRat x : ℝ)| < overflowBound := by
  have hU : (0 : ℝ) < unitsPerOne := unitsPerOne_cast_pos
  have hle : (units x : ℝ) ≤ magUnits (infBits - 1) := by
    rw [units_eq]
    exact_mod_cast magUnits_strictMono.monotone (Nat.le_sub_one_of_lt ((finite_iff x).mp h))
  rw [abs_toRat, ← unitsPerOne_cast, overflowBound_eq, div_lt_div_iff_of_pos_right hU]
  refine hle.trans_lt ?_
  rw [maxFinite_cast, overflowUnits]
  exact mul_lt_mul_of_pos_right (by norm_num) (by positivity)

/-- Rounding a binary64 value gives that value. -/
theorem RoundsTo.eq_of_exact {q : ℚ} {y z : F64} (h : RoundsTo (q : ℝ) z) (hy : finite y = true) (hq : toRat y = q)
    (hs : negative z = negative y) : z = y := by
  subst hq
  obtain ⟨-, hall⟩ := h.1 (abs_toRat_lt_overflowBound hy)
  have hle := (hall y hy).1
  rw [sub_self, abs_zero] at hle
  have hz : (toRat z : ℝ) = toRat y := sub_eq_zero.mp (abs_nonpos_iff.mp hle)
  exact eq_of_toRat_eq hs (by exact_mod_cast hz)

theorem two_pow_lt_overflowBound : (2 : ℝ) ^ 40 < overflowBound := by
  have h : (1 : ℝ) ≤ 2 ^ 970 := one_le_pow₀ (by norm_num)
  unfold overflowBound
  generalize (2 : ℝ) ^ 970 = g at h ⊢
  linarith

/-- The rounding of a number is no farther from it than 0 is, and no less than 1 when the number is not. -/
theorem RoundsTo.bounds {q : ℚ} {z : F64} (h : RoundsTo (q : ℝ) z) (h0 : 0 ≤ q) (hq : q ≤ 2 ^ 40) :
    finite z = true ∧ toRat z ≤ 2 * q ∧ (1 ≤ q → 1 ≤ toRat z) := by
  have h0' : (0 : ℝ) ≤ q := Rat.cast_nonneg.mpr h0
  have hq' : (q : ℝ) ≤ 2 ^ 40 := by exact_mod_cast hq
  obtain ⟨hz, hall⟩ := h.1 ((abs_of_nonneg h0').trans_lt (hq'.trans_lt two_pow_lt_overflowBound))
  refine ⟨hz, ?_, fun h1 => ?_⟩
  · have hzero : |(toRat z - q : ℝ)| ≤ |(toRat posZero - q : ℝ)| := (hall posZero (by decide)).1
    have hup : |toRat z - q| ≤ |toRat posZero - q| := by exact_mod_cast hzero
    rw [toRat_posZero, zero_sub, abs_neg, abs_of_nonneg h0] at hup
    linarith [le_abs_self (toRat z - q)]
  · have hone : |(toRat z - q : ℝ)| ≤ |(toRat one - q : ℝ)| := (hall one (by decide)).1
    have hlow : |toRat z - q| ≤ |toRat one - q| := by exact_mod_cast hone
    rw [toRat_one, abs_of_nonpos (a := 1 - q) (by linarith)] at hlow
    linarith [neg_abs_le (toRat z - q)]

/-- A finite pattern with sign bit 0. -/
def IsMagnitude (x : F64) : Prop := finite x = true ∧ negative x = false

theorem toRat_of_magnitude {x : F64} (hx : IsMagnitude x) : toRat x = units x / unitsPerOne := by
  rw [toRat, intUnits, hx.2, if_neg (by decide), Int.cast_natCast]

theorem toRat_nonneg {x : F64} (hx : IsMagnitude x) : 0 ≤ toRat x := by
  rw [toRat_of_magnitude hx]
  positivity

theorem isMagnitude_of_toRat_pos {x : F64} (hx : finite x = true) (h : 0 < toRat x) : IsMagnitude x := by
  refine ⟨hx, Bool.eq_false_of_not_eq_true fun hs => ?_⟩
  have hneg : toRat x ≤ 0 := by
    rw [toRat, intUnits, if_pos hs, Int.cast_neg, Int.cast_natCast, neg_div]
    exact neg_nonpos.mpr (by positivity)
  exact absurd h (not_lt.mpr hneg)

theorem isMagnitude_posZero : IsMagnitude posZero := by constructor <;> decide

theorem isMagnitude_one : IsMagnitude one := by constructor <;> decide

theorem isMagnitude_two : IsMagnitude two := by constructor <;> decide

theorem toRat_two : toRat two = 2 := by
  have h : intUnits two = 2 * intUnits one := by decide +kernel
  rw [toRat, h, Int.cast_mul, mul_div_assoc, ← toRat, toRat_one, mul_one, Int.cast_ofNat]

theorem negative_mul {x y : F64} (hx : IsMagnitude x) (hy : IsMagnitude y) : negative (mul x y) = false := by
  rw [mul_of_finite hx.1 hy.1, negative_roundUnits, hx.2, hy.2, bne_self_eq_false]

theorem negative_div {x y : F64} (hx : IsMagnitude x) (hy : IsMagnitude y) (h0 : 0 < toRat y) :
    negative (div x y) = false := by
  rw [div_of_finite hx.1 hy.1 (mt (toRat_eq_zero_iff y).mpr h0.ne'), negative_roundUnits, hx.2, hy.2,
    bne_self_eq_false]

theorem mul_bounds {x y : F64} (hx : IsMagnitude x) (hy : IsMagnitude y) (h : toRat x * toRat y ≤ 2 ^ 40) :
    IsMagnitude (mul x y) ∧ toRat (mul x y) ≤ 2 * (toRat x * toRat y) ∧
      (1 ≤ toRat x * toRat y → 1 ≤ toRat (mul x y)) := by
  obtain ⟨hfin, hbounds⟩ := (mul_roundsTo hx.1 hy.1).bounds (mul_nonneg (toRat_nonneg hx) (toRat_nonneg hy)) h
  exact ⟨⟨hfin, negative_mul hx hy⟩, hbounds⟩

theorem div_bounds {x y : F64} (hx : IsMagnitude x) (hy : IsMagnitude y) (h0 : 0 < toRat y)
    (h : toRat x / toRat y ≤ 2 ^ 40) :
    IsMagnitude (div x y) ∧ toRat (div x y) ≤ 2 * (toRat x / toRat y) ∧
      (1 ≤ toRat x / toRat y → 1 ≤ toRat (div x y)) := by
  obtain ⟨hfin, hbounds⟩ := (div_roundsTo hx.1 hy.1 (mt (toRat_eq_zero_iff y).mpr h0.ne')).bounds
    (div_nonneg (toRat_nonneg hx) h0.le) h
  exact ⟨⟨hfin, negative_div hx hy h0⟩, hbounds⟩

theorem mul_eq_of_exact {x y z : F64} (hx : IsMagnitude x) (hy : IsMagnitude y) (hz : IsMagnitude z)
    (h : toRat z = toRat x * toRat y) : mul x y = z :=
  (mul_roundsTo hx.1 hy.1).eq_of_exact hz.1 h ((negative_mul hx hy).trans hz.2.symm)

theorem div_eq_of_exact {x y z : F64} (hx : IsMagnitude x) (hy : IsMagnitude y) (h0 : 0 < toRat y)
    (hz : IsMagnitude z) (h : toRat z = toRat x / toRat y) : div x y = z :=
  (div_roundsTo hx.1 hy.1 (mt (toRat_eq_zero_iff y).mpr h0.ne')).eq_of_exact hz.1 h
    ((negative_div hx hy h0).trans hz.2.symm)

theorem mul_posZero {x : F64} (hx : IsMagnitude x) : mul x posZero = posZero :=
  mul_eq_of_exact hx isMagnitude_posZero isMagnitude_posZero (by rw [toRat_posZero, mul_zero])

theorem posZero_mul {x : F64} (hx : IsMagnitude x) : mul posZero x = posZero :=
  mul_eq_of_exact isMagnitude_posZero hx isMagnitude_posZero (by rw [toRat_posZero, zero_mul])

theorem mul_one_eq {x : F64} (hx : IsMagnitude x) : mul x one = x :=
  mul_eq_of_exact hx isMagnitude_one hx (by rw [toRat_one, mul_one])

theorem two_pow_le_unitsPerOne {k : Nat} (h : k ≤ 1074) : 2 ^ k ≤ unitsPerOne := by
  unfold unitsPerOne
  gcongr
  exact one_le_two

/-- A value of 1.0 or more has a half in binary64: its significand, one place lower. -/
theorem exists_half_value {x : F64} (hx : IsMagnitude x) (h1 : 1 ≤ toRat x) :
    ∃ y, IsMagnitude y ∧ toRat y = toRat x / 2 := by
  obtain ⟨k, r, hm, hr, hk⟩ := exists_scaled (magBits x)
  have hu : units x = r * 2 ^ k := by rw [units_eq, hm, magUnits_scaled hr.le hk]
  have hone : unitsPerOne ≤ units x := by
    rw [toRat_of_magnitude hx, one_le_div unitsPerOne_cast_pos] at h1
    exact_mod_cast h1
  cases k with
  | zero =>
    rw [hu, pow_zero, mul_one] at hone
    exact absurd (hone.trans_lt hr) (not_lt.mpr (two_pow_le_unitsPerOne (by norm_num)))
  | succ j =>
    have hhalf : units x = 2 * (r * 2 ^ j) := by rw [hu, pow_succ]; ring
    obtain ⟨hf, hint⟩ := roundUnits_exact false (dvd_of_significand hr j)
      ((Nat.le_mul_of_pos_left _ two_pos).trans_lt (hhalf ▸ units_lt hx.1))
    refine ⟨_, ⟨hf, negative_roundUnits _ _ _⟩, ?_⟩
    rw [toRat, hint, if_neg (by decide), toRat_of_magnitude hx, hhalf, Int.cast_natCast]
    generalize r * 2 ^ j = m
    push_cast
    ring

/-- From 1.0 on halving is exact, so that doubling undoes it. -/
theorem halve_exact {x : F64} (hx : IsMagnitude x) (h1 : 1 ≤ toRat x) :
    IsMagnitude (div x two) ∧ toRat (div x two) = toRat x / 2 ∧ mul two (div x two) = x := by
  have htwo : (0 : ℚ) < toRat two := by rw [toRat_two]; exact two_pos
  obtain ⟨y, hy, hhalf⟩ := exists_half_value hx h1
  have hdiv : div x two = y := div_eq_of_exact hx isMagnitude_two htwo hy (by rw [hhalf, toRat_two])
  rw [hdiv]
  exact ⟨hy, hhalf, mul_eq_of_exact isMagnitude_two hy hx (by rw [hhalf, toRat_two, mul_div_cancel₀ _ two_ne_zero])⟩

theorem cos_posZero : cos posZero = one := cos_of_units_zero (by decide) (by decide)

end Sys2Proof.F64

/-! The parameter set in binary64 (R82): no rounding of DERIVE overflows, and what is exact in it. -/

namespace Sys2Proof.Machine

open Sys2Proof.F64

theorem isMagnitude_of_ampInRange {a : F64} (h : ampInRange a = true) : IsMagnitude a := by
  obtain ⟨hfin, hpos, -⟩ := (rangeChecksAreTheDocumentedRanges.1 a).mp h
  exact isMagnitude_of_toRat_pos hfin hpos

theorem toRat_bpMin_bound : 1 / 2 ^ 21 ≤ toRat bpMin := by
  have h : (unitsPerOne : ℤ) ≤ intUnits bpMin * 2 ^ 21 := by decide +kernel
  rw [toRat, div_le_div_iff₀ (by positivity) unitsPerOne_cast_pos, one_mul]
  exact_mod_cast h

theorem toRat_bpMax_le_one : toRat bpMax ≤ 1 := by
  rw [← toRat_one, toRat_le_iff]
  decide +kernel

/-- A bit period in range, coarsely (R76). -/
theorem bp_bounds {b : F64} (h : bpInRange b = true) : IsMagnitude b ∧ 1 / 2 ^ 21 ≤ toRat b ∧ toRat b ≤ 1 := by
  obtain ⟨hfin, hlow, hup⟩ := (le_and_le_iff (lo := bpMin) (hi := bpMax) (by decide) (by decide)).mp h
  have hlow' := toRat_bpMin_bound.trans hlow
  exact ⟨isMagnitude_of_toRat_pos hfin (lt_of_lt_of_le (by positivity) hlow'), hlow', hup.trans toRat_bpMax_le_one⟩

theorem ofNat_magnitude {n : Nat} (h : n < 2 ^ 53) : IsMagnitude (F64.ofNat n) ∧ toRat (F64.ofNat n) = n :=
  ⟨⟨(ofNat_exact h).1, negative_roundUnits _ _ _⟩, (ofNat_exact h).2⟩

theorem twoPi_bounds : IsMagnitude twoPi ∧ toRat twoPi ≤ 8 := by
  have h : intUnits twoPi ≤ 8 * unitsPerOne := by decide +kernel
  refine ⟨by constructor <;> decide, ?_⟩
  rw [toRat, div_le_iff₀ unitsPerOne_cast_pos]
  exact_mod_cast h

/-- The angular frequencies are finite, as a tone frequency below `2^30` gives. -/
theorem twoPi_mul_magnitude {f : F64} (hf : IsMagnitude f) (h : toRat f ≤ 2 ^ 30) : IsMagnitude (F64.mul twoPi f) := by
  obtain ⟨hpi, hpiup⟩ := twoPi_bounds
  refine (mul_bounds hpi hf ?_).1
  nlinarith [toRat_nonneg hf, toRat_nonneg hpi]

section
variable {b : F64} {n : Nat} (hb : bpInRange b = true) (hlo : 2 ≤ n) (hhi : n ≤ 100)
include hb

theorem br_bounds (a : F64) (n : Nat) :
    IsMagnitude (deriveParams a b n).br ∧ 1 ≤ toRat (deriveParams a b n).br ∧
      toRat (deriveParams a b n).br ≤ 2 ^ 22 := by
  obtain ⟨hmag, hlow, hup⟩ := bp_bounds hb
  have hpos : 0 < toRat b := lt_of_lt_of_le (by positivity) hlow
  have hle : toRat one / toRat b ≤ 2 ^ 21 := by
    rw [toRat_one, div_le_iff₀ hpos]
    linarith
  have hge : 1 ≤ toRat one / toRat b := by rwa [toRat_one, one_le_div hpos]
  obtain ⟨hbr, hbrup, hbrlow⟩ := div_bounds isMagnitude_one hmag hpos (hle.trans (by norm_num))
  exact ⟨hbr, hbrlow hge, hbrup.trans (by linarith)⟩

include hlo hhi

theorem fOne_bounds (a : F64) :
    IsMagnitude (deriveParams a b n).fOne ∧ 1 ≤ toRat (deriveParams a b n).fOne ∧
      toRat (deriveParams a b n).fOne ≤ 2 ^ 30 := by
  obtain ⟨hbr, hbrlow, hbrup⟩ := br_bounds hb a n
  obtain ⟨hred, hredval⟩ := ofNat_magnitude (n := n) (by omega)
  have hn2 : (2 : ℚ) ≤ n := by exact_mod_cast hlo
  have hn100 : (n : ℚ) ≤ 100 := by exact_mod_cast hhi
  have hle : toRat (deriveParams a b n).br * toRat (F64.ofNat n) ≤ 2 ^ 29 := by
    rw [hredval]
    nlinarith
  have hge : 1 ≤ toRat (deriveParams a b n).br * toRat (F64.ofNat n) := by
    rw [hredval]
    nlinarith
  obtain ⟨hf, hfup, hflow⟩ := mul_bounds hbr hred (hle.trans (by norm_num))
  exact ⟨hf, hflow hge, hfup.trans (by linarith)⟩

theorem fZero_exact (a : F64) :
    IsMagnitude (deriveParams a b n).fZero ∧
      toRat (deriveParams a b n).fZero = toRat (deriveParams a b n).fOne / 2 ∧
      F64.mul two (deriveParams a b n).fZero = (deriveParams a b n).fOne := by
  obtain ⟨hf, hlow, -⟩ := fOne_bounds hb hlo hhi a
  exact halve_exact hf hlow

theorem rp_magnitude (a : F64) : IsMagnitude (deriveParams a b n).rp := by
  obtain ⟨hmag, -, hup⟩ := bp_bounds hb
  obtain ⟨hss, hssval⟩ := ofNat_magnitude (n := 2 * n) (by omega)
  have hone : (1 : ℚ) ≤ toRat (F64.ofNat (2 * n)) := by
    rw [hssval]
    exact_mod_cast (by omega : 1 ≤ 2 * n)
  have hpos := zero_lt_one.trans_le hone
  refine (div_bounds hmag hss hpos ?_).1
  rw [div_le_iff₀ hpos]
  linarith

theorem wOne_magnitude (a : F64) : IsMagnitude (deriveParams a b n).wOne := by
  obtain ⟨hf, -, hup⟩ := fOne_bounds hb hlo hhi a
  exact twoPi_mul_magnitude hf hup

theorem wZero_magnitude (a : F64) : IsMagnitude (deriveParams a b n).wZero := by
  obtain ⟨-, hlow, hup⟩ := fOne_bounds hb hlo hhi a
  obtain ⟨hf, hhalf, -⟩ := fZero_exact hb hlo hhi a
  have hle : toRat (deriveParams a b n).fZero ≤ 2 ^ 30 := by linarith
  exact twoPi_mul_magnitude hf hle

end

/-- The ends of a DERIVE that completes with code 0: the parameter set of inputs in their ranges. -/
theorem execDerive_succeeded {s t : State} (h : exec .derive s = .next t) (hcode : t.errcode = 0x00#8) :
    ∃ a b n, ampInRange a = true ∧ bpInRange b = true ∧ 2 ≤ n ∧ n ≤ 100 ∧ t.params = deriveParams a b n ∧
      t.tables = deriveTables (deriveParams a b n) (2 * n) s.tables := by
  obtain hr | hr := execDerive_eq s
  · cases h.symm.trans hr
    cases hcode
  · cases h.symm.trans hr
    obtain ⟨hlo, hhi⟩ := usedRed_bounds s
    exact ⟨usedAmp s, usedBp s, usedRed s, ampInRange_input s.ampIn, bpInRange_input s.bpIn, hlo, hhi, rfl, rfl⟩

/-- Settles O16: F_ONE is 1.0 or more, so that its half is exact. -/
theorem derivedToneFrequencies : Obligations.DerivedToneFrequencies := by
  intro s t h hcode
  obtain ⟨a, b, n, -, hb, hlo, hhi, hparams, -⟩ := execDerive_succeeded h hcode
  obtain ⟨hone, hlow, -⟩ := fOne_bounds hb hlo hhi a
  obtain ⟨hzero, hhalf, hdouble⟩ := fZero_exact hb hlo hhi a
  rw [hparams]
  refine ⟨hdouble, (lt_iff_toRat hzero.1 hone.1).mpr ?_⟩
  rw [hhalf]
  linarith

theorem taxisEntry_zero {p : Params} (h : IsMagnitude p.rp) : taxisEntry p 0 = posZero := by
  have hzero : F64.ofNat 0 = posZero := by decide +kernel
  rw [taxisEntry, hzero, posZero_mul h]

theorem crefEntry_zero {p : Params} {w : F64} (hrp : IsMagnitude p.rp) (hw : IsMagnitude w) :
    crefEntry p w 0 = one := by
  rw [crefEntry, taxisEntry_zero hrp, mul_posZero hw, cos_posZero]

/-- Settles O17: the phase of entry 0 is +0.0, its cosine 1.0, and a factor of 1.0 is exact. -/
theorem derivedTablesStartAtPhaseZero : Obligations.DerivedTablesStartAtPhaseZero := by
  intro s t h hcode
  obtain ⟨a, b, n, ha, hb, hlo, hhi, hparams, htables⟩ := execDerive_succeeded h hcode
  have hfirst : 0 < 2 * n := by omega
  have hrp := rp_magnitude hb hlo hhi a
  have hone := crefEntry_zero hrp (wOne_magnitude hb hlo hhi a)
  have hzero := crefEntry_zero hrp (wZero_magnitude hb hlo hhi a)
  have hamp : F64.mul (deriveParams a b n).amp one = a := mul_one_eq (isMagnitude_of_ampInRange ha)
  have hcref1 := deriveTables_cref1 (deriveParams a b n) s.tables hfirst
  have hcref0 := deriveTables_cref0 (deriveParams a b n) s.tables hfirst
  have href1 := deriveTables_ref1 (deriveParams a b n) s.tables hfirst
  have href0 := deriveTables_ref0 (deriveParams a b n) s.tables hfirst
  rw [hone] at hcref1
  rw [hzero] at hcref0
  rw [entry_of_getElem? hcref1, hamp] at href1
  rw [entry_of_getElem? hcref0, hamp] at href0
  rw [hparams, htables]
  refine ⟨?_, hcref1, hcref0, href1, href0⟩
  rw [deriveTables_taxis _ _ hfirst, taxisEntry_zero hrp]

end Sys2Proof.Machine

/-! MOD's effect on BUF: one table segment per bit of the source at the destination, and no other byte (R83 to R85). -/

namespace Sys2Proof.Machine

open Sys2Proof.Safety

theorem modSample_eq (s : State) (j : Nat) :
    modSample s j =
      if Memory.bit s.buf (srcA s) (j / ss s) then entry s.tables.ref1 (j % ss s)
      else entry s.tables.ref0 (j % ss s) := rfl

theorem read_putSamples_modOutput_outside {s : State} {a : Nat}
    (ha : a < dst s ∨ dst s + 8 * (lenA s * ss s) ≤ a) :
    Memory.read (Memory.putSamples s.buf (dst s) (modOutput s)) a = Memory.read s.buf a :=
  Memory.read_putSamples_outside (by rwa [modOutput_length])

/-- Settles O18: where the checks pass, MOD's one store is `modOutput` at DST; a sample in that store is the entry
that `modSample` takes, and a byte outside it is read as before. -/
theorem modWritesOneSegmentPerBit : Obligations.ModWritesOneSegmentPerBit := by
  intro s h
  refine ⟨_, execMod_of_runs h, rfl, fun j hj => ?sample, fun a ha => ?outside, rfl⟩
  case sample => rw [complete_buf, sample_putSamples_modOutput hj, modSample_eq]
  case outside => rw [complete_buf, read_putSamples_modOutput_outside ha]

end Sys2Proof.Machine

/-! DEMOD's loop over the windows and its loop over the output bytes (R87), and its end under ABORT (R92): what the
loops carry is what the list of decisions gives. -/

namespace Sys2Proof.Machine

open Sys2Proof.Safety

/-! The decisions. -/

/-- A window without a decision is one that passes neither test (R91, R92). -/
theorem decideWindow_eq_none_iff (s : State) (w : Nat) : decideWindow s (demodWindow s w) = none ↔ Ambiguous s w := by
  rw [decideWindow_eq, Ambiguous, oneToneBit]
  cases F64.gt (statOne s w) (F64.div s.params.amp two) with
  | true => simp
  | false => cases F64.gt (statZero s w) (F64.div s.params.amp two) <;> simp

@[simp] theorem demodDecisions_length (s : State) : (demodDecisions s).length = lenA s / ss s := by
  simp [demodDecisions, demodWindows]

theorem firstAmbiguous_demodDecisions {s : State} {w : Nat} (hw : w < lenA s / ss s) (hamb : Ambiguous s w)
    (hfirst : ∀ v < w, ¬ Ambiguous s v) : firstAmbiguous (demodDecisions s) = some w := by
  rw [firstAmbiguous, List.findIdx?_eq_some_iff_getElem]
  refine ⟨by rwa [demodDecisions_length], ?_, fun v hv => ?_⟩
  · simpa [demodDecisions, decideWindow_eq_none_iff] using hamb
  · simpa [demodDecisions, decideWindow_eq_none_iff] using hfirst v hv

theorem exec_demod_of_starts {s : State} (h : DemodStarts s) :
    exec .demod s = finishDemod (demodDestination s) (demodDecisions s) s := by
  rw [exec, execDemod, demodChecks_of_starts h]

/-! DEMOD under ABORT with an ambiguous window. -/

theorem finishDemod_abort {s : State} {ds : List (Option Bool)} {w : Nat} (hpol : s.ambpol = 3#2)
    (hfirst : firstAmbiguous ds = some w) (d : Region) :
    finishDemod d ds s = .next (complete 0x05#8
      { s with
        warn := s.warn ||| 0b01000#5
        results := { s.results with firstAmb := BitVec.ofNat 32 w } }) := by
  simp only [finishDemod, hpol, hfirst, Option.isSome_some, and_self, if_true]
  rfl

/-- Settles O24: the first ambiguous window is the first one without a decision, and ABORT raises ALIGNMENT_LOSS
there. -/
theorem demodAbortsAtTheFirstAmbiguousWindow : Obligations.DemodAbortsAtTheFirstAmbiguousWindow := by
  intro s w hstarts hpol hw hamb hbefore
  rw [exec_demod_of_starts hstarts]
  exact finishDemod_abort hpol (firstAmbiguous_demodDecisions hw hamb hbefore) _

/-! The loop over the windows: one more window is one more decision at the end of the list. -/

theorem demodBits_concat (ambpol : BitVec 2) (ds : List (Option Bool)) (d : Option Bool) :
    demodBits ambpol (ds ++ [d]) = demodBits ambpol ds ++ windowBits ambpol d := by simp [demodBits]

theorem ambiguousCount_concat (ds : List (Option Bool)) (d : Option Bool) :
    ambiguousCount (ds ++ [d]) = ambiguousCount ds + if d = none then 1 else 0 := by
  simp [ambiguousCount, List.countP_append, List.countP_singleton]

theorem firstAmbiguous_concat (ds : List (Option Bool)) (d : Option Bool) :
    firstAmbiguous (ds ++ [d]) = (firstAmbiguous ds).or (if d = none then some ds.length else none) := by
  cases d <;> simp [firstAmbiguous, List.findIdx?_append, List.findIdx?_singleton]

/-- FIRST_AMB tells "none" apart from every window that a 32-bit LEN_A can give (R44). -/
theorem firstAmbWord_eq_noWindow_iff {ds : List (Option Bool)} (hlen : ds.length < 2 ^ 32) :
    firstAmbWord (firstAmbiguous ds) = noWindow ↔ firstAmbiguous ds = none := by
  cases hfirst : firstAmbiguous ds with
  | none => simp [firstAmbWord]
  | some w =>
    obtain ⟨hw, -⟩ := List.findIdx?_eq_some_iff_getElem.mp hfirst
    have hne : BitVec.ofNat 32 w ≠ noWindow := fun h => by
      have := congrArg BitVec.toNat h
      rw [BitVec.toNat_ofNat, noWindow, BitVec.toNat_ofNat] at this
      omega
    simpa [firstAmbWord] using hne

/-- What DEMOD's loop carries after the windows with the decisions `ds`. -/
def demodVars (ambpol : BitVec 2) (ds : List (Option Bool)) : DemodVars where
  out := demodBits ambpol ds
  amb := ambiguousCount ds
  first := firstAmbWord (firstAmbiguous ds)

/-- A decided window appends its bit. -/
theorem demodVars_concat_some (ambpol : BitVec 2) (ds : List (Option Bool)) (b : Bool) :
    demodVars ambpol (ds ++ [some b]) =
      { demodVars ambpol ds with out := (demodVars ambpol ds).out ++ [b] } := by
  simp [demodVars, demodBits_concat, windowBits, ambiguousCount_concat, firstAmbiguous_concat]

/-- An ambiguous window is counted, is kept when it is the first, and gives the bit that AMBPOL says (R92). -/
theorem demodVars_concat_none (ambpol : BitVec 2) {ds : List (Option Bool)} (hlen : ds.length < 2 ^ 32) :
    demodVars ambpol (ds ++ [none]) =
      { out :=
          if ambpol = 1#2 then (demodVars ambpol ds).out ++ [false]
          else if ambpol = 2#2 then (demodVars ambpol ds).out ++ [true] else (demodVars ambpol ds).out
        amb := (demodVars ambpol ds).amb + 1
        first :=
          if (demodVars ambpol ds).first = noWindow then BitVec.ofNat 32 ds.length
          else (demodVars ambpol ds).first } := by
  have hbits : demodBits ambpol ds ++ windowBits ambpol none =
      if ambpol = 1#2 then demodBits ambpol ds ++ [false]
      else if ambpol = 2#2 then demodBits ambpol ds ++ [true] else demodBits ambpol ds := by
    simp only [windowBits]
    split_ifs <;> simp
  have hfirst : firstAmbWord ((firstAmbiguous ds).or (some ds.length)) =
      if firstAmbiguous ds = none then BitVec.ofNat 32 ds.length else firstAmbWord (firstAmbiguous ds) := by
    cases firstAmbiguous ds <;> simp [firstAmbWord]
  simp only [demodVars, demodBits_concat, ambiguousCount_concat, firstAmbiguous_concat, if_true, hbits, hfirst,
    firstAmbWord_eq_noWindow_iff hlen]

/-- One round of the loop adds the decision on its window (R87, R91). -/
theorem loopDemodWindow_demodVars (s : State) {ds : List (Option Bool)} (hlen : ds.length < 2 ^ 32) :
    loopDemodWindow s (demodVars s.ambpol ds) ds.length =
      demodVars s.ambpol (ds ++ [decideWindow s (demodWindow s ds.length)]) := by
  rw [decideWindow_eq, loopDemodWindow, oneToneBit]
  by_cases hone : F64.gt (statOne s ds.length) (F64.div s.params.amp two) = true
  · simp only [if_pos hone, demodVars_concat_some]
  · by_cases hzero : F64.gt (statZero s ds.length) (F64.div s.params.amp two) = true
    · simp only [if_neg hone, if_pos hzero, demodVars_concat_some]
    · simp only [if_neg hone, if_neg hzero, demodVars_concat_none _ hlen]

theorem foldl_loopDemodWindow (s : State) {n : Nat} (hn : n < 2 ^ 32) :
    (List.range n).foldl (loopDemodWindow s) { out := [], amb := 0, first := noWindow } =
      demodVars s.ambpol ((List.range n).map fun w => decideWindow s (demodWindow s w)) := by
  induction n with
  | zero => rfl
  | succ n ih =>
    have hround := loopDemodWindow_demodVars s
      (ds := (List.range n).map fun w => decideWindow s (demodWindow s w)) (by simp; omega)
    rw [List.length_map, List.length_range] at hround
    rw [List.range_succ, List.foldl_concat, ih (by omega), hround, List.map_append, List.map_singleton]

/-- The loop over the windows carries what the model's list of decisions gives. -/
theorem loopDemod_eq (s : State) : loopDemod s = demodVars s.ambpol (demodDecisions s) :=
  foldl_loopDemodWindow s ((Nat.div_le_self _ _).trans_lt s.operands.lenA.isLt)

/-! The loop over the output bytes: one store of the packed bits is the loop's stores one after the other. -/

theorem Memory.foldl_putByte {m : Memory} (h : Memory.wf m) (a : Nat) (g : Nat → Byte) (n : Nat) :
    (List.range n).foldl (fun m' j => Memory.writeLE m' (a + j) 1 (g j).toNat) m =
      Memory.write m a ((List.range n).map g) := by
  induction n with
  | zero => exact (Memory.write_nil h a).symm
  | succ n ih =>
    rw [List.range_succ, List.foldl_concat, ih, List.map_append, List.map_singleton, Memory.write_append h]
    simp [Memory.writeLE, bytesLE]

theorem loopPack_eq {s : State} (hwf : Memory.wf s.buf) (out : List Bool) :
    loopPack s out = Memory.write s.buf (dst s) (packBits out) :=
  Memory.foldl_putByte hwf (dst s) (packByte out) (ceil8 out.length)

/-! DEMOD's end with code 0. -/

theorem ambiguousCount_eq_zero_iff (ds : List (Option Bool)) : ambiguousCount ds = 0 ↔ firstAmbiguous ds = none := by
  rw [ambiguousCount, firstAmbiguous, List.countP_eq_zero, List.findIdx?_eq_none_iff]
  simp only [Bool.not_eq_true]

/-- WARN.AMBIG is set when a window was ambiguous (R30, R87). -/
theorem or_ambiguityWarning (warn : BitVec 5) (ds : List (Option Bool)) :
    warn ||| ambiguityWarning (firstAmbiguous ds) = if ambiguousCount ds = 0 then warn else warn ||| 0b01000#5 := by
  simp only [ambiguousCount_eq_zero_iff]
  cases firstAmbiguous ds with
  | none => simp [ambiguityWarning]
  | some w => rfl

/-- DEMOD completes under every AMBPOL but ABORT, and under ABORT when no window is ambiguous. -/
theorem finishDemod_completes {s : State} {ds : List (Option Bool)} (h : s.ambpol ≠ 3#2 ∨ ambiguousCount ds = 0)
    (d : Region) :
    finishDemod d ds s = .next (complete 0x00#8
      { s with
        buf := Memory.write s.buf d.base (packBits (demodBits s.ambpol ds))
        warn := if ambiguousCount ds = 0 then s.warn else s.warn ||| 0b01000#5
        results :=
          { s.results with
            outLen := BitVec.ofNat 32 (demodBits s.ambpol ds).length
            nwin := BitVec.ofNat 32 ds.length
            ambCount := BitVec.ofNat 32 (ambiguousCount ds)
            firstAmb := firstAmbWord (firstAmbiguous ds) } }) := by
  have hgoes : ¬ (s.ambpol = 3#2 ∧ (firstAmbiguous ds).isSome = true) := by
    rintro ⟨hpol, hsome⟩
    have hnone := (ambiguousCount_eq_zero_iff ds).mp (h.resolve_left (not_not.mpr hpol))
    simp [hnone] at hsome
  simp only [finishDemod, if_neg hgoes, or_ambiguityWarning, succeed_eq]

/-- Settles O22: R87's two loops leave what the list of decisions gives. -/
theorem demodFollowsItsPseudocode : Obligations.DemodFollowsItsPseudocode := by
  intro s hwf hstarts hpol
  rw [loopDemod_eq] at hpol ⊢
  rw [loopPack_eq hwf, exec_demod_of_starts hstarts, finishDemod_completes hpol, demodDecisions_length]
  rfl

end Sys2Proof.Machine

/-! DEMOD's threshold (R91, R93): the statistic of R90 is a whole number, and AMP/2.0 lies between 0 and one half. -/

namespace Sys2Proof.F64

open Sys2Proof.Machine

/-- Rounding a non-negative number does not pass a binary64 value above it. -/
theorem RoundsTo.le_of_le {q : ℚ} {y z : F64} (h : RoundsTo (q : ℝ) z) (h0 : 0 ≤ q) (hy : finite y = true)
    (hq : q ≤ toRat y) : toRat z ≤ toRat y := by
  have h0' : (0 : ℝ) ≤ q := Rat.cast_nonneg.mpr h0
  have hq' : (q : ℝ) ≤ toRat y := Rat.cast_le.mpr hq
  have hlt : |(q : ℝ)| < overflowBound := by
    rw [abs_of_nonneg h0']
    exact (hq'.trans (le_abs_self _)).trans_lt (abs_toRat_lt_overflowBound hy)
  have hnear : |(toRat z - q : ℝ)| ≤ |(toRat y - q : ℝ)| := ((h.1 hlt).2 y hy).1
  rw [abs_of_nonneg (a := (toRat y - q : ℝ)) (sub_nonneg.mpr hq')] at hnear
  have hle : (toRat z : ℝ) ≤ toRat y := by linarith [le_abs_self (toRat z - q : ℝ)]
  exact_mod_cast hle

/-- `fabs(fceil(x))` is NaN, plus infinity, or a whole number (R12). -/
theorem abs_ceil_cases (x : F64) :
    isNaN (abs (ceil x)) = true ∨ abs (ceil x) = infinity false ∨
      finite (abs (ceil x)) = true ∧ ∃ n : ℕ, toRat (abs (ceil x)) = n := by
  cases hn : isNaN x with
  | true =>
    refine .inl ?_
    rw [ceil, if_pos hn]
    decide
  | false =>
    rcases finite_or_isInf hn with hfin | hinf
    · obtain ⟨hf, hval⟩ := ceil_exact hfin
      refine .inr (.inr ⟨?_, ceilWhole x, ?_⟩)
      · rw [finite_iff, magBits_abs]
        exact (finite_iff _).mp hf
      · rw [toRat_abs, hval]
        cases negative x <;> simp
    · refine .inr (.inl (ext_bits (negative_abs _) ?_))
      rw [ceil, if_neg (by simp [hn]), if_pos hinf, magBits_abs, magBits_infinity]
      exact (isInf_iff x).mp hinf

/-- Between 0 and 1 every threshold is as good as 1.0 for `fabs(fceil(x))`. -/
theorem gt_abs_ceil_eq_le_one {h : F64} (hh : IsMagnitude h) (h1 : toRat h < 1) (x : F64) :
    gt (abs (ceil x)) h = le one (abs (ceil x)) := by
  have hone := isMagnitude_one.1
  rcases abs_ceil_cases x with hnan | hinf | ⟨hfin, n, hn⟩
  · obtain ⟨-, -, hgt, -, -⟩ := compare_isNaN (y := h) (.inl hnan)
    obtain ⟨-, hle, -, -, -⟩ := compare_isNaN (x := one) (.inr hnan)
    rw [hgt, hle]
  · have hgt : gt (infinity false) h = true := by
      rw [gt, lt_iff_toExtended (isNaN_of_finite hh.1) (isNaN_infinity _), toExtended_of_finite hh.1,
        toExtended_infinity_false]
      exact coe_lt_infinity _
    have hle : le one (infinity false) = true := by
      rw [le_iff_toExtended (isNaN_of_finite hone) (isNaN_infinity _), toExtended_of_finite hone,
        toExtended_infinity_false]
      exact (coe_lt_infinity _).le
    rw [hinf, hgt, hle]
  · rw [Bool.eq_iff_iff, gt, lt_iff_toRat hh.1 hfin, le_iff_toRat hone hfin, hn, toRat_one]
    cases n with
    | zero => exact iff_of_false (by simpa using toRat_nonneg hh) (by norm_num)
    | succ k =>
      have hk : (1 : ℚ) ≤ (k + 1 : ℕ) := by exact_mod_cast Nat.succ_pos k
      exact iff_of_true (h1.trans_le hk) hk

end Sys2Proof.F64

namespace Sys2Proof.Machine

open Sys2Proof.F64

/-- Half of an amplitude in range is a magnitude of at most one half, also where halving it rounds. -/
theorem halfAmp_bounds {a : F64} (h : ampInRange a = true) :
    IsMagnitude (F64.div a two) ∧ toRat (F64.div a two) ≤ 1 / 2 := by
  obtain ⟨-, hpos, hle⟩ := (rangeChecksAreTheDocumentedRanges.1 a).mp h
  have hmag := isMagnitude_of_ampInRange h
  have htwo : 0 < toRat two := by rw [toRat_two]; exact two_pos
  have hhalf : toRat a / toRat two ≤ 1 / 2 := by rw [toRat_two]; linarith
  obtain ⟨honemag, honehalf, -⟩ := halve_exact isMagnitude_one toRat_one.ge
  rw [toRat_one] at honehalf
  have hround := div_roundsTo hmag.1 isMagnitude_two.1 (mt (toRat_eq_zero_iff two).mpr htwo.ne')
  refine ⟨(div_bounds hmag isMagnitude_two htwo (hhalf.trans (by norm_num))).1, ?_⟩
  rw [← honehalf] at hhalf ⊢
  exact hround.le_of_le (div_nonneg hpos.le htwo.le) honemag.1 hhalf

/-- Settles O26: the statistic is NaN, infinite or whole, and AMP/2.0 is at least 0 and below 1. -/
theorem demodThresholdIsOne : Obligations.DemodThresholdIsOne := by
  intro amp z bp hamp
  obtain ⟨hmag, hle⟩ := halfAmp_bounds hamp
  exact gt_abs_ceil_eq_le_one hmag (hle.trans_lt (by norm_num)) _

end Sys2Proof.Machine

/-! EXTRACT's subtraction where EMBED's sum was exact (R99): a binary64 value rounds to itself. -/

namespace Sys2Proof.F64

open Sys2Proof.Machine

/-- Of all finite patterns one with the value of `y` itself is nearest to that value; unlike
`RoundsTo.eq_of_exact` this says nothing of the sign, so it covers the two zeros. -/
theorem RoundsTo.toRat_eq {y z : F64} (h : RoundsTo (toRat y : ℝ) z) (hy : finite y = true) :
    finite z = true ∧ toRat z = toRat y := by
  obtain ⟨hz, hnearest⟩ := h.1 (abs_toRat_lt_overflowBound hy)
  have hdist : |(toRat z : ℝ) - toRat y| ≤ |(toRat y : ℝ) - toRat y| := (hnearest y hy).1
  rw [sub_self, abs_zero, abs_nonpos_iff, sub_eq_zero] at hdist
  exact ⟨hz, Rat.cast_injective hdist⟩

/-- Settles O34: the exact difference of the sum and `q` is the value of `p`, so rounding it loses nothing. -/
theorem extractInvertsAnExactMix : Obligations.ExtractInvertsAnExactMix := by
  intro p q hp hq hsum hexact
  have hdiff := sub_roundsTo hsum hq
  rw [hexact, add_sub_cancel_right] at hdiff
  exact hdiff.toRat_eq hp

end Sys2Proof.F64

/-! EMBED's and EXTRACT's effect on BUF: their output samples at the destination, and no other byte (R95, R97). -/

namespace Sys2Proof.Machine

open Sys2Proof.Safety

/-- What a command's one store of computed samples does to BUF (R54), inside the stored region and outside it. -/
theorem Memory.putSamples_range_map (m : Memory) (a n : Nat) (f : Nat → F64) :
    (∀ i < n, Memory.sample (Memory.putSamples m a ((List.range n).map f)) (a + 8 * i) = f i) ∧
      ∀ x, (x < a ∨ a + 8 * n ≤ x) →
        Memory.read (Memory.putSamples m a ((List.range n).map f)) x = Memory.read m x := by
  have hlen : ((List.range n).map f).length = n := by rw [List.length_map, List.length_range]
  refine ⟨fun i hi => ?sample, fun x hx => ?outside⟩
  case sample => rw [Memory.sample_putSamples (by rwa [hlen]), List.getElem_map, List.getElem_range]
  case outside => exact Memory.read_putSamples_outside (by rwa [hlen])

/-- `embedSample` in the operands' names. -/
theorem embedSample_eq (s : State) (off i : Nat) :
    embedSample s off i =
      F64.add
        (if off ≤ i ∧ i < off + lenB s then Memory.sample s.buf (srcB s + 8 * (i - off)) else posZero)
        (F64.mul s.mix (Memory.sample s.buf (srcA s + 8 * i))) := rfl

/-- `extractSample` in the operands' names. -/
theorem extractSample_eq (s : State) (off j : Nat) :
    extractSample s off j =
      F64.sub (Memory.sample s.buf (srcA s + 8 * (off + j)))
        (F64.mul s.mix (Memory.sample s.buf (srcB s + 8 * (off + j)))) := rfl

/-- Settles O27: where the checks pass, EMBED's one store is the `embedSample`s at DST. -/
theorem embedMixesThePayloadIntoTheHost : Obligations.EmbedMixesThePayloadIntoTheHost := by
  intro s off h
  obtain ⟨hsample, houtside⟩ := Memory.putSamples_range_map s.buf (dst s) (lenA s) (embedSample s off)
  exact ⟨_, execEmbed_of_runs h, fun i hi => (hsample i hi).trans (embedSample_eq s off i), houtside, rfl⟩

/-- Settles O31: where the checks pass, EXTRACT's one store is the `extractSample`s at DST. -/
theorem extractSubtractsTheHost : Obligations.ExtractSubtractsTheHost := by
  intro s off h
  obtain ⟨hsample, houtside⟩ := Memory.putSamples_range_map s.buf (dst s) (width s) (extractSample s off)
  exact ⟨_, execExtract_of_runs h, fun j hj => (hsample j hj).trans (extractSample_eq s off j), houtside, rfl⟩

end Sys2Proof.Machine

/-! NOP (R100): its completion, its word, and the words with its opcode that are not its own. -/

namespace Sys2Proof.Machine

/-- A completion without an error sets INT_STATUS.DONE and no other bit (R31, R103). -/
@[simp] theorem completedInt_false (old : BitVec 2) : completedInt old false = old ||| 0b01#2 := BitVec.or_zero

/-- Completion with code 0, written out (R103). -/
theorem complete_zero (s : State) :
    complete 0#8 s =
      { s with
        errcode := 0#8
        err := false
        intStatus := s.intStatus ||| 0b01#2
        cmdcnt := s.cmdcnt + 1
        phase := .idle } := by
  rw [complete, bne_self_eq_false, completedInt_false]

/-- Settles O8: NOP is completion with code 0 and nothing before it, and its word's opcode byte is 0. -/
theorem nopCompletes : Obligations.NopCompletes := by
  refine ⟨fun s => ?completes, decodeWord_encode .nop, fun s => ?lastop, fun v _ hreserved => ?aliases⟩
  case completes =>
    have hexec : exec .nop s = .next (complete 0#8 s) := succeed_eq s
    rw [hexec, complete_zero]
  case lastop => exact accept_lastop ..
  case aliases => exact decodeWord_illegal (.inl hreserved)

end Sys2Proof.Machine

/-! How every command ends (R101 to R103): in a completion, and where that failed, with its writes discarded. -/

namespace Sys2Proof.Machine

open Sys2Proof.Safety

/-! Completion, whatever the code (R103). -/

theorem completedInt_done (old : BitVec 2) (failed : Bool) : (completedInt old failed).getLsbD 0 = true := by
  cases failed <;> simp [completedInt, intDone, intErr]

/-- A successful completion leaves INT_STATUS.ERR as it was; a failed one sets it (R31, R103). -/
theorem completedInt_err (old : BitVec 2) (failed : Bool) :
    (completedInt old failed).getLsbD 1 = (old.getLsbD 1 || failed) := by
  cases failed <;> simp [completedInt, intDone, intErr]

/-- The last thing a command does is a completion, and what it did before touched neither INT_STATUS nor CMDCNT. -/
theorem CommandEnd.eq_complete {s t : State} {i : Instr} (h : CommandEnd s i t) :
    ∃ c ∈ errorCodes, ∃ u, t = complete c u ∧ u.intStatus = s.intStatus ∧ u.cmdcnt = s.cmdcnt := by
  cases h with
  | plain _ hc => exact ⟨_, hc, _, rfl, rfl, rfl⟩
  | alignmentLoss => exact ⟨_, errorByte_mem_errorCodes (by decide), _, rfl, rfl, rfl⟩
  | derived | stored => exact ⟨_, by decide, _, rfl, rfl, rfl⟩

/-- Settles O9: every command ends in a completion, and a completion does all of this. -/
theorem everyCommandEndsInComplete : Obligations.EveryCommandEndsInComplete := by
  intro i s t h
  obtain ⟨c, hc, u, rfl, hint, hcnt⟩ := (exec_commandEnd h).eq_complete
  refine ⟨hc, rfl, completedInt_done .., ?err, ?count, rfl⟩
  case err => rw [complete_intStatus, completedInt_err, hint, complete_errcode]
  case count => rw [complete_cmdcnt, hcnt, BitVec.toNat_add]; rfl

/-! Which errors the checks of each command can raise: never ALIGNMENT_LOSS, the one error after a write that is
kept (R102, R105). -/

/-- The errors of `CheckRegions` (R56). -/
def regionErrors : List ErrorCode := [.addrRange, .addrAlign, .overlap]

theorem checkEach_eq_findSome? (n : Nat) (rs : List Region) : checkEach n rs = rs.findSome? (checkRegion n) := by
  induction rs with
  | nil => rfl
  | cons r rs ih => rw [checkEach_cons, List.findSome?_cons, ih]; cases checkRegion n r <;> rfl

theorem checkRegions_error_mem {n : Nat} {srcs : List Region} {d : Region} {e : ErrorCode}
    (h : checkRegions n srcs d = some e) : e ∈ regionErrors := by
  rw [checkRegions_eq_or, Option.or_eq_some_iff] at h
  obtain hregion | ⟨-, hoverlap⟩ := h
  · rw [checkEach_eq_findSome?] at hregion
    obtain ⟨r, -, hr⟩ := List.exists_of_findSome?_eq_some hregion
    obtain ⟨-, ⟨rfl, -⟩ | ⟨rfl, -⟩⟩ := checkRegion_eq_some hr <;> decide
  · split at hoverlap <;> cases hoverlap
    decide

theorem location_error_eq {loc : F64} {rate : Nat} {e : ErrorCode} (h : location loc rate = .error e) :
    e = .locationInvalid := by
  simp only [location] at h
  split_ifs at h <;> cases h <;> rfl

theorem modChecks_error_mem {s : State} {e : ErrorCode} (h : modChecks s = .error e) :
    e ∈ .noParams :: regionErrors := by
  unfold modChecks at h
  split at h
  · cases h; decide
  · split at h <;> cases h
    next hc => exact .tail _ (checkRegions_error_mem hc)

theorem demodChecks_error_mem {s : State} {e : ErrorCode} (h : demodChecks s = .error e) :
    e ∈ .noParams :: regionErrors := by
  unfold demodChecks at h
  split at h
  · cases h; decide
  · split at h <;> cases h
    next hc => exact .tail _ (checkRegions_error_mem hc)

theorem embedChecks_error_mem {s : State} {e : ErrorCode} (h : embedChecks s = .error e) :
    e ∈ [.channelMismatch, .capacityExceeded, .locationInvalid] ++ regionErrors := by
  simp only [embedChecks] at h
  split_ifs at h
  iterate 3 · cases h; decide
  split at h
  · next hl => cases h; rw [location_error_eq hl]; decide
  · split at h <;> cases h
    next hc => exact List.mem_append_right _ (checkRegions_error_mem hc)

theorem extractChecks_error_mem {s : State} {e : ErrorCode} (h : extractChecks s = .error e) :
    e ∈ [.channelMismatch, .lengthMismatch, .locationInvalid, .capacityExceeded] ++ regionErrors := by
  simp only [extractChecks] at h
  split_ifs at h
  iterate 2 · cases h; decide
  split at h
  · next hl => cases h; rw [location_error_eq hl]; decide
  · split_ifs at h
    · cases h; decide
    · split at h <;> cases h
      next hc => exact List.mem_append_right _ (checkRegions_error_mem hc)

/-! The ends of a command that failed. -/

/-- How command `i` can fail in the state `s`: sharper than `CommandEnd`, which leaves open what ALIGNMENT_LOSS
keeps and which command raises it. -/
inductive Failure (s : State) : Instr → State → Prop where
  /-- nothing but the completion is written (R102) -/
  | discarded (i : Instr) {e : ErrorCode} (he : e ≠ .alignmentLoss) : Failure s i (complete (errorByte e) s)
  /-- ALIGNMENT_LOSS keeps FIRST_AMB and WARN.AMBIG (R102) -/
  | alignmentLoss (w : Word) :
      Failure s .demod (complete 0x05#8
        { s with warn := s.warn ||| 0b01000#5, results := { s.results with firstAmb := w } })

theorem Failure.of_mem {s : State} (i : Instr) {e : ErrorCode} {es : List ErrorCode} (he : e ∈ es)
    (hes : .alignmentLoss ∉ es) : Failure s i (complete (errorByte e) s) :=
  .discarded i (ne_of_mem_of_not_mem he hes)

/-- After DEMOD's checks only ABORT at an ambiguous window fails (R92). -/
theorem finishDemod_failure {s t : State} {d : Region} {ds : List (Option Bool)}
    (h : finishDemod d ds s = .next t) (hcode : t.errcode ≠ 0#8) : Failure s .demod t := by
  have hnot : ¬ (s.ambpol ≠ 3#2 ∨ ambiguousCount ds = 0) := fun hcompletes => by
    cases (finishDemod_completes hcompletes d).symm.trans h
    exact hcode rfl
  rw [not_or, not_not, ambiguousCount_eq_zero_iff] at hnot
  obtain ⟨hpol, hsome⟩ := hnot
  obtain ⟨w, hw⟩ := Option.ne_none_iff_exists'.mp hsome
  cases (finishDemod_abort hpol hw d).symm.trans h
  exact .alignmentLoss _

/-- Every command that fails does so in one of these ways. -/
theorem exec_failure {i : Instr} {s t : State} (h : exec i s = .next t) (hcode : t.errcode ≠ 0#8) :
    Failure s i t := by
  cases i with
  | nop =>
    cases h
    exact absurd rfl hcode
  | derive =>
    obtain ⟨-, -, ht⟩ | ⟨_, _, _, -, -, -, ht⟩ := execDerive_cases h <;> cases ht
    · exact .discarded (e := .configRange) _ (by decide)
    · exact absurd rfl hcode
  | mod =>
    obtain ⟨e, he, ht⟩ | ⟨_, -, ht⟩ := execMod_cases h <;> cases ht
    · exact .of_mem _ (modChecks_error_mem he) (by decide)
    · exact absurd rfl hcode
  | demod =>
    obtain ⟨e, he, ht⟩ | ⟨_, -, ht⟩ := execDemod_cases h
    · cases ht
      exact .of_mem _ (demodChecks_error_mem he) (by decide)
    · exact finishDemod_failure ht.symm hcode
  | embed =>
    obtain ⟨e, he, ht⟩ | ⟨_, _, -, ht⟩ := execEmbed_cases h <;> cases ht
    · exact .of_mem _ (embedChecks_error_mem he) (by decide)
    · exact absurd rfl hcode
  | extract =>
    obtain ⟨e, he, ht⟩ | ⟨_, _, -, ht⟩ := execExtract_cases h <;> cases ht
    · exact .of_mem _ (extractChecks_error_mem he) (by decide)
    · exact absurd rfl hcode

theorem errorByte_eq_alignmentLoss_iff (e : ErrorCode) : errorByte e = 0x05#8 ↔ e = .alignmentLoss := by
  cases e <;> decide

/-- Settles O11: a failure either wrote nothing before its completion, or is DEMOD's ALIGNMENT_LOSS. -/
theorem failedCommandDiscardsItsWrites : Obligations.FailedCommandDiscardsItsWrites := by
  intro i s t h hcode
  cases exec_failure h hcode with
  | discarded _ he =>
    exact ⟨rfl, rfl, rfl, rfl, fun _ => ⟨rfl, rfl⟩, fun h5 => absurd ((errorByte_eq_alignmentLoss_iff _).mp h5) he⟩
  | alignmentLoss w => exact ⟨rfl, rfl, rfl, rfl, absurd rfl, fun _ => ⟨rfl, rfl, rfl⟩⟩

end Sys2Proof.Machine

/-! The two resets (R118 to R120): the registers at their reset values, and BUF kept outside the abandoned region. -/

namespace Sys2Proof.Machine

open Sys2Proof.Safety

/-! A command whose checks pass is one that runs: the converses of `modChecks_of_runs` and its like. -/

theorem inBuf_aligned8_of_checkRegion {s : State} {base : Word} {n : Nat}
    (h : checkRegion s.memBytes (sampleRegion base n) = none) :
    InBuf s base.toNat (8 * n) ∧ Aligned8 base.toNat (8 * n) := by
  rw [checkRegion_eq_none] at h
  simp only [sampleRegion] at h
  omega

theorem apart_of_regionsOverlap {r t : Region} (h : regionsOverlap r t = false) :
    Apart r.base r.nbytes t.base t.nbytes :=
  or_left_comm.mp (regionsOverlap_eq_false.mp h)

/-- What the region checks of EMBED and EXTRACT say when they pass (R56). -/
theorem twoSources_of_checkRegions {s : State} {a b d : Word} {k l n : Nat}
    (h : checkRegions s.memBytes [sampleRegion a k, sampleRegion b l] (sampleRegion d n) = none) :
    InBuf s a.toNat (8 * k) ∧ Aligned8 a.toNat (8 * k) ∧ InBuf s b.toNat (8 * l) ∧ Aligned8 b.toNat (8 * l) ∧
      InBuf s d.toNat (8 * n) ∧ Aligned8 d.toNat (8 * n) ∧
      Apart a.toNat (8 * k) d.toNat (8 * n) ∧ Apart b.toNat (8 * l) d.toNat (8 * n) := by
  obtain ⟨hsrcs, hdst, happarts⟩ := checkRegions_eq_none.mp h
  simp only [List.forall_mem_cons] at hsrcs happarts
  obtain ⟨ha, hb, -⟩ := hsrcs
  obtain ⟨hapA, hapB, -⟩ := happarts
  obtain ⟨hAin, hAal⟩ := inBuf_aligned8_of_checkRegion ha
  obtain ⟨hBin, hBal⟩ := inBuf_aligned8_of_checkRegion hb
  obtain ⟨hDin, hDal⟩ := inBuf_aligned8_of_checkRegion hdst
  exact ⟨hAin, hAal, hBin, hBal, hDin, hDal, apart_of_regionsOverlap hapA, apart_of_regionsOverlap hapB⟩

theorem modRuns_of_checks {s : State} {d : Region} (h : modChecks s = .ok d) : ModRuns s := by
  obtain ⟨hp, -, hc⟩ := modChecks_ok h
  obtain ⟨hsrc, hdst, hap⟩ := checkRegions_eq_none.mp hc
  rw [List.forall_mem_singleton] at hsrc hap
  obtain ⟨hDin, hDal⟩ := inBuf_aligned8_of_checkRegion hdst
  exact ⟨hp, (checkRegion_eq_none.mp hsrc).imp_right And.left, hDin, hDal, apart_of_regionsOverlap hap⟩

theorem demodStarts_of_checks {s : State} {d : Region} (h : demodChecks s = .ok d) : DemodStarts s := by
  obtain ⟨hp, -, hc⟩ := demodChecks_ok h
  obtain ⟨hsrc, -, hap⟩ := checkRegions_eq_none.mp hc
  rw [List.forall_mem_singleton] at hsrc hap
  obtain ⟨hAin, hAal⟩ := inBuf_aligned8_of_checkRegion hsrc
  exact ⟨hp, hAin, hAal, checkRegions_inBuf hc, apart_of_regionsOverlap hap⟩

theorem embedRuns_of_checks {s : State} {off : Nat} {d : Region} (h : embedChecks s = .ok (off, d)) :
    EmbedRuns s off := by
  obtain ⟨hrate, hlen, hcap, hloc, -, hc⟩ := embedChecks_ok h
  obtain ⟨hfin, hrne⟩ := location_eq_ok.mp hloc
  exact ⟨hrate, hlen, hcap, hfin, hrne, twoSources_of_checkRegions hc⟩

theorem extractRuns_of_checks {s : State} {off : Nat} {d : Region} (h : extractChecks s = .ok (off, d)) :
    ExtractRuns s off := by
  obtain ⟨hrate, hlen, hloc, hfit, -, hc⟩ := extractChecks_ok h
  obtain ⟨hfin, hrne⟩ := location_eq_ok.mp hloc
  exact ⟨hrate, hlen, hfin, hrne, hfit, twoSources_of_checkRegions hc⟩

/-! The region that a reset abandons (R120). -/

theorem passedRegion_eq_none {r : Except ErrorCode Region} (h : ∀ d, r ≠ .ok d) : passedRegion r = none :=
  Option.eq_none_iff_forall_ne_some.mpr fun d hd => h d (passedRegion_eq_some hd)

theorem passedPlan_eq_none {r : Except ErrorCode (Nat × Region)} (h : ∀ off d, r ≠ .ok (off, d)) :
    passedPlan r = none :=
  Option.eq_none_iff_forall_ne_some.mpr fun d hd => let ⟨off, hr⟩ := passedPlan_eq_some hd; h off d hr

section
variable {s : State}

theorem heldDestination_of_illegal {e : DecodeError} (h : decodeWord s.pending = .error e) :
    heldDestination s = none := by
  rw [heldDestination, h]

/-- NOP and DERIVE have no destination in BUF (R75, R100). -/
theorem heldDestination_nop_derive {i : Instr} (h : decodeWord s.pending = .ok i) (hi : i = .nop ∨ i = .derive) :
    heldDestination s = none := by
  rcases hi with rfl | rfl <;> rw [heldDestination, h]

/-- A held MOD has a destination exactly when its checks would pass (R120). -/
theorem heldDestination_mod (h : decodeWord s.pending = .ok .mod) :
    (¬ ModRuns s → heldDestination s = none) ∧ (ModRuns s → heldDestination s = some (modDestination s)) := by
  rw [heldDestination, h]
  exact ⟨fun hn => passedRegion_eq_none fun _ hok => hn (modRuns_of_checks hok),
    fun hruns => congrArg passedRegion (modChecks_of_runs hruns)⟩

/-- The same for DEMOD. -/
theorem heldDestination_demod (h : decodeWord s.pending = .ok .demod) :
    (¬ DemodStarts s → heldDestination s = none) ∧
      (DemodStarts s → heldDestination s = some (demodDestination s)) := by
  rw [heldDestination, h]
  exact ⟨fun hn => passedRegion_eq_none fun _ hok => hn (demodStarts_of_checks hok),
    fun hruns => congrArg passedRegion (demodChecks_of_starts hruns)⟩

/-- The same for EMBED, whose destination does not depend on the offset. -/
theorem heldDestination_embed (h : decodeWord s.pending = .ok .embed) :
    ((¬ ∃ off, EmbedRuns s off) → heldDestination s = none) ∧
      ((∃ off, EmbedRuns s off) → heldDestination s = some (embedDestination s)) := by
  rw [heldDestination, h]
  exact ⟨fun hn => passedPlan_eq_none fun off _ hok => hn ⟨off, embedRuns_of_checks hok⟩,
    fun ⟨_, hruns⟩ => congrArg passedPlan (embedChecks_of_runs hruns)⟩

/-- The same for EXTRACT. -/
theorem heldDestination_extract (h : decodeWord s.pending = .ok .extract) :
    ((¬ ∃ off, ExtractRuns s off) → heldDestination s = none) ∧
      ((∃ off, ExtractRuns s off) → heldDestination s = some (extractDestination s)) := by
  rw [heldDestination, h]
  exact ⟨fun hn => passedPlan_eq_none fun off _ hok => hn ⟨off, extractRuns_of_checks hok⟩,
    fun ⟨_, hruns⟩ => congrArg passedPlan (extractChecks_of_runs hruns)⟩

theorem abandonedRegion_idle (h : s.phase = .idle) : abandonedRegion s = none := by
  rw [abandonedRegion, h]

theorem abandonedRegion_busy (h : s.phase = .busy) : abandonedRegion s = heldDestination s := by
  rw [abandonedRegion, h]

/-- Without a held destination a reset abandons nothing, in either phase. -/
theorem abandonedRegion_of_held_none (h : heldDestination s = none) : abandonedRegion s = none := by
  cases hp : s.phase with
  | idle => exact abandonedRegion_idle hp
  | busy => rw [abandonedRegion_busy hp, h]

end

/-! What the resets do to BUF (R119, R120). -/

/-- Bytes outside the region that a reset leaves unspecified keep their values. -/
theorem read_unspecifyRegion_outside {n base nbytes a : Nat} (m : Memory) (h : a < base ∨ base + nbytes ≤ a) :
    Memory.read (unspecifyRegion n base nbytes m) a = Memory.read m a :=
  Memory.read_write_outside (by rwa [List.length_map, List.length_range])

theorem platformReset_buf {s : State} (h : abandonedRegion s = none) : (platformReset s).buf = s.buf := by
  rw [platformReset, h]
  rfl

theorem read_platformReset_outside {s : State} {r : Region} {a : Nat} (h : abandonedRegion s = some r)
    (ha : a < r.base ∨ r.base + r.nbytes ≤ a) : Memory.read (platformReset s).buf a = Memory.read s.buf a := by
  rw [platformReset, h]
  exact read_unspecifyRegion_outside s.buf ha

theorem read_powerOnReset_outside {s : State} {a : Nat} (ha : s.memBytes ≤ a) :
    Memory.read (powerOnReset s).buf a = Memory.read s.buf a :=
  read_unspecifyRegion_outside s.buf (.inr (by rwa [Nat.zero_add]))

/-- While a command is held that has the destination `d` exactly when `runs`, a reset keeps all of BUF where it does not
run, and the bytes outside `d` where it does (R120). -/
theorem platformReset_keeps {s : State} {runs : Prop} {d : Region} (hbusy : s.phase = .busy)
    (hheld : (¬ runs → heldDestination s = none) ∧ (runs → heldDestination s = some d)) :
    (¬ runs → (platformReset s).buf = s.buf) ∧
      (runs → ∀ a, (a < d.base ∨ d.base + d.nbytes ≤ a) →
        Memory.read (platformReset s).buf a = Memory.read s.buf a) := by
  obtain ⟨hstopped, hruns⟩ := hheld
  exact ⟨fun h => platformReset_buf (abandonedRegion_of_held_none (hstopped h)),
    fun h _ => read_platformReset_outside ((abandonedRegion_busy hbusy).trans (hruns h))⟩

/-! The state that a reset leaves (R118). -/

/-- `s` after a reset, with the bytes of BUF and the coming turns still to say. -/
def resetWith (b : Memory) (rest : List Turn) (s : State) : State := { resetCore s with buf := b, turns := rest }

theorem step_powerOn {s : State} {rest : List Turn} (ht : s.turns = .powerOn :: rest) :
    step s = .next (resetWith (powerOnReset s).buf rest s) := by
  rw [step, nextTurn, ht]
  rfl

/-- A reset does not look at the coming turns, and past the registers it changes only BUF. -/
theorem platformReset_eq (s : State) (rest : List Turn) :
    platformReset { s with turns := rest } = resetWith (platformReset s).buf rest s := by
  have hsame : abandonedRegion { s with turns := rest } = abandonedRegion s := rfl
  rw [platformReset, hsame, platformReset]
  cases abandonedRegion s <;> rfl

theorem step_reset {s : State} {rest : List Turn} (ht : s.turns = .reset :: rest) :
    step s = .next (resetWith (platformReset s).buf rest s) := by
  rw [step, nextTurn, ht, ← platformReset_eq]

section
variable (b : Memory) (rest : List Turn) (s : State)

/-- Only BUF, PENDING, the tables and the model's own fields are not as after power-on (log 4). -/
theorem resetWith_eq :
    resetWith b rest s =
      { State.afterPowerOn s.memUnits b with
        pending := Config.resetPending s.resets
        tables := unspecifiedTables s.resets
        resets := s.resets + 1
        turns := rest
        replies := s.replies } := rfl

/-- TBL_DATA is the one register that looks at the tables, and without PVALID it reads +0.0 (R41). -/
theorem readReg_resetWith (r : Reg) :
    readReg r (resetWith b rest s) = readReg r (State.afterPowerOn s.memUnits []) := by
  cases r with
  | half p k => cases p <;> rfl
  | _ => rfl

theorem readOffset_resetWith (off : BitVec 12) :
    readOffset off (resetWith b rest s) = readOffset off (State.afterPowerOn s.memUnits []) := by
  unfold readOffset
  cases regAt off with
  | none => rfl
  | some r => exact readReg_resetWith b rest s r

end

/-- Settles O56: both turns give `resetWith`, and which bytes of BUF it keeps follows from the region abandoned. -/
theorem resetsGiveEveryRegisterItsResetValue : Obligations.ResetsGiveEveryRegisterItsResetValue := by
  refine ⟨fun s rest ht =>
      ⟨_, step_powerOn ht, resetWith_eq .., rfl, rfl, readOffset_resetWith _ rest s, ?powerOn⟩,
    fun s rest ht => ⟨_, step_reset ht, resetWith_eq .., rfl, rfl, readOffset_resetWith _ rest s, ?idle,
      ?noDestination, ?illegal, ?mod, ?demod, ?embed, ?extract⟩⟩
  case powerOn => exact fun _ => read_powerOnReset_outside
  case idle => exact fun hidle => platformReset_buf (abandonedRegion_idle hidle)
  case noDestination =>
    exact fun i hd hi => platformReset_buf (abandonedRegion_of_held_none (heldDestination_nop_derive hd hi))
  case illegal =>
    exact fun e hd => platformReset_buf (abandonedRegion_of_held_none (heldDestination_of_illegal hd))
  case mod => exact fun hbusy hd => platformReset_keeps hbusy (heldDestination_mod hd)
  case demod => exact fun hbusy hd => platformReset_keeps hbusy (heldDestination_demod hd)
  case embed =>
    intro hbusy hd
    obtain ⟨hstopped, hruns⟩ := platformReset_keeps hbusy (heldDestination_embed hd)
    exact ⟨hstopped, fun off h => hruns ⟨off, h⟩⟩
  case extract =>
    intro hbusy hd
    obtain ⟨hstopped, hruns⟩ := platformReset_keeps hbusy (heldDestination_extract hd)
    exact ⟨hstopped, fun off h => hruns ⟨off, h⟩⟩

end Sys2Proof.Machine
